-- ==== Sys2Proof/Word.lean ====
section
/-! DEFINITION. The word types of the WAVE core (00_scope R9, 30_encoding R110 to R113). -/

namespace Sys2Proof

/-- A 32-bit register or bus word (00_scope R9). -/
abbrev Word := BitVec 32

/-- One BYTEBUF or SYMBUF entry (10_state R50, R51). -/
abbrev Byte := BitVec 8

/-- A sample: 16 bits, read as two's complement through `BitVec.toInt` (30_encoding R110). -/
abbrev Sample := BitVec 16

/-- One MAG entry, the unsigned integer MAGRAW (30_encoding R113). -/
abbrev Mag := BitVec 64

/-- A bus address without its two low bits, which are 0 at every address the host can name: word `n` stands at byte
address `4 * n`, and the 2^22 words fill the 2^24 bytes of the address space (20_memory R70, R75). -/
abbrev BusAddr := BitVec 22

end Sys2Proof
end

