-- ==== Sys2Proof/Config.lean ====
section
/-! DEFINITION. What an implementation of the WAVE core fixes: the parameters of 00_scope R5 (plain data, carried beside
the state, log 3), and the functions and values the spec leaves open, as constants with no body (log 4 to log 9). -/

namespace Sys2Proof.Config

/-- One row of NTAB, with the field widths of 45_noise R228. -/
structure NoiseRow where
  sigma : BitVec 16
  hum   : BitVec 16
  impN  : BitVec 16
  impA  : BitVec 32
  bandN : BitVec 8
  bandA : BitVec 16
deriving DecidableEq, Repr

/-- The row that adds nothing: row 0 of every table (45_noise R229 (a)). -/
def NoiseRow.zero : NoiseRow := ⟨0, 0, 0, 0, 0, 0⟩

/-- The parameters of 00_scope R5 that are numbers or tables. CLIP_MAX and CLIP_MIN are fixed there and stand in
Machine/Operands.lean; WIN_MAX is derived. -/
structure Params where
  waveDepth : Nat
  symDepth  : Nat
  byteDepth : Nat
  log2nMax  : Nat
  levelMax  : Nat
  ntab      : List NoiseRow
deriving DecidableEq, Repr

/-- NTAB[l] (45_noise R228). Past the table's end, which R229's tables never reach for a level up to LEVEL_MAX, the
zero row (DESIGN CHOICE, safe under `Params.Valid`, log 16). -/
def Params.row (p : Params) (l : Nat) : NoiseRow := p.ntab.getD l NoiseRow.zero

/-- WIN_MAX = 2^LOG2N_MAX − 1 (00_scope R5). -/
def Params.winMax (p : Params) : Nat := 2 ^ p.log2nMax - 1

/-- The constraints of 00_scope R5 on the sizes. -/
abbrev Params.SizesOk (p : Params) : Prop :=
  (1 ≤ p.waveDepth ∧ p.waveDepth ≤ 2 ^ 20) ∧ (8 ≤ p.symDepth ∧ p.symDepth ≤ 2 ^ 20) ∧
  (1 ≤ p.byteDepth ∧ p.byteDepth ≤ 2 ^ 19) ∧ (1 ≤ p.log2nMax ∧ p.log2nMax ≤ 16) ∧
  (2 ≤ p.levelMax ∧ p.levelMax ≤ 255)

/-- Every field of `r` is at most that of `r'` (45_noise R229 (b)). -/
abbrev NoiseRow.Le (r r' : NoiseRow) : Prop :=
  r.sigma.toNat ≤ r'.sigma.toNat ∧ r.hum.toNat ≤ r'.hum.toNat ∧ r.impN.toNat ≤ r'.impN.toNat ∧
  r.impA.toNat ≤ r'.impA.toNat ∧ r.bandN.toNat ≤ r'.bandN.toNat ∧ r.bandA.toNat ≤ r'.bandA.toNat

/-- 45_noise R229 (c): impulses are absent below level `on` and present from it on. -/
abbrev Params.ImpulsesFrom (p : Params) (on : Nat) : Prop :=
  ∀ l, l < p.levelMax + 1 →
    if l < on then (p.row l).impN = 0 ∧ (p.row l).impA = 0
    else 1 ≤ (p.row l).impN.toNat ∧ 1 ≤ (p.row l).impA.toNat

/-- 45_noise R229 (d): band tones are absent below level `on` and present from it on. -/
abbrev Params.TonesFrom (p : Params) (on : Nat) : Prop :=
  ∀ l, l < p.levelMax + 1 →
    if l < on then (p.row l).bandN = 0 ∧ (p.row l).bandA = 0
    else 1 ≤ (p.row l).bandN.toNat ∧ 1 ≤ (p.row l).bandA.toNat

/-- 45_noise R229 (d): the tones switch on at one of the top two levels, not before the impulses. -/
abbrev Params.ToneOnsetOk (p : Params) (impOn bandOn : Nat) : Prop :=
  (bandOn = p.levelMax - 1 ∨ bandOn = p.levelMax) ∧ impOn ≤ bandOn ∧ p.TonesFrom bandOn

/-- 45_noise R229 (c), (d): there are switch-on levels IMP_ON and BAND_ON. -/
abbrev Params.OnsetsOk (p : Params) : Prop :=
  ∃ impOn, impOn < p.levelMax + 1 ∧
    ((2 ≤ impOn ∧ p.ImpulsesFrom impOn) ∧ ∃ bandOn, bandOn < p.levelMax + 1 ∧ p.ToneOnsetOk impOn bandOn)

/-- 45_noise R229 (e): the last step of SIGMA is larger than the one before. -/
abbrev Params.TopStepOk (p : Params) : Prop :=
  ((p.row p.levelMax).sigma.toNat : Int) - ((p.row (p.levelMax - 1)).sigma.toNat : Int) >
    ((p.row (p.levelMax - 1)).sigma.toNat : Int) - ((p.row (p.levelMax - 2)).sigma.toNat : Int)

/-- The constraints every NTAB must meet: 45_noise R228 (LEVEL_MAX + 1 rows) and R229 (a) to (e). -/
def Params.ntabOk (p : Params) : Bool :=
  decide (p.ntab.length = p.levelMax + 1) &&
  decide (p.row 0 = NoiseRow.zero) &&
  decide (∀ l, l < p.levelMax → (p.row l).Le (p.row (l + 1))) &&
  decide (∀ l, l < p.levelMax → 1 ≤ (p.row (l + 1)).sigma.toNat ∧ 1 ≤ (p.row (l + 1)).hum.toNat) &&
  decide p.OnsetsOk && decide p.TopStepOk

/-- Parameters the spec allows (00_scope R5, 45_noise R229). -/
abbrev Params.Valid (p : Params) : Prop := p.SizesOk ∧ p.ntabOk = true

/-- The reference profile of NTAB (45_noise R230). -/
def referenceNtab : List NoiseRow :=
  [ ⟨0, 0, 0, 0, 0, 0⟩
  , ⟨500, 300, 0, 0, 0, 0⟩
  , ⟨1000, 600, 0, 0, 0, 0⟩
  , ⟨2000, 1000, 4, 20000, 0, 0⟩
  , ⟨6000, 2000, 16, 40000, 4, 4000⟩
  , ⟨16000, 4000, 64, 60000, 8, 8000⟩ ]

/-- The default of every parameter (00_scope R5; 45_noise R230 for NTAB). -/
def defaultParams : Params where
  waveDepth := 1048576
  symDepth  := 131072
  byteDepth := 16384
  log2nMax  := 16
  levelMax  := 5
  ntab      := referenceNtab

/-! ### NUM, the numerics configuration (00_scope R6) -/

/-- `m` is rne(x) for a real x: the nearest integer, the even one of two at equal distance (00_scope R10). -/
def IsRne (x : ℝ) (m : ℤ) : Prop := |x - m| < 1 / 2 ∨ (|x - m| = 1 / 2 ∧ Even m)

/-- `n` is pow2gt(L) for a window of L ≥ 1 samples: the power of two above L and at most 2L (43_analyzer R188). -/
def IsTransformSize (len n : Nat) : Prop := (∃ m, n = 2 ^ m) ∧ len < n ∧ n ≤ 2 * len

/-- `x` is |X[k]| for the window `seg` padded with zeros to N = `n` points (43_analyzer R187). -/
def IsMagnitude (seg : List Sample) (n k : Nat) (x : ℝ) : Prop :=
  x = Real.sqrt
    ((∑ i ∈ Finset.range seg.length, ((seg.getD i 0).toInt : ℝ) * Real.cos (2 * Real.pi * k * i / n)) ^ 2 +
     (∑ i ∈ Finset.range seg.length, ((seg.getD i 0).toInt : ℝ) * Real.sin (2 * Real.pi * k * i / n)) ^ 2)

/-- The longest window a WAVE core of any parameters analyses: WIN_MAX with LOG2N_MAX = 16 (00_scope R5). -/
def winMaxLargest : Nat := 65535

/-- A term `amp` × NUM.sin(p, q) of a sum that the core rounds. -/
structure Tone where
  amp : Nat
  p   : Nat
  q   : Nat
deriving DecidableEq, Repr

/-- A numerics configuration with the properties 00_scope R6 lists: these and no other. The value of `sin` is real, so
that the ideal profile is one (`Numerics.Ideal`). The machine never holds a real number: it reads the sine through `rne`,
which `rne_spec` fixes at every argument (log 4). -/
structure Numerics where
  /-- NUM.sin(p, q). -/
  sin : Nat → Nat → ℝ
  /-- NUM.mag, one bin at a time: `mag seg k` is MAGRAW[k]; the width gives the bound 2^64. -/
  mag : List Sample → Nat → Mag
  /-- NUM.gauss: 16 bits read as two's complement give its range. -/
  gauss : Word → BitVec 16
  /-- EPS_SIN. -/
  epsSin : ℚ
  /-- EPS_MAG. -/
  epsMag : ℚ
  /-- rne(c + Σ amp × NUM.sin(p, q)), the one way a sine reaches a sample (42_modulator R168, 45_noise R238). -/
  rne : ℚ → List Tone → ℤ
  /-- 00_scope R6 (d). -/
  epsSin_bounds : 0 ≤ epsSin ∧ epsSin ≤ 1 / 2 ^ 18
  /-- 00_scope R6 (d). -/
  epsMag_bounds : 0 ≤ epsMag ∧ epsMag ≤ 1 / 2 ^ 16
  /-- 00_scope R6 (a): the range. -/
  sin_range : ∀ p q, 0 < q → |sin p q| ≤ 1
  /-- 00_scope R6 (a): the accuracy. -/
  sin_accurate : ∀ p q : ℕ, 0 < q → |sin p q - Real.sin (2 * Real.pi * p / q)| ≤ (epsSin : ℝ)
  /-- 00_scope R6 (a): rational values, or those of the ideal profile. -/
  sin_form : (∀ p q, 0 < q → ∃ r : ℚ, sin p q = r) ∨
    ∀ p q : ℕ, 0 < q → sin p q = Real.sin (2 * Real.pi * p / q)
  /-- 00_scope R6 (b): the accuracy, for every window of 1 to WIN_MAX samples. -/
  mag_accurate : ∀ (seg : List Sample) (n k : ℕ) (x : ℝ), 1 ≤ seg.length → seg.length ≤ winMaxLargest →
    IsTransformSize seg.length n → k < n → IsMagnitude seg n k x → |((mag seg k).toNat : ℝ) / 2 ^ 32 - x| ≤ (epsMag : ℝ)
  /-- 00_scope R10. -/
  rne_spec : ∀ (c : ℚ) (ts : List Tone), IsRne (c + (ts.map fun t => (t.amp : ℝ) * sin t.p t.q).sum) (rne c ts)

/-- The ideal profile (00_scope R6, the default of R5): the exact sine, and magnitudes rounded once. -/
def Numerics.Ideal (num : Numerics) : Prop :=
  num.epsSin = 0 ∧ num.epsMag = 1 / 2 ^ 33 ∧
  (∀ p q : ℕ, 0 < q → num.sin p q = Real.sin (2 * Real.pi * p / q)) ∧
  ∀ (seg : List Sample) (n k : ℕ) (x : ℝ), 1 ≤ seg.length → seg.length ≤ winMaxLargest →
    IsTransformSize seg.length n → k < n → IsMagnitude seg n k x → IsRne (x * 2 ^ 32) (num.mag seg k).toNat

/-- The numerics of this hardware: some configuration with the properties of 00_scope R6 (free, log 4). The argument
only shows that there is one; nothing of it can be proved of the value. -/
opaque someNumerics [Inhabited Numerics] : Numerics

/-! ### Other open functions and values -/

/-- RNG.next, an OPEN parameter (00_scope R7; free, log 6). -/
opaque rngNext : BitVec 64 → BitVec 64 × Word

/-- RNG_STATE after the reset of this number (70_reset R293; free, log 8). -/
opaque freeRng : Nat → BitVec 64

/-- A BYTEBUF entry not written since reset: reset number, index (10_state R54; free, log 7). -/
opaque freeByteEntry : Nat → Nat → Byte

/-- A SYMBUF entry not written since reset (10_state R54; free, log 7). -/
opaque freeSymEntry : Nat → Nat → Byte

/-- A WAVE[0] entry not written since reset (10_state R54; free, log 7). -/
opaque freeWave0Entry : Nat → Nat → Sample

/-- A WAVE[1] entry not written since reset (10_state R54; free, log 7). -/
opaque freeWave1Entry : Nat → Nat → Sample

/-- A MAG entry not written since reset (10_state R54; free, log 7). -/
opaque freeMagEntry : Nat → Nat → Mag

/-- The word a refused read returns, by the number of the refused read (20_memory R78; free, log 9). -/
opaque freeBusWord : Nat → Word

end Sys2Proof.Config
end

