-- ==== Sys2Proof/Syntax.lean ====
section
/-! DEFINITION. The commands of the WAVE core: one constructor per row of spec/opcode_table.json (30_encoding R104). -/

namespace Sys2Proof

/-- A waveform bank: what the S or D bit of a command selects (30_encoding R100). -/
inductive Bank where
  | wave0
  | wave1
deriving DecidableEq, Repr

/-- The eight commands with the bank operands each uses (30_encoding R101, R104): `s` the source bank, `d` the
destination bank. There is no other operand field (R101). -/
inductive Instr where
  | nop
  | b2s
  | s2b
  | mod (d : Bank)
  | anlz (s : Bank)
  | demw (s : Bank)
  | demod (s : Bank)
  | noise (s d : Bank)
deriving DecidableEq, Repr

end Sys2Proof
end

