-- ==== Sys2Proof/Decode.lean ====
section
/-! DEFINITION. Decoding a command word by the mask and match table of 30_encoding R104, and the encoder. -/

namespace Sys2Proof

/-- One row of 30_encoding R104. `build s d` is the row's command with its banks. -/
structure Row where
  mask    : Word
  pattern : Word
  build   : Bank → Bank → Instr

/-- The command table (30_encoding R104). -/
def commandTable : List Row :=
  [ ⟨0xFFFFFFFF, 0x00000000, fun _ _ => .nop⟩
  , ⟨0xFFFFFFFF, 0x00000001, fun _ _ => .b2s⟩
  , ⟨0xFFFFFFFF, 0x00000002, fun _ _ => .s2b⟩
  , ⟨0xFFFFFDFF, 0x00000003, fun _ d => .mod d⟩
  , ⟨0xFFFFFEFF, 0x00000004, fun s _ => .anlz s⟩
  , ⟨0xFFFFFEFF, 0x00000005, fun s _ => .demw s⟩
  , ⟨0xFFFFFEFF, 0x00000006, fun s _ => .demod s⟩
  , ⟨0xFFFFFCFF, 0x00000007, fun s d => .noise s d⟩ ]

/-- The bank a bit selects: 0 is WAVE[0], 1 is WAVE[1] (30_encoding R100). -/
def bankOfBit : Bool → Bank
  | false => .wave0
  | true  => .wave1

/-- The bit that selects a bank (30_encoding R100). -/
def bitOfBank : Bank → Bool
  | .wave0 => false
  | .wave1 => true

/-- The row matches the word: (w AND mask) = match (30_encoding R103). -/
def Row.hits (w : Word) (r : Row) : Bool := w &&& r.mask == r.pattern

/-- Decoding (30_encoding R103): the command of the first row that matches, or none for an illegal word (R105). -/
def decode (w : Word) : Option Instr :=
  (commandTable.find? (Row.hits w)).map fun r => r.build (bankOfBit (w.getLsbD 8)) (bankOfBit (w.getLsbD 9))

/-- A command word from its fields (30_encoding R100). -/
def packFields (opc : BitVec 8) (s d : Bool) : Word :=
  (0#22 ++ BitVec.ofBool d ++ BitVec.ofBool s ++ opc).cast (by decide)

/-- The word of a command (30_encoding R102, R104); an unused S or D bit is 0 (R101). -/
def encode : Instr → Word
  | .nop => packFields 0x00 false false
  | .b2s => packFields 0x01 false false
  | .s2b => packFields 0x02 false false
  | .mod d => packFields 0x03 false (bitOfBank d)
  | .anlz s => packFields 0x04 (bitOfBank s) false
  | .demw s => packFields 0x05 (bitOfBank s) false
  | .demod s => packFields 0x06 (bitOfBank s) false
  | .noise s d => packFields 0x07 (bitOfBank s) (bitOfBank d)

/-- The decoder on a word numbered as spec/opcode_table.json numbers it: `w`'s low `nbits` bits, every higher bit 0; none
where the decoder refuses, or where those bits do not fit a command word (log 19). -/
def decodeTableWord (nbits w : Nat) : Option Instr :=
  let v := w % 2 ^ nbits
  if v < 2 ^ 32 then decode (BitVec.ofNat 32 v) else none

end Sys2Proof
end

