-- ==== Sys2Proof/Machine/Numerics.lean ====
section
/-! DEFINITION. NUM (00_scope R6), the numerics the machine computes with: `num`, of which nothing can be proved but what
R6 says. The rest of the file shows that R6 can be met: a rational sine by the power series and magnitudes by an integer
square root, good to the accuracies R6 asks. No claim rests on them. -/

namespace Sys2Proof.Machine

open Sys2Proof.Config

/-! ### Rounding a rational -/

/-- rne of a rational (00_scope R10). -/
def rneRat (x : Rat) : Int :=
  let f := x.floor
  let r := x - (f : Rat)
  if r < 1 / 2 then f else if 1 / 2 < r then f + 1 else if f % 2 = 0 then f else f + 1

theorem rneRat_isRne (x : ℚ) : IsRne (x : ℝ) (rneRat x) := by
  have h1 : (x.floor : ℝ) ≤ x := by exact_mod_cast Rat.floor_le x
  have h2 : (x : ℝ) < (x.floor : ℝ) + 1 := by exact_mod_cast Rat.lt_floor_add_one x
  have cast_lt : ∀ q : ℚ, (x - (x.floor : ℚ) < q ↔ (x : ℝ) - x.floor < q) ∧
      (q < x - (x.floor : ℚ) ↔ (q : ℝ) < (x : ℝ) - x.floor) := fun q =>
    ⟨by rw [← Rat.cast_lt (K := ℝ)]; push_cast; rfl, by rw [← Rat.cast_lt (K := ℝ)]; push_cast; rfl⟩
  have hl := (cast_lt (1 / 2)).1
  have hr := (cast_lt (1 / 2)).2
  push_cast at hl hr
  unfold rneRat IsRne
  simp only []
  split
  · next h => left; rw [hl] at h; rw [abs_lt]; constructor <;> linarith
  · next h =>
    rw [hl, not_lt] at h
    split
    · next h' => left; rw [hr] at h'; push_cast; rw [abs_lt]; constructor <;> linarith
    · next h' =>
      rw [hr, not_lt] at h'
      have heq : (x : ℝ) - x.floor = 1 / 2 := le_antisymm h' h
      right
      split
      · next he => exact ⟨by rw [heq, abs_of_pos (by norm_num)], Int.even_iff.mpr he⟩
      · next he =>
        refine ⟨?_, Int.even_iff.mpr (by omega)⟩
        push_cast
        rw [show (x : ℝ) - (x.floor + 1) = -(1 / 2) by linarith, abs_neg, abs_of_pos (by norm_num)]

/-! ### A point of the unit circle -/

/-- The sum of the first `n` terms of the power series of exp(i·x), and term number `n`, as (real, imaginary). -/
def expTerms (x : ℚ) : Nat → (ℚ × ℚ) × (ℚ × ℚ)
  | 0 => ((0, 0), (1, 0))
  | n + 1 =>
    let ((a, b), (c, d)) := expTerms x n
    ((a + c, b + d), (-(d * x) / (n + 1), c * x / (n + 1)))

/-- The complex number of a pair. -/
abbrev asComplex (z : ℚ × ℚ) : ℂ := ((z.1 : ℝ) : ℂ) + ((z.2 : ℝ) : ℂ) * Complex.I

theorem expTerms_eq (x : ℚ) (n : ℕ) :
    asComplex (expTerms x n).1 = ∑ m ∈ Finset.range n, (((x : ℝ) : ℂ) * Complex.I) ^ m / (m.factorial : ℂ) ∧
    asComplex (expTerms x n).2 = (((x : ℝ) : ℂ) * Complex.I) ^ n / (n.factorial : ℂ) := by
  induction n with
  | zero => simp [expTerms, asComplex]
  | succ n ih =>
    obtain ⟨h1, h2⟩ := ih
    have hn : ((n : ℂ) + 1) ≠ 0 := Nat.cast_add_one_ne_zero n
    constructor
    · rw [Finset.sum_range_succ, ← h1, ← h2]
      simp only [expTerms, asComplex]
      push_cast
      ring
    · rw [pow_succ, Nat.factorial_succ, Nat.cast_mul, mul_comm ((n + 1 : ℕ) : ℂ), mul_div_mul_comm, ← h2]
      simp only [expTerms, asComplex]
      push_cast
      field_simp
      ring_nf
      rw [Complex.I_sq]
      ring

/-- π to twenty places. -/
def piApprox : ℚ := 314159265358979323846 / 10 ^ 20

/-- (cos, sin) of p / q turns, nearly. -/
def turn (p q : Nat) : ℚ × ℚ := (expTerms (2 * piApprox * ((p % q : ℕ) / q)) 64).1

theorem expTerms_near {x : ℚ} (h0 : 0 ≤ x) (h : x ≤ 7) :
    ‖Complex.exp (((x : ℝ) : ℂ) * Complex.I) - asComplex (expTerms x 64).1‖ ≤ 1 / 2 ^ 61 := by
  rw [(expTerms_eq x 64).1]
  have hx : ‖((x : ℝ) : ℂ) * Complex.I‖ = (x : ℝ) := by
    rw [norm_mul, Complex.norm_I, mul_one, Complex.norm_real, Real.norm_of_nonneg (by exact_mod_cast h0)]
  have h7 : (x : ℝ) ≤ 7 := by exact_mod_cast h
  have h00 : (0 : ℝ) ≤ x := by exact_mod_cast h0
  refine le_trans (Complex.exp_bound' (n := 64) ?_) ?_
  · rw [hx]; norm_num; linarith
  · rw [hx]
    have : (x : ℝ) ^ 64 ≤ 7 ^ 64 := pow_le_pow_left₀ h00 h7 64
    have hf : (0 : ℝ) < (Nat.factorial 64 : ℝ) := by positivity
    calc (x : ℝ) ^ 64 / (Nat.factorial 64 : ℝ) * 2 ≤ 7 ^ 64 / (Nat.factorial 64 : ℝ) * 2 := by gcongr
      _ ≤ 1 / 2 ^ 61 := by norm_num [Nat.factorial]

theorem exp_sub_exp_le (a b : ℝ) :
    ‖Complex.exp ((a : ℂ) * Complex.I) - Complex.exp ((b : ℂ) * Complex.I)‖ ≤ |a - b| := by
  have : Complex.exp ((a : ℂ) * Complex.I) - Complex.exp ((b : ℂ) * Complex.I) =
      Complex.exp ((b : ℂ) * Complex.I) * (Complex.exp (Complex.I * ((a - b : ℝ) : ℂ)) - 1) := by
    rw [mul_sub, ← Complex.exp_add, mul_one]
    congr 2
    push_cast
    ring
  rw [this, norm_mul, Complex.norm_exp_ofReal_mul_I, one_mul]
  exact Real.norm_exp_I_mul_ofReal_sub_one_le

theorem turn_near (p q : ℕ) (hq : 0 < q) :
    ‖Complex.exp (((2 * Real.pi * p / q : ℝ) : ℂ) * Complex.I) - asComplex (turn p q)‖ ≤ 1 / 2 ^ 60 := by
  have hqr : (0 : ℝ) < q := by exact_mod_cast hq
  have hr : ((p % q : ℕ) : ℝ) / q ≤ 1 := by
    rw [div_le_one hqr]; exact_mod_cast (Nat.mod_lt p hq).le
  have hr0 : 0 ≤ ((p % q : ℕ) : ℝ) / q := by positivity
  -- one turn more or less is no change
  have hper : Complex.exp (((2 * Real.pi * p / q : ℝ) : ℂ) * Complex.I) =
      Complex.exp (((2 * Real.pi * ((p % q : ℕ) / q) : ℝ) : ℂ) * Complex.I) := by
    have := Complex.exp_periodic.nat_mul (p / q) (((2 * Real.pi * ((p % q : ℕ) / q) : ℝ) : ℂ) * Complex.I)
    rw [← this]
    congr 1
    have hp : (p : ℝ) = q * (p / q : ℕ) + (p % q : ℕ) := by exact_mod_cast (Nat.div_add_mod p q).symm
    have hp' : 2 * Real.pi * p / q = 2 * Real.pi * ((p % q : ℕ) / q) + (p / q : ℕ) * (2 * Real.pi) := by
      rw [hp]; field_simp; ring
    rw [hp']
    push_cast
    ring
  have hpi : |2 * Real.pi * ((p % q : ℕ) / q) - ((2 * piApprox * ((p % q : ℕ) / q) : ℚ) : ℝ)| ≤ 2 / 10 ^ 20 := by
    have hcast : ((2 * piApprox * ((p % q : ℕ) / q) : ℚ) : ℝ) =
        2 * (314159265358979323846 / 10 ^ 20) * ((p % q : ℕ) / q) := by
      simp [piApprox]
    rw [hcast, show ∀ u v t : ℝ, 2 * u * t - 2 * v * t = 2 * (u - v) * t from fun u v t => by ring, abs_mul,
      abs_of_nonneg hr0]
    have h1 := Real.pi_gt_d20
    have h2 := Real.pi_lt_d20
    have : |2 * (Real.pi - 314159265358979323846 / 10 ^ 20)| ≤ 2 / 10 ^ 20 := by
      rw [abs_le]; constructor <;> norm_num at h1 h2 ⊢ <;> linarith
    exact le_trans (mul_le_mul this hr hr0 (by norm_num)) (by norm_num)
  have hq0 : (0 : ℚ) ≤ ((p % q : ℕ) : ℚ) / q := by positivity
  have hq1 : ((p % q : ℕ) : ℚ) / q ≤ 1 := by
    rw [div_le_one (by exact_mod_cast hq)]; exact_mod_cast (Nat.mod_lt p hq).le
  have hs : ‖Complex.exp ((((2 * piApprox * ((p % q : ℕ) / q) : ℚ) : ℝ) : ℂ) * Complex.I) - asComplex (turn p q)‖ ≤
      1 / 2 ^ 61 := by
    refine expTerms_near (by unfold piApprox; positivity) ?_
    unfold piApprox
    nlinarith
  rw [hper]
  refine le_trans (norm_sub_le_norm_sub_add_norm_sub _ _ _) (le_trans (add_le_add
    (le_trans (exp_sub_exp_le _ _) hpi) hs) ?_)
  norm_num

/-- The imaginary part of `turn`, kept in [−1, 1]. -/
def turnSin (p q : Nat) : ℚ := max (-1) (min 1 (turn p q).2)

theorem turnSin_near (p q : ℕ) (hq : 0 < q) : |(turnSin p q : ℝ) - Real.sin (2 * Real.pi * p / q)| ≤ 1 / 2 ^ 18 := by
  have h := le_trans (Complex.abs_im_le_norm _) (turn_near p q hq)
  rw [Complex.sub_im, Complex.exp_ofReal_mul_I_im] at h
  have him : (asComplex (turn p q)).im = (turn p q).2 := by simp [asComplex]
  rw [him, abs_le] at h
  have h1 := Real.sin_le_one (2 * Real.pi * p / q)
  have h2 := Real.neg_one_le_sin (2 * Real.pi * p / q)
  have e : (1 : ℝ) / 2 ^ 60 ≤ 1 / 2 ^ 18 := by norm_num
  unfold turnSin
  push_cast
  rw [abs_le]
  constructor
  · have : Real.sin (2 * Real.pi * p / q) - 1 / 2 ^ 18 ≤ max (-1) (min 1 ((turn p q).2 : ℝ)) :=
      le_max_of_le_right (le_min (by norm_num; linarith) (by linarith [h.2]))
    linarith
  · have : max (-1) (min 1 ((turn p q).2 : ℝ)) ≤ Real.sin (2 * Real.pi * p / q) + 1 / 2 ^ 18 :=
      max_le (by norm_num; linarith) (min_le_of_right_le (by linarith [h.1]))
    linarith

/-! ### The magnitude of one bin -/

/-- Σ x[i]·exp(i·2πki/n) as a complex number; its modulus is |X[k]|. -/
abbrev IsSpectrumPoint (seg : List Sample) (n k : Nat) (z : ℂ) : Prop :=
  z = ∑ i ∈ Finset.range seg.length,
    ((seg.getD i 0).toInt : ℂ) * Complex.exp (((2 * Real.pi * k * i / n : ℝ) : ℂ) * Complex.I)

theorem norm_spectrumPoint {seg : List Sample} {n k : ℕ} {x : ℝ} {z : ℂ} (h : IsMagnitude seg n k x)
    (hz : IsSpectrumPoint seg n k z) : x = ‖z‖ := by
  rw [h, Complex.norm_eq_sqrt_sq_add_sq, hz, Complex.re_sum, Complex.im_sum]
  simp only [← Complex.ofReal_intCast, Complex.re_ofReal_mul, Complex.im_ofReal_mul, Complex.exp_ofReal_mul_I_re,
    Complex.exp_ofReal_mul_I_im]

theorem sample_abs_le (v : Sample) : |(v.toInt : ℝ)| ≤ 32768 := by
  have h1 := BitVec.toInt_lt (x := v)
  have h2 := BitVec.le_toInt v
  rw [abs_le]
  constructor
  · exact_mod_cast (by omega : (-32768 : ℤ) ≤ v.toInt)
  · exact_mod_cast (by omega : v.toInt ≤ (32768 : ℤ))

/-- A magnitude is at most 32768 for each sample (43_analyzer R194 (g)). -/
theorem magnitude_le {seg : List Sample} {n k : ℕ} {x : ℝ} (h : IsMagnitude seg n k x) :
    0 ≤ x ∧ x ≤ 32768 * seg.length := by
  rw [norm_spectrumPoint h rfl]
  refine ⟨norm_nonneg _, le_trans (norm_sum_le _ _) ?_⟩
  calc _ ≤ ∑ _i ∈ Finset.range seg.length, (32768 : ℝ) := by
        refine Finset.sum_le_sum fun i _ => ?_
        rw [norm_mul, Complex.norm_exp_ofReal_mul_I, mul_one, Complex.norm_intCast]
        exact sample_abs_le _
    _ = 32768 * seg.length := by rw [Finset.sum_const, Finset.card_range, nsmul_eq_mul]; ring

/-- Σ x[i]·turn(ki, n), nearly the bin's value. -/
def binPair (seg : List Sample) (n k : Nat) : ℚ × ℚ :=
  (∑ i ∈ Finset.range seg.length, ((seg.getD i 0).toInt : ℚ) * (turn (k * i) n).1,
   ∑ i ∈ Finset.range seg.length, ((seg.getD i 0).toInt : ℚ) * (turn (k * i) n).2)

theorem binPair_near (seg : List Sample) (n k : ℕ) (hn : 0 < n) {z : ℂ} (hz : IsSpectrumPoint seg n k z) :
    ‖z - asComplex (binPair seg n k)‖ ≤ 32768 * seg.length / 2 ^ 60 := by
  have : asComplex (binPair seg n k) =
      ∑ i ∈ Finset.range seg.length, ((seg.getD i 0).toInt : ℂ) * asComplex (turn (k * i) n) := by
    simp only [asComplex, binPair]
    push_cast
    rw [Finset.sum_mul, ← Finset.sum_add_distrib]
    exact Finset.sum_congr rfl fun i _ => by ring
  rw [hz, this, ← Finset.sum_sub_distrib]
  refine le_trans (norm_sum_le _ _) ?_
  calc _ ≤ ∑ _i ∈ Finset.range seg.length, (32768 / 2 ^ 60 : ℝ) := by
        refine Finset.sum_le_sum fun i _ => ?_
        have h := turn_near (k * i) n hn
        rw [← mul_sub, norm_mul, Complex.norm_intCast]
        have : (2 * Real.pi * (k * i : ℕ) / n : ℝ) = 2 * Real.pi * k * i / n := by push_cast; ring
        rw [this] at h
        calc _ ≤ 32768 * (1 / 2 ^ 60 : ℝ) := mul_le_mul (sample_abs_le _) h (norm_nonneg _) (by norm_num)
          _ = _ := by ring
    _ = _ := by rw [Finset.sum_const, Finset.card_range, nsmul_eq_mul]; ring

/-- The modulus of a pair in units of 2^−32, rounded down. -/
def modulus32 (z : ℚ × ℚ) : Nat := Nat.sqrt ⌊(z.1 ^ 2 + z.2 ^ 2) * 2 ^ 64⌋₊

theorem modulus32_near (z : ℚ × ℚ) :
    (modulus32 z : ℝ) ≤ ‖asComplex z‖ * 2 ^ 32 ∧ ‖asComplex z‖ * 2 ^ 32 < modulus32 z + 1 := by
  have hA : (0 : ℚ) ≤ (z.1 ^ 2 + z.2 ^ 2) * 2 ^ 64 := by positivity
  have hn : (‖asComplex z‖ * 2 ^ 32) ^ 2 = (((z.1 ^ 2 + z.2 ^ 2) * 2 ^ 64 : ℚ) : ℝ) := by
    rw [Complex.norm_add_mul_I, mul_pow, Real.sq_sqrt (by positivity)]
    push_cast
    ring
  have h0 : 0 ≤ ‖asComplex z‖ * 2 ^ 32 := by positivity
  have hf1 : ((⌊(z.1 ^ 2 + z.2 ^ 2) * 2 ^ 64⌋₊ : ℚ) : ℝ) ≤ (((z.1 ^ 2 + z.2 ^ 2) * 2 ^ 64 : ℚ) : ℝ) := by
    exact_mod_cast Nat.floor_le hA
  have hf2 : (((z.1 ^ 2 + z.2 ^ 2) * 2 ^ 64 : ℚ) : ℝ) < ((⌊(z.1 ^ 2 + z.2 ^ 2) * 2 ^ 64⌋₊ : ℚ) : ℝ) + 1 := by
    exact_mod_cast Nat.lt_floor_add_one (R := ℚ) _
  rw [← hn] at hf1 hf2
  constructor
  · refine le_of_sq_le_sq ?_ h0
    refine le_trans ?_ hf1
    have := Nat.sqrt_le' ⌊(z.1 ^ 2 + z.2 ^ 2) * 2 ^ 64⌋₊
    unfold modulus32
    exact_mod_cast this
  · refine lt_of_pow_lt_pow_left₀ 2 (by positivity) (lt_of_lt_of_le hf2 ?_)
    have := Nat.lt_succ_sqrt' ⌊(z.1 ^ 2 + z.2 ^ 2) * 2 ^ 64⌋₊
    unfold modulus32
    exact_mod_cast this

theorem binModulus_near {seg : List Sample} {n k : ℕ} {x : ℝ} (hl : seg.length ≤ winMaxLargest) (hn : 0 < n)
    (h : IsMagnitude seg n k x) :
    |(modulus32 (binPair seg n k) : ℝ) / 2 ^ 32 - x| ≤ 1 / 2 ^ 16 ∧ modulus32 (binPair seg n k) < 2 ^ 64 := by
  have hlen : (seg.length : ℝ) ≤ 65535 := by exact_mod_cast hl
  have hx := magnitude_le h
  rw [norm_spectrumPoint h rfl] at hx ⊢
  have h1 := le_trans (abs_norm_sub_norm_le _ _) (binPair_near seg n k hn rfl)
  have h2 := modulus32_near (binPair seg n k)
  rw [abs_le] at h1
  have e : (32768 : ℝ) * seg.length / 2 ^ 60 ≤ 1 / 2 ^ 20 := by
    rw [div_le_div_iff₀ (by norm_num) (by norm_num)]; norm_num; nlinarith
  refine ⟨?_, ?_⟩
  · rw [abs_le]
    have a1 : (modulus32 (binPair seg n k) : ℝ) / 2 ^ 32 ≤ ‖asComplex (binPair seg n k)‖ := by
      rw [div_le_iff₀ (by norm_num)]; exact h2.1
    have a2 : ‖asComplex (binPair seg n k)‖ ≤ (modulus32 (binPair seg n k) : ℝ) / 2 ^ 32 + 1 / 2 ^ 32 := by
      rw [← add_div, le_div_iff₀ (by norm_num)]; exact h2.2.le
    constructor <;> norm_num at * <;> linarith
  · have : (modulus32 (binPair seg n k) : ℝ) < 2 ^ 64 := by
      refine lt_of_le_of_lt h2.1 ?_
      have e' : (1 : ℝ) / 2 ^ 20 ≤ 1 := by norm_num
      calc _ ≤ (2147483648 : ℝ) * 2 ^ 32 := by gcongr; linarith
        _ < 2 ^ 64 := by norm_num
    exact_mod_cast this

/-! ### The numerics of the machine -/

/-- Numerics that meet 00_scope R6, to show that there are some (log 4). -/
def allowedNumerics : Numerics where
  sin p q := (turnSin p q : ℝ)
  mag seg k := BitVec.ofNat 64 (modulus32 (binPair seg (2 ^ (Nat.log2 seg.length + 1)) k))
  gauss _ := 0
  epsSin := 1 / 2 ^ 18
  epsMag := 1 / 2 ^ 16
  rne c ts := rneRat (c + (ts.map fun t => (t.amp : ℚ) * turnSin t.p t.q).sum)
  epsSin_bounds := by norm_num
  epsMag_bounds := by norm_num
  sin_range p q _ := by
    unfold turnSin
    rw [abs_le]
    push_cast
    exact ⟨le_max_left _ _, max_le (by norm_num) (min_le_left _ _)⟩
  sin_accurate p q hq := by
    push_cast
    exact turnSin_near p q hq
  sin_form := .inl fun p q _ => ⟨_, rfl⟩
  mag_accurate seg n k x h1 hl hn _ hx := by
    obtain ⟨⟨m, rfl⟩, hlt, hle⟩ := hn
    have hm : Nat.log2 seg.length + 1 = m := by
      have a := Nat.log2_self_le (n := seg.length) (by omega)
      have b := Nat.lt_log2_self (n := seg.length)
      have c1 : Nat.log2 seg.length < m := (Nat.pow_lt_pow_iff_right (by decide)).mp (lt_of_le_of_lt a hlt)
      have c2 : m < Nat.log2 seg.length + 2 := by
        refine (Nat.pow_lt_pow_iff_right (a := 2) (by decide)).mp (lt_of_le_of_lt hle ?_)
        rw [pow_succ, mul_comm]
        omega
      omega
    rw [hm]
    obtain ⟨ha, hb⟩ := binModulus_near hl (Nat.two_pow_pos m) hx
    rw [BitVec.toNat_ofNat, Nat.mod_eq_of_lt hb]
    push_cast
    exact ha
  rne_spec c ts := by
    have : ((c + (ts.map fun t => (t.amp : ℚ) * turnSin t.p t.q).sum : ℚ) : ℝ) =
        c + (ts.map fun t => (t.amp : ℝ) * (turnSin t.p t.q : ℝ)).sum := by
      push_cast [List.map_map]
      simp [Function.comp_def]
    rw [← this]
    exact rneRat_isRne _

/-- NUM, the numerics of this hardware (00_scope R5, R6; free, log 4). -/
def num : Numerics := @someNumerics ⟨allowedNumerics⟩

end Sys2Proof.Machine
end

