-- ==== Sys2Proof/Machine/State.lean ====
section
/-! DEFINITION. The state of the WAVE core as plain data (10_state), the reasons a step could stop, and the state after
reset (10_state R59). -/

namespace Sys2Proof.Machine

/-- Why a command fails (30_encoding R114). The code of each stands in Machine/Flags.lean. -/
inductive ErrCode where
  | illCmd
  | cfg
  | range
  | badSym
  | ovf
deriving DecidableEq, Repr

/-- The five sticky bits of FLAGS (10_state R30). -/
structure Flags where
  invsym   : Bool
  shortwin : Bool
  noband   : Bool
  busyacc  : Bool
  badaddr  : Bool
deriving DecidableEq, Repr

/-- A buffer: pairs of an index and the entry last written there since reset, the indices strictly rising. An index with
no pair is an entry nothing has written since reset (10_state R54; log 11). `Buf 8` is a list of `Host.Cell`. -/
abbrev Buf (w : Nat) := List (Nat × BitVec w)

/-- The five buffers (10_state R50 to R53). -/
structure Memory where
  byteBuf : Buf 8
  symBuf  : Buf 8
  wave0   : Buf 16
  wave1   : Buf 16
  mag     : Buf 64
deriving DecidableEq, Repr

/-- One move of an agent (00_scope R8). -/
inductive Move where
  /-- The host reads the word at a bus address: HostRead (20_memory R73). -/
  | read (a : BusAddr)
  /-- The host writes a word at a bus address: HostWrite (20_memory R74). -/
  | write (a : BusAddr) (v : Word)
  /-- The core takes its turn: it completes the command in flight, if there is one (40_command R133). -/
  | core
  /-- The reset input is asserted and released (70_reset R290; log 15). -/
  | reset
deriving DecidableEq, Repr

/-- The state of the machine: the registers of 10_state R23 field by field, the buffers, the parameters carried beside
them (log 3), and the model's own fields (log 1, log 2, log 10). -/
structure State where
  /-- The parameters of 00_scope R5, fixed for the life of the hardware (10_state R58). -/
  params      : Config.Params
  /-- CTRL bit 1 (10_state R27). -/
  ieDone      : Bool
  /-- CTRL bit 2 (10_state R27). -/
  ieErr       : Bool
  /-- CMDREG, read as CMD (10_state R28, R57). -/
  cmd         : Word
  /-- STATUS bit 0 (10_state R29). -/
  busy        : Bool
  /-- STATUS bit 1, DONE (10_state R29). -/
  fin         : Bool
  /-- STATUS bit 2, ERR (10_state R29). -/
  err         : Bool
  /-- STATUS bits [11:8] (10_state R29). -/
  errCode     : BitVec 4
  flags       : Flags
  srate       : Word
  symdurNum   : Word
  symdurDen   : Word
  fSpace      : Word
  fMark       : Word
  ampl        : BitVec 16
  bandLo      : Word
  bandHi      : Word
  level       : BitVec 8
  /-- RNG_HI and RNG_LO, high half and low half (10_state R41). -/
  rngState    : BitVec 64
  winOff      : Word
  winLen      : Word
  byteLen     : Word
  symLen      : Word
  waveLen0    : Word
  waveLen1    : Word
  log2n       : BitVec 5
  peakBin     : BitVec 16
  /-- PEAK_INFO bit 0, BIT (10_state R48). -/
  peakBit     : Bool
  /-- PEAK_INFO bit 1, NOBAND (10_state R48). -/
  peakNoband  : Bool
  invsymCnt   : Word
  nobandCnt   : Word
  mem         : Memory
  /-- The agents' next moves, oldest first (the model's own field, log 1). -/
  schedule    : List Move
  /-- The word the latest HostRead returned (the model's own field, log 2). -/
  reply       : Option Word
  /-- How many resets there have been (the model's own field, log 10). -/
  resets      : Nat
  /-- How many reads have been refused (the model's own field, log 10). -/
  draws       : Nat
deriving DecidableEq, Repr

/-- The reasons a step could end in a fault. There is none: "No behaviour in this hardware is fault" or "stuck"
(93_implementation_defined, part 1), and a failed command is a next state (60_exceptions R262). Nobody raises one; the
type is empty, which is safe (log 18). -/
inductive Fault where
deriving DecidableEq, Repr

/-- The reasons a step could be refused. -/
inductive Refusal where
  /-- Raised by `exec` alone, in the arm of a command that has no meaning yet, under its mnemonic. Safe: nothing is
  claimed of such a command. No arm raises it in this model. -/
  | notModelled (mnemonic : String)
deriving DecidableEq, Repr

/-- The buffers right after a reset: no entry written (70_reset R292; log 7). -/
def Memory.blank : Memory := ⟨[], [], [], [], []⟩

/-- FLAGS = 0. -/
def Flags.clear : Flags := ⟨false, false, false, false, false⟩

/-- The state right after reset (10_state R59, 70_reset R290), with the parameters at their defaults (00_scope R5, log 3)
and nothing scheduled (log 13). -/
def State.reset : State where
  params      := Config.defaultParams
  ieDone      := false
  ieErr       := false
  cmd         := 0
  busy        := false
  fin         := false
  err         := false
  errCode     := 0
  flags       := Flags.clear
  srate       := 0
  symdurNum   := 0
  symdurDen   := 0
  fSpace      := 0
  fMark       := 0
  ampl        := 32767
  bandLo      := 0
  bandHi      := 0
  level       := 0
  rngState    := Config.freeRng 0
  winOff      := 0
  winLen      := 0
  byteLen     := 0
  symLen      := 0
  waveLen0    := 0
  waveLen1    := 0
  log2n       := 0
  peakBin     := 0
  peakBit     := false
  peakNoband  := false
  invsymCnt   := 0
  nobandCnt   := 0
  mem         := Memory.blank
  schedule    := []
  reply       := none
  resets      := 0
  draws       := 0

end Sys2Proof.Machine
end

