-- ==== Sys2Proof/Machine/Operands.lean ====
section
/-! DEFINITION. The numeric functions of the rules (00_scope R10 to R12), and the operands commands compute from registers.
All arithmetic here is over unbounded numbers (00_scope R11). What computes with NUM takes it as an argument `num`, so that
claims can be made for every profile (00_scope R6); the machine's own is `Machine.num`. -/

namespace Sys2Proof.Machine

/-- CLIP_MAX (00_scope R5). -/
def clipMax : Int := 32767

/-- CLIP_MIN (00_scope R5, 90_conflicts C2). -/
def clipMin : Int := -32767

/-- clip (00_scope R10). -/
def clip (v : Int) : Int := max clipMin (min clipMax v)

/-- A number in the sample range as a sample (30_encoding R110). -/
def toSample (v : Int) : Sample := BitVec.ofInt 16 v

/-- Round the exact sum c + Σ amp × NUM.sin(p, q), then clip, then store as a sample (42_modulator R170,
45_noise R238). -/
def quantise (num : Config.Numerics) (c : Rat) (ts : List Config.Tone) : Sample := toSample (clip (num.rne c ts))

/-- log2 of pow2gt(L): the least m with 2^m > L (00_scope R10). -/
def log2gt (l : Nat) : Nat := if l = 0 then 0 else Nat.log2 l + 1

/-- pow2gt(L), the least power of two strictly greater than L (00_scope R10, 43_analyzer R188). -/
def pow2gt (l : Nat) : Nat := 2 ^ log2gt l

/-- NUM.mag(seg): N = pow2gt(L) values MAGRAW (00_scope R6 (b); log 5). -/
def numMag (num : Config.Numerics) (seg : List Sample) : List Mag :=
  (List.range (pow2gt seg.length)).map (num.mag seg)

/-- NUM.gauss(w), the integer G read in units of 1/4096 (00_scope R6 (c), 45_noise R233). -/
def numGauss (num : Config.Numerics) (w : Word) : Int := (num.gauss w).toInt

/-- SPS, exact (00_scope R12). With SYMDUR_DEN = 0 this is 0, and every command that uses it has failed already
(60_exceptions R264). -/
def State.sps (s : State) : Nat := s.srate.toNat * s.symdurNum.toNat / s.symdurDen.toNat

/-- WAVE_LEN[b] (10_state R45, 30_encoding R101). -/
def State.waveLen (s : State) : Bank → Word
  | .wave0 => s.waveLen0
  | .wave1 => s.waveLen1

/-- The signed index k' of bin k of an N-point transform (43_analyzer R189). -/
def signedBin (n k : Nat) : Int := if k < n / 2 then (k : Int) else (k : Int) - (n : Int)

/-- The character code of a bit (30_encoding R112). -/
def symbolOf (b : Bool) : Byte := if b then 0x31 else 0x30

/-- A valid symbol: 0x30 or 0x31 (30_encoding R112). -/
def isSymbol (c : Byte) : Bool := c == 0x30 || c == 0x31

/-- Bits i of a word as a truth value. -/
def bitOf (w : Word) (i : Nat) : Bool := w.getLsbD i

end Sys2Proof.Machine
end

