-- ==== Sys2Proof/Machine/Flags.lean ====
section
/-! DEFINITION. The words of CTRL, STATUS and FLAGS, their write rules, the sticky flags and the interrupt line
(10_state R27, R29, R30, R60; 30_encoding R114). -/

namespace Sys2Proof.Machine

/-- The code of a failure (30_encoding R114); 0 stands for none and 6 to 15 are never produced. -/
def ErrCode.code : ErrCode → BitVec 4
  | .illCmd => 1
  | .cfg    => 2
  | .range  => 3
  | .badSym => 4
  | .ovf    => 5

/-- The bit `b` at position `i` of a word. -/
def bitAt (b : Bool) (i : Nat) : Word := (BitVec.ofBool b).setWidth 32 <<< i

/-- CTRL as read: SRST reads 0, bits 1 and 2 are the enables (10_state R27). -/
def State.ctrlWord (s : State) : Word := bitAt s.ieDone 1 ||| bitAt s.ieErr 2

/-- STATUS as read (10_state R29). -/
def State.statusWord (s : State) : Word :=
  bitAt s.busy 0 ||| bitAt s.fin 1 ||| bitAt s.err 2 ||| s.errCode.setWidth 32 <<< 8

/-- FLAGS as read (10_state R30). -/
def Flags.word (f : Flags) : Word :=
  bitAt f.invsym 0 ||| bitAt f.shortwin 1 ||| bitAt f.noband 2 ||| bitAt f.busyacc 3 ||| bitAt f.badaddr 4

/-- PEAK_INFO as read (10_state R48). -/
def State.peakInfoWord (s : State) : Word := bitAt s.peakBit 0 ||| bitAt s.peakNoband 1

/-- A host write to STATUS: a 1 in bit 1 clears DONE, a 1 in bit 2 clears ERR and with it ERRCODE (10_state R29,
60_exceptions R275). This is how a host acknowledges a failure (60_exceptions R277): nothing is restored, since nothing
was saved. -/
def State.ackStatus (v : Word) (s : State) : State :=
  { s with fin := s.fin && !bitOf v 1
           err := s.err && !bitOf v 2
           errCode := if bitOf v 2 then 0 else s.errCode }

/-- A host write to FLAGS: a 1 clears the bit, a 0 leaves it (10_state R30). -/
def Flags.ack (v : Word) (f : Flags) : Flags where
  invsym   := f.invsym && !bitOf v 0
  shortwin := f.shortwin && !bitOf v 1
  noband   := f.noband && !bitOf v 2
  busyacc  := f.busyacc && !bitOf v 3
  badaddr  := f.badaddr && !bitOf v 4

/-- FLAGS.INVSYM is set if `b`, and never cleared by a command (42_modulator R172). -/
def Flags.noteInvsym (b : Bool) (f : Flags) : Flags := { f with invsym := f.invsym || b }

/-- FLAGS.SHORTWIN is set if `b` (44_demodulator R214). -/
def Flags.noteShortwin (b : Bool) (f : Flags) : Flags := { f with shortwin := f.shortwin || b }

/-- FLAGS.NOBAND is set if `b` (44_demodulator R205). -/
def Flags.noteNoband (b : Bool) (f : Flags) : Flags := { f with noband := f.noband || b }

/-- FLAGS.BUSYACC is set (60_exceptions R272). -/
def State.noteBusyacc (s : State) : State := { s with flags := { s.flags with busyacc := true } }

/-- FLAGS.BADADDR is set (60_exceptions R273). -/
def State.noteBadaddr (s : State) : State := { s with flags := { s.flags with badaddr := true } }

/-- The interrupt output (10_state R60, 60_exceptions R274). -/
def State.irq (s : State) : Bool := (s.ieDone && s.fin) || (s.ieErr && s.err)

end Sys2Proof.Machine
end

