-- ==== Sys2Proof/Machine/Ops.lean ====
section
/-! DEFINITION. The shared operations: buffer entries, the stores commands make, accepting and finishing a command
(failure included), reset, and the random draw. -/

namespace Sys2Proof.Machine

/-! ### Buffers -/

/-- The entry written at index `i` since reset, if there is one. -/
def Buf.find {w : Nat} : Buf w → Nat → Option (BitVec w)
  | [], _ => none
  | (j, v) :: rest, i => if j = i then some v else Buf.find rest i

/-- Write one entry, keeping the indices rising. -/
def Buf.put {w : Nat} : Buf w → Nat → BitVec w → Buf w
  | [], i, v => [(i, v)]
  | (j, u) :: rest, i, v =>
    if i < j then (i, v) :: (j, u) :: rest
    else if i = j then (i, v) :: rest
    else (j, u) :: Buf.put rest i v

/-- The entries `vs` at the indices `i`, `i + 1`, … -/
def Buf.numbered {w : Nat} : Nat → List (BitVec w) → Buf w
  | _, [] => []
  | i, v :: vs => (i, v) :: Buf.numbered (i + 1) vs

/-- Write `vs` to the entries 0 to `vs.length − 1` and keep every other entry: the one way a command writes a buffer
(10_state R54, 20_memory R86 (d)). -/
def Buf.fill {w : Nat} (b : Buf w) (vs : List (BitVec w)) : Buf w :=
  Buf.numbered 0 vs ++ b.filter fun e => decide (vs.length ≤ e.1)

/-- The canonical form of a buffer: its indices rise strictly. -/
def Buf.rising {w : Nat} : Buf w → Bool
  | [] => true
  | (i, _) :: rest => (rest.all fun e => decide (i < e.1)) && Buf.rising rest

/-- Every written index lies below `depth`. -/
def Buf.below {w : Nat} (depth : Nat) (b : Buf w) : Bool := b.all fun e => decide (e.1 < depth)

/-- The canonical form of the memory. -/
def Memory.wf (m : Memory) : Bool :=
  m.byteBuf.rising && m.symBuf.rising && m.wave0.rising && m.wave1.rising && m.mag.rising

/-- No written entry lies at or above its buffer's depth (20_memory R86). -/
def Memory.within (p : Config.Params) (m : Memory) : Bool :=
  m.byteBuf.below p.byteDepth && m.symBuf.below p.symDepth && m.wave0.below p.waveDepth &&
  m.wave1.below p.waveDepth && m.mag.below (2 ^ p.log2nMax)

/-- A waveform bank. -/
def Memory.wave (m : Memory) : Bank → Buf 16
  | .wave0 => m.wave0
  | .wave1 => m.wave1

/-- Replace a waveform bank. -/
def Memory.setWave (m : Memory) (b : Bank) (v : Buf 16) : Memory :=
  match b with
  | .wave0 => { m with wave0 := v }
  | .wave1 => { m with wave1 := v }

/-- BYTEBUF[i]; an entry not written since reset has a free, stable value (10_state R54, 20_memory R80; log 7). -/
def State.byteAt (s : State) (i : Nat) : Byte := (s.mem.byteBuf.find i).getD (Config.freeByteEntry s.resets i)

/-- SYMBUF[i] (as `byteAt`). -/
def State.symAt (s : State) (i : Nat) : Byte := (s.mem.symBuf.find i).getD (Config.freeSymEntry s.resets i)

/-- The free value of an entry of a waveform bank (log 7). -/
def freeWaveEntry : Bank → Nat → Nat → Sample
  | .wave0 => Config.freeWave0Entry
  | .wave1 => Config.freeWave1Entry

/-- WAVE[b][i] (as `byteAt`). -/
def State.waveAt (s : State) (b : Bank) (i : Nat) : Sample := ((s.mem.wave b).find i).getD (freeWaveEntry b s.resets i)

/-- MAG[k] (as `byteAt`). -/
def State.magAt (s : State) (k : Nat) : Mag := (s.mem.mag.find k).getD (Config.freeMagEntry s.resets k)

/-- The samples WAVE[b][off .. off + len − 1]. -/
def State.segment (s : State) (b : Bank) (off len : Nat) : List Sample :=
  (List.range len).map fun n => s.waveAt b (off + n)

/-! ### What commands store: entries from index 0 up, then the buffer's length (20_memory R86 (d)) -/

/-- BYTEBUF and BYTE_LEN. -/
def State.storeBytes (vs : List Byte) (s : State) : State :=
  { s with mem := { s.mem with byteBuf := s.mem.byteBuf.fill vs }, byteLen := BitVec.ofNat 32 vs.length }

/-- SYMBUF and SYM_LEN. -/
def State.storeSymbols (vs : List Byte) (s : State) : State :=
  { s with mem := { s.mem with symBuf := s.mem.symBuf.fill vs }, symLen := BitVec.ofNat 32 vs.length }

/-- WAVE_LEN[b]. -/
def State.setWaveLen (b : Bank) (v : Word) (s : State) : State :=
  match b with
  | .wave0 => { s with waveLen0 := v }
  | .wave1 => { s with waveLen1 := v }

/-- WAVE[b] and WAVE_LEN[b]. -/
def State.storeWave (b : Bank) (vs : List Sample) (s : State) : State :=
  State.setWaveLen b (BitVec.ofNat 32 vs.length)
    { s with mem := s.mem.setWave b ((s.mem.wave b).fill vs) }

/-- MAG[0 .. N − 1] and LOG2N, for a window of `len` samples (43_analyzer R190). -/
def State.storeSpectrum (len : Nat) (vs : List Mag) (s : State) : State :=
  { s with mem := { s.mem with mag := s.mem.mag.fill vs }, log2n := BitVec.ofNat 5 (log2gt len) }

/-! ### The life of a command -/

/-- Acceptance of the word `w` (40_command R131): the word is not examined, and nothing else changes. -/
def State.accept (w : Word) (s : State) : State :=
  { s with cmd := w, busy := true, fin := false, err := false, errCode := 0 }

/-- The command in flight, decoded (30_encoding R103); none for an illegal word. -/
def State.command (s : State) : Option Instr := decode s.cmd

/-- What Exec answers: `.error c` is `fail E_c`, `.ok t` holds the updates (40_command R133). -/
abbrev Result := Except ErrCode State

/-- Failure, the hardware's exception entry (60_exceptions R262, R276): STATUS.ERR and ERRCODE are written, BUSY falls,
DONE rises, and nothing else changes. No context is saved and control goes nowhere; the acknowledgement beside it is
`State.ackStatus` (60_exceptions R277). -/
def State.failWith (c : ErrCode) (s : State) : State :=
  { s with err := true, errCode := c.code, busy := false, fin := true }

/-- The end of a successful completion (40_command R133). ERR is not written: acceptance cleared it (log 17). -/
def State.succeed (s : State) : State :=
  { s with errCode := 0, busy := false, fin := true }

/-- The completion step with Exec's answer (40_command R133, R135): all of the updates, or none and a failure. -/
def conclude (s : State) : Result → Host.Outcome State Fault Refusal
  | .error c => .next (s.failWith c)
  | .ok t => .next t.succeed

/-- Reset, hard or soft (10_state R59; 70_reset R290, R291): every register at its reset value, whatever was in flight
discarded, buffers and RNG_STATE unspecified anew. The parameters are the hardware's (10_state R58), and the schedule,
the last reply and the count of refused reads are the model's own (log 1, log 2, log 10). -/
def State.resetAgain (s : State) : State :=
  { State.reset with
    params := s.params, schedule := s.schedule, reply := s.reply, draws := s.draws,
    resets := s.resets + 1, rngState := Config.freeRng (s.resets + 1) }

/-! ### Random words -/

/-- `n` successive draws from a generator state: the words in order, and the state reached (45_noise R231). -/
def drawMany : Nat → BitVec 64 → List Word × BitVec 64
  | 0, g => ([], g)
  | n + 1, g =>
    let (g1, w) := Config.rngNext g
    let (ws, g2) := drawMany n g1
    (w :: ws, g2)

end Sys2Proof.Machine
end

