-- ==== Sys2Proof/Machine/Bus.lean ====
section
/-! DEFINITION. The host's transactions: the register map (10_state R23), the address map (20_memory R71), HostRead and
HostWrite (20_memory R73, R74, R77 to R81; 40_command R131, R132). -/

namespace Sys2Proof.Machine

/-- The 32 registers of 10_state R23. -/
inductive Reg where
  | id | cap | waveDepth | symDepth | byteDepth | ctrl | cmd | status | flags
  | srate | symdurNum | symdurDen | fSpace | fMark | ampl | bandLo | bandHi | level
  | rngLo | rngHi | winOff | winLen | byteLen | symLen | waveLen0 | waveLen1
  | log2n | peakBin | peakInfo | invsymCnt | nobandCnt | sps
deriving DecidableEq, Repr

/-- The registers in the order of their offsets, four bytes apart (10_state R23). -/
def registerMap : List Reg :=
  [ .id, .cap, .waveDepth, .symDepth, .byteDepth, .ctrl, .cmd, .status, .flags
  , .srate, .symdurNum, .symdurDen, .fSpace, .fMark, .ampl, .bandLo, .bandHi, .level
  , .rngLo, .rngHi, .winOff, .winLen, .byteLen, .symLen, .waveLen0, .waveLen1
  , .log2n, .peakBin, .peakInfo, .invsymCnt, .nobandCnt, .sps ]

/-- What a bus address names (20_memory R71). -/
inductive Target where
  | reg (r : Reg)
  /-- Offsets 0x000080 to 0x0FFFFC. -/
  | hole
  /-- The low or the high word of MAG[k]. -/
  | mag (k : Nat) (high : Bool)
  | byteBuf (i : Nat)
  | symBuf (i : Nat)
  | wave (b : Bank) (i : Nat)
deriving DecidableEq, Repr

/-- The bus address of a byte address (20_memory R75: only multiples of 4 are meant). -/
def busAddr (a : Nat) : BusAddr := BitVec.ofNat 22 (a / 4)

/-- The byte address of a bus address. -/
def byteAddr (a : BusAddr) : Nat := 4 * a.toNat

/-- The bus address of a register (10_state R23). -/
def regAddr (r : Reg) : BusAddr := busAddr (4 * registerMap.idxOf r)

/-- The address map (20_memory R71). -/
def target (a : BusAddr) : Target :=
  let n := byteAddr a
  if n < 0x000080 then
    match registerMap[n / 4]? with
    | some r => .reg r
    | none => .hole
  else if n < 0x100000 then .hole
  else if n < 0x200000 then .mag ((n - 0x100000) / 8) (decide ((n - 0x100000) % 8 = 4))
  else if n < 0x400000 then .byteBuf ((n - 0x200000) / 4)
  else if n < 0x800000 then .symBuf ((n - 0x400000) / 4)
  else if n < 0xC00000 then .wave .wave0 ((n - 0x800000) / 4)
  else .wave .wave1 ((n - 0xC00000) / 4)

/-- The entry an aperture address names exists: its index lies below the buffer's depth (20_memory R79). -/
def Target.exists? (p : Config.Params) : Target → Bool
  | .reg _ => true
  | .hole => false
  | .mag k _ => decide (k < 2 ^ p.log2nMax)
  | .byteBuf i => decide (i < p.byteDepth)
  | .symBuf i => decide (i < p.symDepth)
  | .wave _ i => decide (i < p.waveDepth)

/-- SPS as read: 0 with SYMDUR_DEN = 0, and saturated at 0xFFFFFFFF (10_state R56). -/
def State.spsWord (s : State) : Word :=
  if s.symdurDen = 0 then 0
  else if s.sps < 2 ^ 32 then BitVec.ofNat 32 s.sps
  else 0xFFFFFFFF

/-- CAP: LOG2N_MAX in bits [7:0], LEVEL_MAX in bits [15:8] (10_state R25). -/
def State.capWord (s : State) : Word :=
  (0#16 ++ BitVec.ofNat 8 s.params.levelMax ++ BitVec.ofNat 8 s.params.log2nMax).cast (by decide)

/-- A register as read (10_state R22 to R56). No read has a side effect (20_memory R73). -/
def State.readReg (s : State) : Reg → Word
  | .id => 0x57415645
  | .cap => s.capWord
  | .waveDepth => BitVec.ofNat 32 s.params.waveDepth
  | .symDepth => BitVec.ofNat 32 s.params.symDepth
  | .byteDepth => BitVec.ofNat 32 s.params.byteDepth
  | .ctrl => s.ctrlWord
  | .cmd => s.cmd
  | .status => s.statusWord
  | .flags => s.flags.word
  | .srate => s.srate
  | .symdurNum => s.symdurNum
  | .symdurDen => s.symdurDen
  | .fSpace => s.fSpace
  | .fMark => s.fMark
  | .ampl => s.ampl.setWidth 32
  | .bandLo => s.bandLo
  | .bandHi => s.bandHi
  | .level => s.level.setWidth 32
  | .rngLo => s.rngState.extractLsb' 0 32
  | .rngHi => s.rngState.extractLsb' 32 32
  | .winOff => s.winOff
  | .winLen => s.winLen
  | .byteLen => s.byteLen
  | .symLen => s.symLen
  | .waveLen0 => s.waveLen0
  | .waveLen1 => s.waveLen1
  | .log2n => s.log2n.setWidth 32
  | .peakBin => s.peakBin.setWidth 32
  | .peakInfo => s.peakInfoWord
  | .invsymCnt => s.invsymCnt
  | .nobandCnt => s.nobandCnt
  | .sps => s.spsWord

/-- A write to CTRL: SRST resets whatever the other bits are; else bits 1 and 2 are stored (10_state R27, 70_reset R291). -/
def State.writeCtrl (v : Word) (s : State) : State :=
  if bitOf v 0 then s.resetAgain else { s with ieDone := bitOf v 1, ieErr := bitOf v 2 }

/-- A write to a register while the core is idle, by the register's class (10_state R22): a write to a read-only register
is ignored, a narrow field keeps the low bits. -/
def State.writeReg (v : Word) (s : State) : Reg → State
  | .id => s
  | .cap => s
  | .waveDepth => s
  | .symDepth => s
  | .byteDepth => s
  | .ctrl => s.writeCtrl v
  | .cmd => s.accept v
  | .status => s.ackStatus v
  | .flags => { s with flags := s.flags.ack v }
  | .srate => { s with srate := v }
  | .symdurNum => { s with symdurNum := v }
  | .symdurDen => { s with symdurDen := v }
  | .fSpace => { s with fSpace := v }
  | .fMark => { s with fMark := v }
  | .ampl => { s with ampl := v.setWidth 16 }
  | .bandLo => { s with bandLo := v }
  | .bandHi => { s with bandHi := v }
  | .level => { s with level := v.setWidth 8 }
  | .rngLo => { s with rngState := s.rngState.extractLsb' 32 32 ++ v }
  | .rngHi => { s with rngState := v ++ s.rngState.extractLsb' 0 32 }
  | .winOff => { s with winOff := v }
  | .winLen => { s with winLen := v }
  | .byteLen => { s with byteLen := v }
  | .symLen => { s with symLen := v }
  | .waveLen0 => { s with waveLen0 := v }
  | .waveLen1 => { s with waveLen1 := v }
  | .log2n => s
  | .peakBin => s
  | .peakInfo => s
  | .invsymCnt => s
  | .nobandCnt => s
  | .sps => s

/-- The registers a host may write while the core is busy (20_memory R78). -/
def Reg.writableBusy : Reg → Bool
  | .ctrl => true
  | .status => true
  | .flags => true
  | _ => false

/-- The word of an entry that exists (20_memory R77, R81). -/
def State.readEntry (s : State) : Target → Word
  | .reg r => s.readReg r
  | .hole => 0
  | .mag k high => if high then (s.magAt k).extractLsb' 32 32 else (s.magAt k).extractLsb' 0 32
  | .byteBuf i => (s.byteAt i).setWidth 32
  | .symBuf i => (s.symAt i).setWidth 32
  | .wave b i => (s.waveAt b i).signExtend 32

/-- A write to an entry that exists, while the core is idle (20_memory R77); MAG is read-only (R81). -/
def State.writeEntry (v : Word) (s : State) : Target → State
  | .reg r => s.writeReg v r
  | .hole => s
  | .mag _ _ => s
  | .byteBuf i => { s with mem := { s.mem with byteBuf := s.mem.byteBuf.put i (v.setWidth 8) } }
  | .symBuf i => { s with mem := { s.mem with symBuf := s.mem.symBuf.put i (v.setWidth 8) } }
  | .wave b i => { s with mem := s.mem.setWave b ((s.mem.wave b).put i (v.setWidth 16)) }

/-- A refused read: FLAGS.BUSYACC rises and the word is free, a fresh one each time (20_memory R78; log 9). -/
def State.refuseRead (s : State) : Word × State :=
  (Config.freeBusWord s.draws, { s.noteBusyacc with draws := s.draws + 1 })

/-- HostRead: the word, and the state after (20_memory R73, R78, R79). -/
def State.hostRead (s : State) (a : BusAddr) : Word × State :=
  match target a with
  | .reg r => (s.readReg r, s)
  | .hole => (0, s.noteBadaddr)
  | t =>
    if s.busy then s.refuseRead
    else if t.exists? s.params then (s.readEntry t, s)
    else (0, s.noteBadaddr)

/-- HostWrite (20_memory R74, R78, R79; 40_command R131, R132). -/
def State.hostWrite (s : State) (a : BusAddr) (v : Word) : State :=
  match target a with
  | .reg r => if s.busy && !r.writableBusy then s.noteBusyacc else s.writeReg v r
  | .hole => s.noteBadaddr
  | t =>
    if s.busy then s.noteBusyacc
    else if t.exists? s.params then s.writeEntry v t
    else s.noteBadaddr

end Sys2Proof.Machine
end

