-- ==== Sys2Proof/Machine/Analyzer.lean ====
section
/-! DEFINITION. The spectral analyzer: ANLZ (43_analyzer). -/

namespace Sys2Proof.Machine

/-- The window WIN_OFF, WIN_LEN lies in the bank, is not empty and is not too long (43_analyzer R186; DEMW checks the
same, 44_demodulator R201). The sum does not wrap. -/
def State.windowOk (s : State) (b : Bank) : Bool :=
  decide ((s.waveLen b).toNat ≤ s.params.waveDepth ∧ s.winLen ≠ 0 ∧ s.winLen.toNat ≤ s.params.winMax ∧
    s.winOff.toNat + s.winLen.toNat ≤ (s.waveLen b).toNat)

/-- The window of WAVE[b] that WIN_OFF and WIN_LEN name (43_analyzer R185). -/
def State.window (s : State) (b : Bank) : List Sample := s.segment b s.winOff.toNat s.winLen.toNat

/-- ANLZ up to its answer (43_analyzer R186, R190). -/
def runAnlz (num : Config.Numerics) (b : Bank) (s : State) : Result :=
  if !s.windowOk b then .error .range
  else .ok (s.storeSpectrum s.winLen.toNat (numMag num (s.window b)))

/-- ANLZ (43_analyzer R185 to R194). -/
def execAnlz (b : Bank) (s : State) : Host.Outcome State Fault Refusal := conclude s (runAnlz num b s)

end Sys2Proof.Machine
end

