-- ==== Sys2Proof/Machine/Codec.lean ====
section
/-! DEFINITION. The byte/bit codec: B2S and S2B (41_codec). -/

namespace Sys2Proof.Machine

/-- The eight symbols of a byte, bit 7 first (41_codec R151, 30_encoding R111). -/
def symbolsOfByte (b : Byte) : List Byte := (List.range 8).map fun j => symbolOf (b.getLsbD (7 - j))

/-- The byte of eight symbols, the first the most significant: the sum over j of (c_j − 0x30) · 2^(7 − j) of 41_codec
R156, summed from the left by doubling. -/
def byteOfSymbols (cs : List Byte) : Byte := cs.foldl (fun acc c => 2 * acc + (c - 0x30)) 0

/-- B2S up to its answer (41_codec R150, R151). -/
def runB2s (s : State) : Result :=
  if s.params.byteDepth < s.byteLen.toNat then .error .range
  else if s.params.symDepth < 8 * s.byteLen.toNat then .error .ovf
  else .ok (s.storeSymbols ((List.range s.byteLen.toNat).flatMap fun i => symbolsOfByte (s.byteAt i)))

/-- B2S (41_codec R150 to R152). -/
def execB2s (s : State) : Host.Outcome State Fault Refusal := conclude s (runB2s s)

/-- Chunk `i` of SYMBUF: its eight symbols (41_codec R156). -/
def State.chunk (s : State) (i : Nat) : List Byte := (List.range 8).map fun j => s.symAt (8 * i + j)

/-- S2B up to its answer (41_codec R155 to R158). The symbols after the last complete chunk are not looked at. -/
def runS2b (s : State) : Result :=
  let nb := s.symLen.toNat / 8
  if s.params.symDepth < s.symLen.toNat then .error .range
  else if !((List.range (8 * nb)).all fun i => isSymbol (s.symAt i)) then .error .badSym
  else if s.params.byteDepth < nb then .error .ovf
  else .ok (s.storeBytes ((List.range nb).map fun i => byteOfSymbols (s.chunk i)))

/-- S2B (41_codec R155 to R158). -/
def execS2b (s : State) : Host.Outcome State Fault Refusal := conclude s (runS2b s)

end Sys2Proof.Machine
end

