-- ==== Sys2Proof/Machine/Control.lean ====
section
/-! DEFINITION. The command NOP (40_command R137). -/

namespace Sys2Proof.Machine

/-- NOP: no updates (40_command R137). -/
def execNop (s : State) : Host.Outcome State Fault Refusal := conclude s (.ok s)

end Sys2Proof.Machine
end

