-- ==== Sys2Proof/Machine/Modulator.lean ====
section
/-! DEFINITION. The modulator: MOD (42_modulator). -/

namespace Sys2Proof.Machine

/-- The valid symbols of SYMBUF[0 .. SYM_LEN − 1], in order (42_modulator R167). -/
def State.validSymbols (s : State) : List Byte := ((List.range s.symLen.toNat).map s.symAt).filter isSymbol

/-- The carrier of a valid symbol (42_modulator R168). -/
def State.carrier (s : State) (c : Byte) : Nat := if c = 0x31 then s.fMark.toNat else s.fSpace.toNat

/-- Sample `n` of the symbol `c` before rounding: AMPL × NUM.sin(f·n, SRATE) (42_modulator R168). -/
def State.carrierTone (s : State) (c : Byte) (n : Nat) : Config.Tone :=
  ⟨s.ampl.toNat, s.carrier c * n, s.srate.toNat⟩

/-- The SPS samples of one symbol: scale, round, clip (42_modulator R168, R170); the phase starts at 0 (R169). -/
def State.symbolWave (num : Config.Numerics) (s : State) (c : Byte) : List Sample :=
  (List.range s.sps).map fun n => quantise num 0 [s.carrierTone c n]

/-- The carriers are set (60_exceptions R264). -/
def State.carriersSet (s : State) : Bool := decide (s.srate ≠ 0 ∧ s.fSpace ≠ 0 ∧ s.fMark ≠ 0)

/-- The symbol duration gives at least one sample (60_exceptions R264). -/
def State.durationSet (s : State) : Bool := decide (s.symdurDen ≠ 0 ∧ s.sps ≠ 0)

/-- MOD up to its answer (42_modulator R166 to R168). -/
def runMod (num : Config.Numerics) (d : Bank) (s : State) : Result :=
  let v := s.validSymbols
  let skipped := s.symLen.toNat - v.length
  if !(s.carriersSet && s.durationSet) then .error .cfg
  else if s.params.symDepth < s.symLen.toNat then .error .range
  else if s.params.waveDepth < s.sps * v.length then .error .ovf
  else .ok { s.storeWave d (v.flatMap (s.symbolWave num)) with
      invsymCnt := BitVec.ofNat 32 skipped
      flags := s.flags.noteInvsym (decide (0 < skipped)) }

/-- MOD (42_modulator R165 to R173). -/
def execMod (d : Bank) (s : State) : Host.Outcome State Fault Refusal := conclude s (runMod num d s)

end Sys2Proof.Machine
end

