-- ==== Sys2Proof/Machine/Demodulator.lean ====
section
/-! DEFINITION. The demodulator: DEMW and DEMOD (44_demodulator). -/

namespace Sys2Proof.Machine

/-- What one window gives (44_demodulator R207): its length, MAGRAW, the peak bin, the no-survivor indication and the
bit. -/
structure Window where
  len    : Nat
  mag    : List Mag
  peak   : Nat
  noband : Bool
  bit    : Bool
deriving DecidableEq, Repr

/-- Bin `k` of an N-point transform survives the band filter, both ends inclusive, in exact integers
(44_demodulator R202). -/
def State.survives (s : State) (n k : Nat) : Bool :=
  decide ((s.bandLo.toNat : Int) * n ≤ signedBin n k * s.srate.toNat ∧
    signedBin n k * s.srate.toNat ≤ (s.bandHi.toNat : Int) * n)

/-- The survivors of an N-point transform, in rising order (44_demodulator R202). -/
def State.survivors (s : State) (n : Nat) : List Nat := (List.range n).filter (s.survives n)

/-- The first of the members of a list with the largest value of `m` (44_demodulator R204). -/
def peakOf (m : Nat → Nat) : List Nat → Option Nat
  | [] => none
  | k :: ks =>
    match peakOf m ks with
    | none => some k
    | some j => if m k < m j then some j else some k

/-- The nearest-carrier decision for a peak at bin `k` of N: 0 if the peak is strictly nearer to F_SPACE, else 1
(44_demodulator R206). -/
def State.decide01 (s : State) (n k : Nat) : Bool :=
  let p : Int := (k : Int) * s.srate.toNat
  let d0 := (p - (s.fSpace.toNat : Int) * n).natAbs
  let d1 := (p - (s.fMark.toNat : Int) * n).natAbs
  !decide (d0 < d1)

/-- Classify (44_demodulator R207). -/
def State.classify (num : Config.Numerics) (s : State) (seg : List Sample) : Window :=
  let n := pow2gt seg.length
  let surv := s.survivors n
  let kp := (peakOf (fun k => (num.mag seg k).toNat) surv).getD 0
  { len := seg.length, mag := numMag num seg, peak := kp, noband := surv.isEmpty, bit := s.decide01 n kp }

/-- MAG, LOG2N, PEAK_BIN and PEAK_INFO from a window (44_demodulator R207, R213). -/
def State.storeWindow (r : Window) (s : State) : State :=
  { s.storeSpectrum r.len r.mag with
    peakBin := BitVec.ofNat 16 r.peak, peakBit := r.bit, peakNoband := r.noband }

/-- DEMW up to its answer (44_demodulator R201, R207). -/
def runDemw (num : Config.Numerics) (b : Bank) (s : State) : Result :=
  if !s.carriersSet then .error .cfg
  else if !s.windowOk b then .error .range
  else
    let r := s.classify num (s.window b)
    .ok { s.storeWindow r with
      nobandCnt := if r.noband then 1 else 0
      flags := s.flags.noteNoband r.noband }

/-- DEMW (44_demodulator R200 to R208). -/
def execDemw (b : Bank) (s : State) : Host.Outcome State Fault Refusal := conclude s (runDemw num b s)

/-- nwin = ceil(W / SPS), for SPS > 0 (44_demodulator R211). -/
def windowCount (len sps : Nat) : Nat := (len + (sps - 1)) / sps

/-- Window `w` of a bank: from w·SPS, min(SPS, W − w·SPS) samples (44_demodulator R211). -/
def State.symbolWindow (s : State) (b : Bank) (w : Nat) : List Sample :=
  s.segment b (w * s.sps) (min s.sps ((s.waveLen b).toNat - w * s.sps))

/-- Every window of a bank, classified, in window order (44_demodulator R213). -/
def State.windows (num : Config.Numerics) (s : State) (b : Bank) : List Window :=
  (List.range (windowCount (s.waveLen b).toNat s.sps)).map fun w => s.classify num (s.symbolWindow b w)

/-- The last window's values, when there is a window (44_demodulator R213). -/
def State.storeLast (r : Option Window) (s : State) : State :=
  match r with
  | none => s
  | some r => s.storeWindow r

/-- DEMOD up to its answer (44_demodulator R212, R213). The last window is short exactly when SPS does not divide W
(R214). -/
def runDemod (num : Config.Numerics) (b : Bank) (s : State) : Result :=
  let len := (s.waveLen b).toNat
  let ws := s.windows num b
  if !(s.carriersSet && s.durationSet && decide (s.sps ≤ s.params.winMax)) then .error .cfg
  else if s.params.waveDepth < len then .error .range
  else if s.params.symDepth < windowCount len s.sps then .error .ovf
  else .ok { (s.storeSymbols (ws.map fun r => symbolOf r.bit)).storeLast ws.getLast? with
      nobandCnt := BitVec.ofNat 32 (ws.countP fun r => r.noband)
      flags := (s.flags.noteNoband (ws.any fun r => r.noband)).noteShortwin
        (match ws.getLast? with
         | none => false
         | some r => decide (r.len < s.sps)) }

/-- DEMOD (44_demodulator R210 to R215). -/
def execDemod (b : Bank) (s : State) : Host.Outcome State Fault Refusal := conclude s (runDemod num b s)

end Sys2Proof.Machine
end

