-- ==== Sys2Proof/Machine/Noise.lean ====
section
/-! DEFINITION. The noise injection engine: NOISE (45_noise). -/

namespace Sys2Proof.Machine

/-- The random values of one NOISE command, drawn in the order of 45_noise R232, and the generator state reached. -/
structure NoiseDraws where
  humWord  : Word
  gauss    : List Word
  impulses : List Word
  phases   : List Word
  rng      : BitVec 64
deriving DecidableEq, Repr

/-- The draws for `len` samples at a table row: one word, `len` words, 2·IMP_N words, BAND_N words (45_noise R232). -/
def drawNoise (row : Config.NoiseRow) (len : Nat) (g : BitVec 64) : NoiseDraws :=
  let (g0, wh) := Config.rngNext g
  let (gs, g1) := drawMany len g0
  let (is, g2) := drawMany (2 * row.impN.toNat) g1
  let (ps, g3) := drawMany row.bandN.toNat g2
  { humWord := wh, gauss := gs, impulses := is, phases := ps, rng := g3 }

/-- white[i] = SIGMA · G[i] / 4096 (45_noise R233). -/
def white (row : Config.NoiseRow) (g : Int) : Rat := ((row.sigma.toNat : Int) * g : Int) / (4096 : Rat)

/-- The hum frequency, 50 or 60 hertz, by bit 0 of the first word (45_noise R234). -/
def humHertz (wh : Word) : Nat := if bitOf wh 0 then 60 else 50

/-- hum[i] = HUM · NUM.sin(fh·i, SRATE) (45_noise R234). -/
def humTone (row : Config.NoiseRow) (wh : Word) (srate i : Nat) : Config.Tone :=
  ⟨row.hum.toNat, humHertz wh * i, srate⟩

/-- One spike: ±IMP_A by bit 0 of the sign word, clipped by itself (45_noise R235). -/
def spike (row : Config.NoiseRow) (sgn : Word) : Int :=
  clip (if bitOf sgn 0 then -(row.impA.toNat : Int) else (row.impA.toNat : Int))

/-- imp[i]: the spikes whose position word is `i` modulo `len`, added up (45_noise R235, R236). The words come in pairs,
position then sign (R232). -/
def impulseAt (row : Config.NoiseRow) (len i : Nat) : List Word → Int
  | pos :: sgn :: rest =>
    (if pos.toNat % len = i then spike row sgn else 0) + impulseAt row len i rest
  | _ => 0

/-- bf[j], the frequency of tone `j` of `k` (45_noise R237). -/
def toneHertz (lo hi k j : Nat) : Nat :=
  if k = 1 then (lo + hi) / 2 else lo + j * (hi - lo) / (k - 1)

/-- band[i], as the tones to add up at sample `i`; the phase of tone `j` is the low 16 bits of its word (45_noise R232,
R237). -/
def bandTones (row : Config.NoiseRow) (lo hi srate i : Nat) (phases : List Word) : List Config.Tone :=
  phases.mapIdx fun j ph =>
    ⟨row.bandA.toNat, toneHertz lo hi row.bandN.toNat j * i * 65536 + (ph.toNat % 65536) * srate, srate * 65536⟩

/-- in[i] + white[i] + imp[i], the part of v[i] without a sine (45_noise R238). -/
def State.steadyAt (num : Config.Numerics) (s : State) (b : Bank) (row : Config.NoiseRow) (r : NoiseDraws) (i : Nat) :
    Rat :=
  ((s.waveAt b i).toInt : Rat) + white row (numGauss num (r.gauss.getD i 0)) +
    (impulseAt row (s.waveLen b).toNat i r.impulses : Rat)

/-- hum[i] + band[i], the tones of v[i] (45_noise R238). -/
def State.tonesAt (s : State) (row : Config.NoiseRow) (r : NoiseDraws) (i : Nat) : List Config.Tone :=
  humTone row r.humWord s.srate.toNat i ::
    bandTones row s.bandLo.toNat s.bandHi.toNat s.srate.toNat i r.phases

/-- The output samples at level 1 and up: one rounding of the exact sum v[i], then one clip (45_noise R238). -/
def State.noisy (num : Config.Numerics) (s : State) (b : Bank) (row : Config.NoiseRow) (r : NoiseDraws) : List Sample :=
  (List.range (s.waveLen b).toNat).map fun i => quantise num (s.steadyAt num b row r i) (s.tonesAt row r i)

/-- The table row NOISE uses (45_noise R228). -/
def State.noiseRow (s : State) : Config.NoiseRow := s.params.row s.level.toNat

/-- NOISE's configuration check (45_noise R226, 60_exceptions R264). -/
def State.noiseCfgOk (s : State) : Bool :=
  decide (s.level.toNat ≤ s.params.levelMax) &&
  (decide (s.level = 0) ||
    (decide (s.srate ≠ 0) && !(decide (1 ≤ s.noiseRow.bandN.toNat) && decide (s.bandHi < s.bandLo))))

/-- NOISE up to its answer (45_noise R226, R227, R238, R240). Every source sample is read from `s`, before the
destination is written (R241). -/
def runNoise (num : Config.Numerics) (b d : Bank) (s : State) : Result :=
  let len := (s.waveLen b).toNat
  if !s.noiseCfgOk then .error .cfg
  else if s.params.waveDepth < len then .error .range
  else if s.level = 0 then .ok (s.storeWave d (s.segment b 0 len))
  else if len = 0 then .ok (s.storeWave d [])
  else
    let r := drawNoise s.noiseRow len s.rngState
    .ok { s.storeWave d (s.noisy num b s.noiseRow r) with rngState := r.rng }

/-- NOISE (45_noise R225 to R245). -/
def execNoise (b d : Bank) (s : State) : Host.Outcome State Fault Refusal := conclude s (runNoise num b d s)

end Sys2Proof.Machine
end

