-- ==== Sys2Proof/Machine/Dispatch.lean ====
section
/-! DEFINITION. One arm per command: the completion step of that command (40_command R133). -/

namespace Sys2Proof.Machine

/-- The completion of the command `i` at the state `s` (40_command R133). -/
def exec (i : Instr) (s : State) : Host.Outcome State Fault Refusal :=
  match i with
  | .nop => Sys2Proof.Machine.execNop s
  | .b2s => Sys2Proof.Machine.execB2s s
  | .s2b => Sys2Proof.Machine.execS2b s
  | .mod d => Sys2Proof.Machine.execMod d s
  | .anlz b => Sys2Proof.Machine.execAnlz b s
  | .demw b => Sys2Proof.Machine.execDemw b s
  | .demod b => Sys2Proof.Machine.execDemod b s
  | .noise b d => Sys2Proof.Machine.execNoise b d s

end Sys2Proof.Machine
end

