-- ==== Sys2Proof/Machine/Agents.lean ====
section
/-! DEFINITION. The moves of the two agents (00_scope R8): the core's completion and the host's transactions. -/

namespace Sys2Proof.Machine

/-- The completion of the command in flight: decode CMDREG, then run it; an illegal word fails with E_ILLCMD
(40_command R133, R134; 60_exceptions R263). -/
def complete (s : State) : Host.Outcome State Fault Refusal :=
  match s.command with
  | none => conclude s (.error .illCmd)
  | some i => exec i s

/-- The core's turn: its one step is enabled exactly when BUSY = 1; an idle core keeps its state (40_command R133,
60_exceptions R283; log 14). -/
def coreMove (s : State) : Host.Outcome State Fault Refusal :=
  if s.busy then complete s else .next s

/-- One move (00_scope R8, 20_memory R82, R83). -/
def takeMove (m : Move) (s : State) : Host.Outcome State Fault Refusal :=
  match m with
  | .read a => .next { (s.hostRead a).2 with reply := some (s.hostRead a).1 }
  | .write a v => .next (s.hostWrite a v)
  | .core => coreMove s
  | .reset => .next s.resetAgain

/-- A state in which the word `w` has just been accepted (40_command R131) and the core has the next turn. -/
def State.withCommand (s : State) (w : Word) : State :=
  { s.accept w with schedule := .core :: s.schedule }

end Sys2Proof.Machine
end

