-- ==== Sys2Proof/Machine/Step.lean ====
section
/-! DEFINITION. One step of the machine: the agent whose turn it is moves. -/

namespace Sys2Proof.Machine

/-- The next move of the schedule; with nothing scheduled the core moves, so that an accepted command completes
(00_scope R8, 20_memory R82, R83, 40_command R136; log 1, log 14). -/
def step (s : State) : Host.Outcome State Fault Refusal :=
  match s.schedule with
  | [] => coreMove s
  | m :: rest => takeMove m { s with schedule := rest }

/-- `s` with the command word `w` (its low `nbits` bits, every higher bit 0) accepted and the core to move next: this
stands for the host's write of the word to CMD (log 13). -/
def State.withFetchWord (s : State) (nbits w : Nat) : State := s.withCommand (BitVec.ofNat 32 (w % 2 ^ nbits))

end Sys2Proof.Machine
end

