-- ==== Sys2Proof/Safety.lean ====
section
/-! DEFINITION. What claims about the machine are stated in: the invariant, the failure conditions of 60_exceptions read
off its tables, and the machine under any profile of NUM. -/

namespace Sys2Proof.Machine

/-- The invariants 10_state R29 states of STATUS, and 30_encoding R114 of ERRCODE. -/
abbrev State.StatusOk (s : State) : Prop :=
  (s.err = true ↔ s.errCode ≠ 0) ∧ (s.busy = true → s.fin = false ∧ s.err = false) ∧ s.errCode.toNat ≤ 5

/-- What the result registers can hold: LOG2N at most LOG2N_MAX (10_state R46), PEAK_BIN a bin of the lower half
(44_demodulator R208 (d)) and 0 with no survivor (10_state R47), each counter at most SYM_DEPTH. -/
abbrev State.ResultsOk (s : State) : Prop :=
  s.log2n.toNat ≤ s.params.log2nMax ∧ 2 * s.peakBin.toNat < 2 ^ s.params.log2nMax ∧
  (s.peakNoband = true → s.peakBin = 0) ∧ s.invsymCnt.toNat ≤ s.params.symDepth ∧
  s.nobandCnt.toNat ≤ s.params.symDepth

/-- The invariant: parameters the spec allows, buffers in canonical form and inside their depths, STATUS and the result
registers as the spec says. -/
abbrev State.Inv (s : State) : Prop :=
  s.params.Valid ∧ s.mem.wf = true ∧ s.mem.within s.params = true ∧ s.StatusOk ∧ s.ResultsOk

/-! ### Failure conditions, as the tables of 60_exceptions R264 to R267 list them -/

/-- E_CFG (60_exceptions R264). -/
abbrev cfgFails (i : Instr) (s : State) : Prop :=
  match i with
  | .nop => False
  | .b2s => False
  | .s2b => False
  | .mod _ => s.srate = 0 ∨ s.symdurDen = 0 ∨ s.sps = 0 ∨ s.fSpace = 0 ∨ s.fMark = 0
  | .anlz _ => False
  | .demw _ => s.srate = 0 ∨ s.fSpace = 0 ∨ s.fMark = 0
  | .demod _ => s.srate = 0 ∨ s.symdurDen = 0 ∨ s.sps = 0 ∨ s.params.winMax < s.sps ∨ s.fSpace = 0 ∨ s.fMark = 0
  | .noise _ _ =>
    s.params.levelMax < s.level.toNat ∨ (1 ≤ s.level.toNat ∧ s.srate = 0) ∨
    (1 ≤ s.level.toNat ∧ 1 ≤ (s.params.row s.level.toNat).bandN.toNat ∧ s.bandHi.toNat < s.bandLo.toNat)

/-- E_RANGE (60_exceptions R265). -/
abbrev rangeFails (i : Instr) (s : State) : Prop :=
  match i with
  | .nop => False
  | .b2s => s.params.byteDepth < s.byteLen.toNat
  | .s2b => s.params.symDepth < s.symLen.toNat
  | .mod _ => s.params.symDepth < s.symLen.toNat
  | .anlz b =>
    s.params.waveDepth < (s.waveLen b).toNat ∨ s.winLen = 0 ∨ s.params.winMax < s.winLen.toNat ∨
    (s.waveLen b).toNat < s.winOff.toNat + s.winLen.toNat
  | .demw b =>
    s.params.waveDepth < (s.waveLen b).toNat ∨ s.winLen = 0 ∨ s.params.winMax < s.winLen.toNat ∨
    (s.waveLen b).toNat < s.winOff.toNat + s.winLen.toNat
  | .demod b => s.params.waveDepth < (s.waveLen b).toNat
  | .noise b _ => s.params.waveDepth < (s.waveLen b).toNat

/-- E_BADSYM (60_exceptions R266). -/
abbrev badSymFails (i : Instr) (s : State) : Prop :=
  i = .s2b ∧ ∃ k, k < 8 * (s.symLen.toNat / 8) ∧ (s.symAt k ≠ 0x30 ∧ s.symAt k ≠ 0x31)

/-- E_OVF (60_exceptions R267). -/
abbrev ovfFails (i : Instr) (s : State) : Prop :=
  match i with
  | .nop => False
  | .b2s => s.params.symDepth < 8 * s.byteLen.toNat
  | .s2b => s.params.byteDepth < s.symLen.toNat / 8
  | .mod _ => s.params.waveDepth < s.sps * s.validSymbols.length
  | .anlz _ => False
  | .demw _ => False
  | .demod b => s.params.symDepth < ((s.waveLen b).toNat + (s.sps - 1)) / s.sps
  | .noise _ _ => False

/-- The first condition that holds, in the order of 60_exceptions R268, is that of `c`. -/
abbrev FailsWith (i : Instr) (s : State) : ErrCode → Prop
  | .illCmd => False
  | .cfg => cfgFails i s
  | .range => ¬cfgFails i s ∧ rangeFails i s
  | .badSym => ¬cfgFails i s ∧ ¬rangeFails i s ∧ badSymFails i s
  | .ovf => ¬cfgFails i s ∧ ¬rangeFails i s ∧ ¬badSymFails i s ∧ ovfFails i s

/-- No condition holds: the command succeeds (40_command R134). -/
abbrev Succeeds (i : Instr) (s : State) : Prop :=
  ¬cfgFails i s ∧ ¬rangeFails i s ∧ ¬badSymFails i s ∧ ¬ovfFails i s

/-! ### The machine under another profile of NUM (00_scope R6), for claims about the ideal one -/

/-- The run of each command, computed with the numerics `num`. -/
def runUnder (num : Config.Numerics) : Instr → State → Result
  | .nop, s => .ok s
  | .b2s, s => runB2s s
  | .s2b, s => runS2b s
  | .mod d, s => runMod num d s
  | .anlz b, s => runAnlz num b s
  | .demw b, s => runDemw num b s
  | .demod b, s => runDemod num b s
  | .noise b d, s => runNoise num b d s

/-- Exec on a core whose NUM is `num`; with `Machine.num` it is `exec` (`exec_eq_execUnder`). -/
def execUnder (num : Config.Numerics) (i : Instr) (s : State) : Host.Outcome State Fault Refusal :=
  conclude s (runUnder num i s)

end Sys2Proof.Machine
end

