-- ==== Sys2Proof/Certificates/Slice0/Obligations.lean ====
section
/-! DEFINITION. The statements about the WAVE core, for the provers. Each docstring names the rules it formalises.
`Succeeds i s` and `FailsWith i s c` are the condition tables of 60_exceptions R264 to R268 (Sys2Proof/Safety.lean). A
premise `s.params.SizesOk` is the constraint of 00_scope R5 on the sizes; it rules out parameters no hardware has. -/

open Sys2Proof Sys2Proof.Machine

/-! ### Reset, the invariant, and the step -/

/-- 10_state R59: the state after either reset, and which commands succeed from it. The values of RNG_STATE and of the
buffer entries are free (log 7, log 8). -/
def Obligations.ResetState : Prop :=
  ∀ t : State, (t = State.reset ∨ ∃ s : State, t = s.resetAgain) →
    (t.readReg .id = 0x57415645 ∧ t.readReg .waveDepth = BitVec.ofNat 32 t.params.waveDepth ∧
      t.readReg .symDepth = BitVec.ofNat 32 t.params.symDepth ∧
      t.readReg .byteDepth = BitVec.ofNat 32 t.params.byteDepth ∧
      t.readReg .cap = BitVec.ofNat 32 (t.params.levelMax % 256 * 256 + t.params.log2nMax % 256)) ∧
    (∀ r : Reg, r ∉ [Reg.id, .cap, .waveDepth, .symDepth, .byteDepth, .ampl, .rngLo, .rngHi] → t.readReg r = 0) ∧
    t.readReg .ampl = 32767 ∧ t.irq = false ∧
    t.rngState = Config.freeRng t.resets ∧
    (∀ k, t.byteAt k = Config.freeByteEntry t.resets k ∧ t.symAt k = Config.freeSymEntry t.resets k ∧
      t.waveAt .wave0 k = Config.freeWave0Entry t.resets k ∧ t.waveAt .wave1 k = Config.freeWave1Entry t.resets k ∧
      t.magAt k = Config.freeMagEntry t.resets k) ∧
    (∀ i : Instr, ∃ u, exec i (t.accept (encode i)) = .next u ∧
      u.statusWord = (match i with
        | .nop => 0x002
        | .b2s => 0x002
        | .s2b => 0x002
        | .mod _ => 0x206
        | .anlz _ => 0x306
        | .demw _ => 0x206
        | .demod _ => 0x206
        | .noise _ _ => 0x002))

/-- The invariant holds right after reset. -/
def Obligations.ResetMeetsInvariant : Prop := State.reset.Inv

/-- Every step of either agent keeps the invariant: allowed parameters, buffers in canonical form and inside their depths
(20_memory R86), the STATUS invariants of 10_state R29, ERRCODE 6 to 15 never produced (30_encoding R114), and what the
result registers can hold (10_state R46, R47). -/
def Obligations.StepKeepsInvariant : Prop :=
  ∀ s t : State, s.Inv → step s = .next t → t.Inv

/-- No step ends in a fault or a refusal (93_implementation_defined, part 1), and a step that completes a command leaves
BUSY = 0 and DONE = 1 (40_command R133). -/
def Obligations.EveryStepAnswers : Prop :=
  ∀ s : State, ∃ t, step s = .next t ∧
    (s.busy = true → (s.schedule = [] ∨ s.schedule.head? = some .core) → t.busy = false ∧ t.fin = true)

/-- 40_command R136: whatever moves the host has in store, a command in flight is over after at most one step more than
there are moves (by completion, or by a reset). -/
def Obligations.CommandEnds : Prop :=
  ∀ s : State, s.busy = true →
    ∃ k t, k ≤ s.schedule.length + 1 ∧ Host.Core.run Sys2Proof.core k s = .next t ∧ t.busy = false

/-- A step runs the decoded command; an illegal word fails; an idle core keeps its state; a scheduled move is taken. The
core's turn is an empty schedule (log 14) or a core move at its head; the reset input is one move (log 15). -/
def Obligations.StepRunsDecoded : Prop :=
  ∀ s : State,
    (∀ i, s.busy = true → decode s.cmd = some i → s.schedule = [] → step s = exec i s) ∧
    (∀ i rest, s.busy = true → decode s.cmd = some i → s.schedule = .core :: rest →
      step s = exec i { s with schedule := rest }) ∧
    (s.busy = true → decode s.cmd = none → s.schedule = [] →
      step s = .next { s with err := true, errCode := 1, busy := false, fin := true }) ∧
    (∀ rest, s.busy = true → decode s.cmd = none → s.schedule = .core :: rest →
      step s = .next { s with err := true, errCode := 1, busy := false, fin := true, schedule := rest }) ∧
    (s.busy = false → s.schedule = [] → step s = .next s) ∧
    (∀ rest, s.busy = false → s.schedule = .core :: rest → step s = .next { s with schedule := rest }) ∧
    (∀ a rest, s.schedule = .read a :: rest →
      step s = .next { (State.hostRead { s with schedule := rest } a).2 with
        reply := some (State.hostRead { s with schedule := rest } a).1 }) ∧
    (∀ a v rest, s.schedule = .write a v :: rest →
      step s = .next (State.hostWrite { s with schedule := rest } a v)) ∧
    (∀ rest, s.schedule = .reset :: rest → step s = .next (State.resetAgain { s with schedule := rest }))

/-- 10_state R58, R24 to R26: no step changes a parameter, so ID, CAP and the depth registers always read the same. -/
def Obligations.ConstantsNeverChange : Prop :=
  ∀ s t : State, step s = .next t →
    t.params = s.params ∧ ∀ r ∈ [Reg.id, .cap, .waveDepth, .symDepth, .byteDepth], t.readReg r = s.readReg r

/-! ### Encoding -/

/-- 30_encoding R103, R104: the decoder reads a command from a word exactly when the word is that command's encoding. -/
def Obligations.DecodeEncodeAgree : Prop :=
  ∀ (w : Word) (i : Instr), decode w = some i ↔ encode i = w

/-- 30_encoding R105: which words are illegal, how many are legal, and that an illegal word is accepted like any other and
completes with E_ILLCMD and no other effect. -/
def Obligations.IllegalWords : Prop :=
  (∀ w : Word, decode w = none ↔
    8 ≤ (w.extractLsb' 0 8).toNat ∨ w.extractLsb' 10 22 ≠ 0 ∨
    (w.getLsbD 8 = true ∧ (w.extractLsb' 0 8).toNat ∈ [0, 1, 2, 3]) ∨
    (w.getLsbD 9 = true ∧ (w.extractLsb' 0 8).toNat ∈ [0, 1, 2, 4, 5, 6])) ∧
  (∃ legal : List Word, legal.Nodup ∧ legal.length = 15 ∧ (∀ w : Word, decode w ≠ none ↔ w ∈ legal) ∧
    ∀ i : Instr, (legal.filter fun w => decode w == some i).length = 1) ∧
  (∀ (s : State) (w : Word), s.busy = false → s.schedule = [] → decode w = none →
    (s.hostWrite (busAddr 0x018) w).busy = true ∧
    step (s.hostWrite (busAddr 0x018) w) =
      .next { s with cmd := w, busy := false, fin := true, err := true, errCode := 1 })

/-- Words written out from 30_encoding R104 decode to the commands they stand for, and illegal ones to none. -/
def Obligations.DecodedWords : Prop :=
  decode 0b00000000000000000000000000000000#32 = some .nop ∧
  decode 0b00000000000000000000000000000001#32 = some .b2s ∧
  decode 0b00000000000000000000000000000010#32 = some .s2b ∧
  decode 0b00000000000000000000001000000011#32 = some (.mod .wave1) ∧
  decode 0b00000000000000000000000100000100#32 = some (.anlz .wave1) ∧
  decode 0b00000000000000000000000000000101#32 = some (.demw .wave0) ∧
  decode 0b00000000000000000000000100000110#32 = some (.demod .wave1) ∧
  decode 0b00000000000000000000001000000111#32 = some (.noise .wave0 .wave1) ∧
  decode 0b00000000000000000000000100000111#32 = some (.noise .wave1 .wave0) ∧
  decode 0b00000000000000000000000000001000#32 = none ∧
  decode 0b00000000000000000000000100000011#32 = none ∧
  decode 0b10000000000000000000000000000000#32 = none

/-! ### The life of a command -/

/-- 40_command R131: acceptance latches the word, raises BUSY, clears DONE, ERR and ERRCODE, and changes nothing else; irq
falls. -/
def Obligations.Acceptance : Prop :=
  ∀ (s : State) (w : Word), s.busy = false →
    s.hostWrite (busAddr 0x018) w = { s with cmd := w, busy := true, fin := false, err := false, errCode := 0 } ∧
    (s.hostWrite (busAddr 0x018) w).irq = false

/-- 40_command R132: a command issued while the core is busy is dropped and sets FLAGS.BUSYACC. -/
def Obligations.IssueWhileBusy : Prop :=
  ∀ (s : State) (w : Word), s.busy = true →
    s.hostWrite (busAddr 0x018) w = { s with flags := { s.flags with busyacc := true } }

/-- 60_exceptions R262 to R268: an illegal word fails with E_ILLCMD before anything else is looked at; a command whose first
condition that holds is that of E_x writes the four STATUS fields with E_x's code and changes nothing else; when no
condition holds it succeeds. -/
def Obligations.FailureTables : Prop :=
  (∀ s : State, decode s.cmd = none →
    complete s = .next { s with err := true, errCode := 1, busy := false, fin := true }) ∧
  ∀ (i : Instr) (s : State),
    (decode s.cmd = some i → complete s = exec i s) ∧
    (FailsWith i s .cfg → exec i s = .next { s with err := true, errCode := 2, busy := false, fin := true }) ∧
    (FailsWith i s .range → exec i s = .next { s with err := true, errCode := 3, busy := false, fin := true }) ∧
    (FailsWith i s .badSym → exec i s = .next { s with err := true, errCode := 4, busy := false, fin := true }) ∧
    (FailsWith i s .ovf → exec i s = .next { s with err := true, errCode := 5, busy := false, fin := true }) ∧
    (Succeeds i s → ∃ t, exec i s = .next t ∧
      t.err = s.err ∧ t.errCode = 0 ∧ t.busy = false ∧ t.fin = true)

/-- 40_command R135, all or nothing: when the command in flight fails, legal or not, STATUS is all that changes. -/
def Obligations.AllOrNothing : Prop :=
  ∀ s t : State, s.err = false → complete s = .next t → t.err = true →
    t = { s with err := true, errCode := t.errCode, busy := false, fin := true } ∧ t.errCode ≠ 0

/-- 20_memory R83: any host transaction but a soft reset, taken while a command is in flight, leaves everything that
command writes as it would have been: completing after the transaction (`u'`) gives what completing before it gives
(`u`), but for the interrupt enables, the flags, and the model's record of reads. The flags the command sets are those it
sets on a core with no flag set (`v`), and it sets them on top of the flags as they stand at its completion; so a W1C
write ordered before a completion that sets the same flag leaves the flag set. -/
def Obligations.ResultFixedAtAcceptance : Prop :=
  ∀ (s t u : State) (m : Move), s.StatusOk → s.busy = true →
    ((∃ a, m = .read a) ∨ ∃ a v, m = .write a v ∧ ¬(a = busAddr 0x014 ∧ v.getLsbD 0 = true)) →
    takeMove m s = .next t → complete s = .next u →
    ∃ u' v : State, complete t = .next u' ∧
      complete { s with flags := ⟨false, false, false, false, false⟩ } = .next v ∧
      u' = { u with ieDone := t.ieDone, ieErr := t.ieErr, flags := u'.flags, reply := t.reply, draws := t.draws } ∧
      u.flags = { s.flags with
        invsym := s.flags.invsym || v.flags.invsym
        shortwin := s.flags.shortwin || v.flags.shortwin
        noband := s.flags.noband || v.flags.noband } ∧
      u'.flags = { t.flags with
        invsym := t.flags.invsym || v.flags.invsym
        shortwin := t.flags.shortwin || v.flags.shortwin
        noband := t.flags.noband || v.flags.noband }

/-- 10_state R60, 60_exceptions R274: in every state, busy or idle, irq is up exactly when bit 1 of the words read at CTRL and
STATUS are both 1 (IE_DONE, DONE), or bit 2 of both are (IE_ERR, ERR). 40_command R133: after a completion irq is up exactly when IE_DONE is set, or IE_ERR is set and the
command failed (from a state in which ERR is clear, as it is while a command is in flight). -/
def Obligations.InterruptAfterCompletion : Prop :=
  (∀ s : State,
    let ctrl := (s.hostRead (busAddr 0x014)).1
    let status := (s.hostRead (busAddr 0x01C)).1
    s.irq = ((ctrl.getLsbD 1 && status.getLsbD 1) || (ctrl.getLsbD 2 && status.getLsbD 2))) ∧
  ∀ (s t : State), s.err = false → complete s = .next t →
    t.irq = (s.ieDone || (s.ieErr && decide (t.errCode ≠ 0)))

/-- 60_exceptions R275: what lowers irq. 10_state R29, 20_memory R74: all that a write to STATUS does, busy or idle. -/
def Obligations.InterruptCleared : Prop :=
  ∀ (s : State) (v : Word),
    (v.getLsbD 1 = true → v.getLsbD 2 = true → (s.hostWrite (busAddr 0x01C) v).irq = false) ∧
    (s.busy = false → (s.hostWrite (busAddr 0x018) v).irq = false) ∧
    (v.getLsbD 1 = false → v.getLsbD 2 = false → (s.hostWrite (busAddr 0x014) v).irq = false) ∧
    s.resetAgain.irq = false ∧
    (v.getLsbD 2 = true → (s.hostWrite (busAddr 0x01C) v).err = false ∧
      (s.hostWrite (busAddr 0x01C) v).errCode = 0) ∧
    (v.getLsbD 2 = false → (s.hostWrite (busAddr 0x01C) v).err = s.err ∧
      (s.hostWrite (busAddr 0x01C) v).errCode = s.errCode) ∧
    (s.hostWrite (busAddr 0x01C) v).fin = (s.fin && !v.getLsbD 1) ∧
    s.hostWrite (busAddr 0x01C) v = { s with
      fin := s.fin && !v.getLsbD 1
      err := s.err && !v.getLsbD 2
      errCode := if v.getLsbD 2 then 0 else s.errCode }

/-! ### The host's transactions -/

/-- 20_memory R78: what the host can do while the core is busy; and that a register read, busy or idle, returns the
register and has no effect (20_memory R73). The word of a refused read is free, and the count of refused reads is the
model's (log 9, log 10); that a busy write to a read-only register counts among the refused ones is log 20. -/
def Obligations.BusyAccesses : Prop :=
  ∀ (s : State) (a : BusAddr) (v : Word),
    (byteAddr a < 0x80 → ∃ r, target a = .reg r ∧ s.hostRead a = (s.readReg r, s)) ∧
    (s.busy = true →
    (a = busAddr 0x014 → s.hostWrite a v = s.writeCtrl v) ∧
    (a = busAddr 0x01C → s.hostWrite a v = s.ackStatus v) ∧
    (a = busAddr 0x020 → s.hostWrite a v = { s with flags := s.flags.ack v }) ∧
    (byteAddr a < 0x80 → a ≠ busAddr 0x014 → a ≠ busAddr 0x01C → a ≠ busAddr 0x020 →
      s.hostWrite a v = { s with flags := { s.flags with busyacc := true } }) ∧
    (0x100000 ≤ byteAddr a →
      s.hostWrite a v = { s with flags := { s.flags with busyacc := true } } ∧
      s.hostRead a = (Config.freeBusWord s.draws,
        { s with flags := { s.flags with busyacc := true }, draws := s.draws + 1 })) ∧
    (s.StatusOk → s.readReg .status = 1))

/-- 20_memory R79: reserved addresses. With n the byte address, an aperture address is reserved when its entry index is at
or above the buffer's depth; while the core is busy R78 goes first for the apertures. That an idle write past MAG's depth
sets BADADDR, though R81 says of a write to MAG that it sets no flag, is log 20. -/
def Obligations.ReservedAddresses : Prop :=
  ∀ (s : State) (a : BusAddr) (v : Word),
    let n := byteAddr a
    let beyond :=
      (0x100000 ≤ n ∧ n < 0x200000 ∧ 2 ^ s.params.log2nMax ≤ (n - 0x100000) / 8) ∨
      (0x200000 ≤ n ∧ n < 0x400000 ∧ s.params.byteDepth ≤ (n - 0x200000) / 4) ∨
      (0x400000 ≤ n ∧ n < 0x800000 ∧ s.params.symDepth ≤ (n - 0x400000) / 4) ∨
      (0x800000 ≤ n ∧ n < 0xC00000 ∧ s.params.waveDepth ≤ (n - 0x800000) / 4) ∨
      (0xC00000 ≤ n ∧ s.params.waveDepth ≤ (n - 0xC00000) / 4)
    (((0x80 ≤ n ∧ n < 0x100000) ∨ (s.busy = false ∧ beyond)) →
      s.hostRead a = (0, { s with flags := { s.flags with badaddr := true } }) ∧
      s.hostWrite a v = { s with flags := { s.flags with badaddr := true } }) ∧
    (s.busy = true → beyond →
      (s.hostRead a).2.flags = { s.flags with busyacc := true } ∧
      (s.hostWrite a v).flags = { s.flags with busyacc := true })

/-- 10_state R22, R23, R31, R38, R40: an operand register of an idle core, at its offset, reads back the low bits of what was
written, and no other register (but the derived SPS), no buffer, no parameter and nothing of the model's own changes. -/
def Obligations.OperandReadBack : Prop :=
  ∀ (s : State) (r : Reg) (offset : Nat) (v : Word), s.busy = false →
    (r, offset) ∈ [(Reg.srate, 0x024), (.symdurNum, 0x028), (.symdurDen, 0x02C), (.fSpace, 0x030), (.fMark, 0x034),
      (.ampl, 0x038), (.bandLo, 0x03C), (.bandHi, 0x040), (.level, 0x044), (.rngLo, 0x048), (.rngHi, 0x04C),
      (.winOff, 0x050), (.winLen, 0x054), (.byteLen, 0x058), (.symLen, 0x05C), (.waveLen0, 0x060),
      (.waveLen1, 0x064)] →
    let t := s.hostWrite (busAddr offset) v
    t.hostRead (busAddr offset) = (v &&& (match r with | .ampl => 0xFFFF | .level => 0xFF | _ => 0xFFFFFFFF), t) ∧
    t.readReg r = v &&& (match r with | .ampl => 0xFFFF | .level => 0xFF | _ => 0xFFFFFFFF) ∧
    (∀ r' : Reg, r' ≠ r → r' ≠ .sps → t.readReg r' = s.readReg r') ∧
    t.mem = s.mem ∧ t.busy = false ∧ t.schedule = s.schedule ∧ t.params = s.params ∧ t.resets = s.resets ∧
    t.reply = s.reply ∧ t.draws = s.draws

/-- 10_state R22, R23: a write to a read-only register of an idle core, at its offset, has no effect and sets no flag; and a
read of any of the 32 registers, at its offset, returns that register. -/
def Obligations.ReadOnlyIgnored : Prop :=
  (∀ (s : State) (offset : Nat) (v : Word), s.busy = false →
    offset ∈ [0x000, 0x004, 0x008, 0x00C, 0x010, 0x068, 0x06C, 0x070, 0x074, 0x078, 0x07C] →
    s.hostWrite (busAddr offset) v = s) ∧
  ∀ (s : State) (r : Reg) (offset : Nat),
    (r, offset) ∈ [(Reg.id, 0x000), (.cap, 0x004), (.waveDepth, 0x008), (.symDepth, 0x00C), (.byteDepth, 0x010),
      (.ctrl, 0x014), (.cmd, 0x018), (.status, 0x01C), (.flags, 0x020), (.srate, 0x024), (.symdurNum, 0x028),
      (.symdurDen, 0x02C), (.fSpace, 0x030), (.fMark, 0x034), (.ampl, 0x038), (.bandLo, 0x03C), (.bandHi, 0x040),
      (.level, 0x044), (.rngLo, 0x048), (.rngHi, 0x04C), (.winOff, 0x050), (.winLen, 0x054), (.byteLen, 0x058),
      (.symLen, 0x05C), (.waveLen0, 0x060), (.waveLen1, 0x064), (.log2n, 0x068), (.peakBin, 0x06C),
      (.peakInfo, 0x070), (.invsymCnt, 0x074), (.nobandCnt, 0x078), (.sps, 0x07C)] →
    regAddr r = busAddr offset ∧ s.hostRead (busAddr offset) = (s.readReg r, s)

/-- 20_memory R77: an entry of BYTEBUF, SYMBUF or a bank written by the host of an idle core reads back, extended as the
rule says, and nothing else changes. 20_memory R73, R80: on an idle core any read of an entry below the depth, whoever
wrote it or nobody, returns the entry's value, extended as R77 says, and has no effect. The value of an entry not
written since reset is free (log 7). -/
def Obligations.EntryReadBack : Prop :=
  ∀ (s : State) (i : Nat) (v : Word), s.params.SizesOk → s.busy = false →
    (i < s.params.byteDepth → s.hostRead (busAddr (0x200000 + 4 * i)) = ((s.byteAt i).setWidth 32, s)) ∧
    (i < s.params.symDepth → s.hostRead (busAddr (0x400000 + 4 * i)) = ((s.symAt i).setWidth 32, s)) ∧
    (i < s.params.waveDepth →
      s.hostRead (busAddr (0x800000 + 4 * i)) = ((s.waveAt .wave0 i).signExtend 32, s) ∧
      s.hostRead (busAddr (0xC00000 + 4 * i)) = ((s.waveAt .wave1 i).signExtend 32, s)) ∧
    (s.mem.byteBuf.find i = none → s.byteAt i = Config.freeByteEntry s.resets i) ∧
    (s.mem.symBuf.find i = none → s.symAt i = Config.freeSymEntry s.resets i) ∧
    (s.mem.wave0.find i = none → s.waveAt .wave0 i = Config.freeWave0Entry s.resets i) ∧
    (s.mem.wave1.find i = none → s.waveAt .wave1 i = Config.freeWave1Entry s.resets i) ∧
    (i < s.params.byteDepth →
      let t := s.hostWrite (busAddr (0x200000 + 4 * i)) v
      t.hostRead (busAddr (0x200000 + 4 * i)) = (v &&& 0xFF, t) ∧ t.byteAt i = v.setWidth 8 ∧
      (∀ k, k ≠ i → t.byteAt k = s.byteAt k) ∧ t = { s with mem := { s.mem with byteBuf := t.mem.byteBuf } }) ∧
    (i < s.params.symDepth →
      let t := s.hostWrite (busAddr (0x400000 + 4 * i)) v
      t.hostRead (busAddr (0x400000 + 4 * i)) = (v &&& 0xFF, t) ∧ t.symAt i = v.setWidth 8 ∧
      (∀ k, k ≠ i → t.symAt k = s.symAt k) ∧ t = { s with mem := { s.mem with symBuf := t.mem.symBuf } }) ∧
    (i < s.params.waveDepth →
      let t := s.hostWrite (busAddr (0x800000 + 4 * i)) v
      t.hostRead (busAddr (0x800000 + 4 * i)) = ((v.setWidth 16).signExtend 32, t) ∧
      t.waveAt .wave0 i = v.setWidth 16 ∧
      (∀ k, k ≠ i → t.waveAt .wave0 k = s.waveAt .wave0 k) ∧
      t = { s with mem := { s.mem with wave0 := t.mem.wave0 } }) ∧
    (i < s.params.waveDepth →
      let t := s.hostWrite (busAddr (0xC00000 + 4 * i)) v
      t.hostRead (busAddr (0xC00000 + 4 * i)) = ((v.setWidth 16).signExtend 32, t) ∧
      t.waveAt .wave1 i = v.setWidth 16 ∧
      (∀ k, k ≠ i → t.waveAt .wave1 k = s.waveAt .wave1 k) ∧
      t = { s with mem := { s.mem with wave1 := t.mem.wave1 } })

/-- 20_memory R81: the two words of a MAG entry, and that MAG is read-only to the host. -/
def Obligations.MagAperture : Prop :=
  ∀ (s : State) (k : Nat) (v : Word), s.params.SizesOk → s.busy = false → k < 2 ^ s.params.log2nMax →
    s.hostRead (busAddr (0x100000 + 8 * k)) = ((s.magAt k).extractLsb' 0 32, s) ∧
    s.hostRead (busAddr (0x100004 + 8 * k)) = ((s.magAt k).extractLsb' 32 32, s) ∧
    s.hostWrite (busAddr (0x100000 + 8 * k)) v = s ∧ s.hostWrite (busAddr (0x100004 + 8 * k)) v = s

/-- 20_memory R73: a read changes nothing but two flags (and the model's count of refused reads), and a read of an idle core
repeated gives the same word. 10_state R28 to R30, R46 to R49: in every state, busy or idle, the words of the command,
status and result registers, field by field, and that reading them has no effect. -/
def Obligations.ReadsChangeOnlyFlags : Prop :=
  ∀ (s : State) (a : BusAddr),
    (∃ b c : Bool, (s.hostRead a).2 =
      { s with flags := { s.flags with busyacc := s.flags.busyacc || b, badaddr := s.flags.badaddr || c },
               draws := (s.hostRead a).2.draws }) ∧
    (s.busy = false → (s.hostRead a).2.draws = s.draws ∧
      ((s.hostRead a).2.hostRead a).1 = (s.hostRead a).1) ∧
    s.hostRead (busAddr 0x018) = (s.cmd, s) ∧
    (∃ w, s.hostRead (busAddr 0x01C) = (w, s) ∧ w.toNat =
      s.busy.toNat + 2 * s.fin.toNat + 4 * s.err.toNat + 256 * s.errCode.toNat) ∧
    (∃ w, s.hostRead (busAddr 0x020) = (w, s) ∧ w.toNat = s.flags.invsym.toNat + 2 * s.flags.shortwin.toNat +
      4 * s.flags.noband.toNat + 8 * s.flags.busyacc.toNat + 16 * s.flags.badaddr.toNat) ∧
    (∃ w, s.hostRead (busAddr 0x068) = (w, s) ∧ w.toNat = s.log2n.toNat) ∧
    (∃ w, s.hostRead (busAddr 0x06C) = (w, s) ∧ w.toNat = s.peakBin.toNat) ∧
    (∃ w, s.hostRead (busAddr 0x070) = (w, s) ∧ w.toNat = s.peakBit.toNat + 2 * s.peakNoband.toNat) ∧
    s.hostRead (busAddr 0x074) = (s.invsymCnt, s) ∧ s.hostRead (busAddr 0x078) = (s.nobandCnt, s)

/-- 10_state R30: FLAGS is written by ones to clear, bit by bit, and only by them; busy or not. -/
def Obligations.FlagsAcknowledged : Prop :=
  ∀ (s : State) (v : Word),
    (s.hostWrite (busAddr 0x020) v).readReg .flags = s.readReg .flags &&& ~~~v ∧
    s.hostWrite (busAddr 0x020) v = { s with flags := (s.hostWrite (busAddr 0x020) v).flags }

/-- 70_reset R291, 40_command R142: a write to CTRL with bit 0 set does what the reset input does, busy or not, whatever its
other bits: every register at its reset value, no command in flight, buffers and RNG_STATE free anew (log 7, log 8); the
parameters (log 3) and the model's own schedule, reply and counts (log 1, log 2, log 10) are kept, and the reset input is
one move (log 15). With bit 0 clear it stores the two enables and does nothing else (10_state R27). -/
def Obligations.SoftReset : Prop :=
  ∀ (s : State) (v : Word),
    (v.getLsbD 0 = true →
      s.hostWrite (busAddr 0x014) v =
        { State.reset with
          params := s.params, schedule := s.schedule, reply := s.reply, draws := s.draws, resets := s.resets + 1,
          rngState := Config.freeRng (s.resets + 1) } ∧
      takeMove .reset s = .next (s.hostWrite (busAddr 0x014) v) ∧
      (s.hostWrite (busAddr 0x014) v).readReg .ctrl = 0) ∧
    (v.getLsbD 0 = false →
      s.hostWrite (busAddr 0x014) v = { s with ieDone := v.getLsbD 1, ieErr := v.getLsbD 2 } ∧
      (s.hostWrite (busAddr 0x014) v).readReg .ctrl = v &&& 6)

/-- 10_state R56: what SPS reads, with no effect. -/
def Obligations.SpsRegister : Prop :=
  ∀ s : State,
    (s.symdurDen = 0 → s.hostRead (busAddr 0x07C) = (0, s)) ∧
    (s.symdurDen ≠ 0 → s.srate.toNat * s.symdurNum.toNat / s.symdurDen.toNat < 2 ^ 32 →
      ∃ w : Word, s.hostRead (busAddr 0x07C) = (w, s) ∧
        w.toNat = s.srate.toNat * s.symdurNum.toNat / s.symdurDen.toNat) ∧
    (s.symdurDen ≠ 0 → 2 ^ 32 ≤ s.srate.toNat * s.symdurNum.toNat / s.symdurDen.toNat →
      s.hostRead (busAddr 0x07C) = (0xFFFFFFFF, s))

/-! ### NOP and the codec -/

/-- 40_command R137: NOP completes and changes nothing but STATUS; issued, it clears DONE and ERR and then sets DONE, which
raises irq when IE_DONE is set. -/
def Obligations.NopResult : Prop :=
  decode 0x00000000 = some .nop ∧
  (∀ s : State, exec .nop s = .next { s with errCode := 0, busy := false, fin := true }) ∧
  (∀ s : State, s.busy = false → s.schedule = [] →
    step (s.hostWrite (busAddr 0x018) 0) =
      .next { s with cmd := 0, busy := false, fin := true, err := false, errCode := 0 } ∧
    (s.ieDone = true → State.irq { s with cmd := 0, busy := false, fin := true, err := false, errCode := 0 } = true))

/-- 41_codec R151: B2S, with its frame. -/
def Obligations.B2sResult : Prop :=
  ∀ s : State, s.params.SizesOk → Succeeds .b2s s →
    ∃ t, exec .b2s s = .next t ∧
      (∀ i j, i < s.byteLen.toNat → j < 8 →
        t.symAt (8 * i + j) = 0x30 + (if (s.byteAt i).getLsbD (7 - j) then 1 else 0)) ∧
      t.symLen.toNat = 8 * s.byteLen.toNat ∧
      (∀ k, 8 * s.byteLen.toNat ≤ k → t.symAt k = s.symAt k) ∧
      t = { s with mem := { s.mem with symBuf := t.mem.symBuf }, symLen := t.symLen,
                   errCode := 0, busy := false, fin := true }

/-- 41_codec R156, R157: S2B, with its frame. -/
def Obligations.S2bResult : Prop :=
  ∀ s : State, Succeeds .s2b s →
    ∃ t, exec .s2b s = .next t ∧
      (∀ i, i < s.symLen.toNat / 8 →
        (t.byteAt i).toNat = ∑ j ∈ Finset.range 8, ((s.symAt (8 * i + j)).toNat - 0x30) * 2 ^ (7 - j)) ∧
      t.byteLen.toNat = s.symLen.toNat / 8 ∧
      (∀ k, s.symLen.toNat / 8 ≤ k → t.byteAt k = s.byteAt k) ∧
      t = { s with mem := { s.mem with byteBuf := t.mem.byteBuf }, byteLen := t.byteLen,
                   errCode := 0, busy := false, fin := true }

/-- 41_codec R159 (a): B2S followed by S2B restores the bytes and their count. -/
def Obligations.CodecRoundTrip : Prop :=
  ∀ s : State, s.params.SizesOk → Succeeds .b2s s →
    ∃ t u, exec .b2s s = .next t ∧ exec .s2b (t.accept (encode .s2b)) = .next u ∧ u.err = false ∧
      u.byteLen = s.byteLen ∧ ∀ k, u.byteAt k = s.byteAt k

/-! ### The modulator -/

/-- 42_modulator R168, R170 to R172: MOD, with its frame. `num` is the hardware's NUM, of which only 00_scope R6 is known
(log 4); `m` is the rne of the exact real product. -/
def Obligations.ModResult : Prop :=
  ∀ (d : Bank) (s : State), s.params.SizesOk → Succeeds (.mod d) s →
    let v := ((List.range s.symLen.toNat).map s.symAt).filter fun c => c == 0x30 || c == 0x31
    ∃ t, exec (.mod d) s = .next t ∧
      (∀ j n c, v[j]? = some c → n < s.sps →
        ∃ m : ℤ, Config.IsRne ((s.ampl.toNat : ℝ) *
            num.sin ((if c = 0x31 then s.fMark.toNat else s.fSpace.toNat) * n) s.srate.toNat) m ∧
          (t.waveAt d (j * s.sps + n)).toInt = clip m) ∧
      (t.waveLen d).toNat = s.sps * v.length ∧
      t.invsymCnt.toNat = s.symLen.toNat - v.length ∧
      t.flags = { s.flags with invsym := s.flags.invsym || decide (0 < s.symLen.toNat - v.length) } ∧
      (∀ k, s.sps * v.length ≤ k → t.waveAt d k = s.waveAt d k) ∧
      (∀ b, b ≠ d → t.waveLen b = s.waveLen b ∧ ∀ k, t.waveAt b k = s.waveAt b k) ∧
      t = { s with mem := { s.mem with wave0 := t.mem.wave0, wave1 := t.mem.wave1 },
                   waveLen0 := t.waveLen0, waveLen1 := t.waveLen1, invsymCnt := t.invsymCnt, flags := t.flags,
                   errCode := 0, busy := false, fin := true }

/-- 42_modulator R169: sample n of a symbol depends on n, the symbol's value and the registers alone, not on where the symbol
stands or on any other symbol; so equal symbols give equal samples, in one MOD or in two. -/
def Obligations.PhaseRestarts : Prop :=
  ∀ (d d' : Bank) (s s' : State) (j j' n : Nat) (c : Byte), Succeeds (.mod d) s → Succeeds (.mod d') s' →
    s.srate = s'.srate → s.symdurNum = s'.symdurNum → s.symdurDen = s'.symdurDen → s.fSpace = s'.fSpace →
    s.fMark = s'.fMark → s.ampl = s'.ampl →
    s.validSymbols[j]? = some c → s'.validSymbols[j']? = some c → n < s.sps →
    ∃ t t', exec (.mod d) s = .next t ∧ exec (.mod d') s' = .next t' ∧
      t.waveAt d (j * s.sps + n) = t'.waveAt d' (j' * s.sps + n)

/-- 42_modulator R174: sample n of a symbol, whatever the hardware's NUM: AMPL × NUM.sin is within AMPL × EPS_SIN, less than
1/4, of y* = AMPL × sin(2π·f·n/SRATE); the sample MOD writes is within 1 of clip(rne(y*)), the sample of the ideal
profile, and is that sample when y* is farther than AMPL × EPS_SIN from every half-integer. -/
def Obligations.ModTolerance : Prop :=
  ∀ (d : Bank) (s : State) (j n : Nat) (c : Byte) (m : ℤ), Succeeds (.mod d) s → s.validSymbols[j]? = some c → n < s.sps →
    let f : Nat := if c = 0x31 then s.fMark.toNat else s.fSpace.toNat
    let yStar : ℝ := s.ampl.toNat * Real.sin (2 * Real.pi * f * n / s.srate.toNat)
    Config.IsRne yStar m →
    |(s.ampl.toNat : ℝ) * num.sin (f * n) s.srate.toNat - yStar| ≤ s.ampl.toNat * (num.epsSin : ℝ) ∧
    (s.ampl.toNat : ℝ) * (num.epsSin : ℝ) < 1 / 4 ∧
    ∃ t, exec (.mod d) s = .next t ∧
      |(t.waveAt d (j * s.sps + n)).toInt - clip m| ≤ 1 ∧
      ((∀ k : ℤ, (s.ampl.toNat : ℝ) * (num.epsSin : ℝ) < |yStar - (k + 1 / 2)|) →
        (t.waveAt d (j * s.sps + n)).toInt = clip m)

/-- 30_encoding R110: what MOD and NOISE at LEVEL ≥ 1 write lies in [−32767, 32767]. -/
def Obligations.SamplesClipped : Prop :=
  ∀ (s t : State) (b d : Bank) (i : Nat),
    (Succeeds (.mod d) s → exec (.mod d) s = .next t → i < s.sps * s.validSymbols.length →
      -32767 ≤ (t.waveAt d i).toInt ∧ (t.waveAt d i).toInt ≤ 32767) ∧
    (Succeeds (.noise b d) s → s.level ≠ 0 → exec (.noise b d) s = .next t → i < (s.waveLen b).toNat →
      -32767 ≤ (t.waveAt d i).toInt ∧ (t.waveAt d i).toInt ≤ 32767)

/-! ### The analyzer and the demodulator -/

/-- 43_analyzer R190: ANLZ, with its frame. `num` is the hardware's NUM (log 4). -/
def Obligations.AnlzResult : Prop :=
  ∀ (b : Bank) (s : State), s.params.SizesOk → Succeeds (.anlz b) s →
    let seg := (List.range s.winLen.toNat).map fun n => s.waveAt b (s.winOff.toNat + n)
    ∃ t, exec (.anlz b) s = .next t ∧
      (∀ k, k < pow2gt s.winLen.toNat → t.magAt k = num.mag seg k) ∧
      2 ^ t.log2n.toNat = pow2gt s.winLen.toNat ∧
      (∀ k, pow2gt s.winLen.toNat ≤ k → t.magAt k = s.magAt k) ∧
      t = { s with mem := { s.mem with mag := t.mem.mag }, log2n := t.log2n,
                   errCode := 0, busy := false, fin := true }

/-- 43_analyzer R188: the transform size is the least power of two strictly above the window's length, and at most twice
it. -/
def Obligations.TransformSize : Prop :=
  ∀ (b : Bank) (s : State), s.params.SizesOk → Succeeds (.anlz b) s →
    ∃ t, exec (.anlz b) s = .next t ∧
      s.winLen.toNat < 2 ^ t.log2n.toNat ∧ 2 ^ t.log2n.toNat ≤ 2 * s.winLen.toNat ∧
      ∀ m, s.winLen.toNat < 2 ^ m → t.log2n.toNat ≤ m

/-- 43_analyzer R193: what ANLZ writes depends on the window's samples alone: not on where the window stands, on the bank,
or on anything else in the state. -/
def Obligations.AnalyzerPure : Prop :=
  ∀ (b b' : Bank) (s s' : State), Succeeds (.anlz b) s → Succeeds (.anlz b') s' → s.winLen = s'.winLen →
    (∀ n, n < s.winLen.toNat → s.waveAt b (s.winOff.toNat + n) = s'.waveAt b' (s'.winOff.toNat + n)) →
    ∃ t t', exec (.anlz b) s = .next t ∧ exec (.anlz b') s' = .next t' ∧ t.log2n = t'.log2n ∧
      ∀ k, k < pow2gt s.winLen.toNat → t.magAt k = t'.magAt k

/-- 44_demodulator R203: survivors lie in the lower half of the bins; bin 0 survives exactly when BAND_LO = 0; with
BAND_LO > BAND_HI nothing survives. -/
def Obligations.SurvivorsLowerHalf : Prop :=
  ∀ (s : State) (len k : Nat), s.srate ≠ 0 → 1 ≤ len → k < pow2gt len →
    (s.survives (pow2gt len) k = true → k < pow2gt len / 2) ∧
    (s.survives (pow2gt len) 0 = true ↔ s.bandLo = 0) ∧
    (s.bandHi.toNat < s.bandLo.toNat → s.survives (pow2gt len) k = false)

/-- 44_demodulator R207, with R202, R204 to R206: DEMW, with its frame. `surv k` says that bin k survives. -/
def Obligations.DemwResult : Prop :=
  ∀ (b : Bank) (s : State), s.params.SizesOk → Succeeds (.demw b) s →
    let seg := (List.range s.winLen.toNat).map fun n => s.waveAt b (s.winOff.toNat + n)
    let n := pow2gt s.winLen.toNat
    let signed : Nat → Int := fun k => if k < n / 2 then (k : Int) else (k : Int) - n
    let surv : Nat → Prop := fun k =>
      k < n ∧ (s.bandLo.toNat : Int) * n ≤ signed k * s.srate.toNat ∧
      signed k * s.srate.toNat ≤ (s.bandHi.toNat : Int) * n
    ∃ t, exec (.demw b) s = .next t ∧
      (∀ k, k < n → t.magAt k = num.mag seg k) ∧ 2 ^ t.log2n.toNat = n ∧
      ((∃ k, surv k) → t.peakNoband = false ∧ surv t.peakBin.toNat ∧
        ∀ k, surv k → (t.magAt k).toNat ≤ (t.magAt t.peakBin.toNat).toNat ∧
          (t.magAt k = t.magAt t.peakBin.toNat → t.peakBin.toNat ≤ k)) ∧
      ((¬∃ k, surv k) → t.peakNoband = true ∧ t.peakBin = 0) ∧
      (t.peakBit = false ↔
        |(t.peakBin.toNat : Int) * s.srate.toNat - s.fSpace.toNat * n| <
        |(t.peakBin.toNat : Int) * s.srate.toNat - s.fMark.toNat * n|) ∧
      t.nobandCnt = (if t.peakNoband then 1 else 0) ∧
      t.flags = { s.flags with noband := s.flags.noband || t.peakNoband } ∧
      (∀ k, n ≤ k → t.magAt k = s.magAt k) ∧
      t = { s with mem := { s.mem with mag := t.mem.mag }, log2n := t.log2n, peakBin := t.peakBin,
                   peakBit := t.peakBit, peakNoband := t.peakNoband, nobandCnt := t.nobandCnt, flags := t.flags,
                   errCode := 0, busy := false, fin := true }

/-- 44_demodulator R205, R206: with an empty band every window defaults to 0 Hz, and its bit is 0 exactly when
F_SPACE < F_MARK. -/
def Obligations.NoSurvivorBit : Prop :=
  ∀ (b : Bank) (s : State), Succeeds (.demw b) s → s.bandHi.toNat < s.bandLo.toNat →
    ∃ t, exec (.demw b) s = .next t ∧ t.peakBin = 0 ∧ t.flags.noband = true ∧ t.nobandCnt = 1 ∧
      t.readReg .peakInfo = (if s.fSpace.toNat < s.fMark.toNat then 2 else 3)

/-- 44_demodulator R213, R211, R214: DEMOD, with its frame. `win w` is window w's samples, `State.classify` the function
Classify of R207. -/
def Obligations.DemodResult : Prop :=
  ∀ (b : Bank) (s : State), s.params.SizesOk → Succeeds (.demod b) s →
    let len := (s.waveLen b).toNat
    let nwin := (len + (s.sps - 1)) / s.sps
    let win : Nat → List Sample := fun w =>
      (List.range (min s.sps (len - w * s.sps))).map fun n => s.waveAt b (w * s.sps + n)
    ∃ t, exec (.demod b) s = .next t ∧
      t.symLen.toNat = nwin ∧
      (∀ w, w < nwin → t.symAt w = if (s.classify num (win w)).bit then 0x31 else 0x30) ∧
      (∀ k, nwin ≤ k → t.symAt k = s.symAt k) ∧
      t.nobandCnt.toNat = ((List.range nwin).filter fun w => (s.classify num (win w)).noband).length ∧
      t.flags = { s.flags with
        noband := s.flags.noband || decide (0 < t.nobandCnt.toNat)
        shortwin := s.flags.shortwin || decide (1 ≤ nwin ∧ (win (nwin - 1)).length < s.sps) } ∧
      (nwin = 0 → (∀ k, t.magAt k = s.magAt k) ∧ t.log2n = s.log2n ∧ t.peakBin = s.peakBin ∧
        t.peakBit = s.peakBit ∧ t.peakNoband = s.peakNoband) ∧
      (1 ≤ nwin → (∀ k, k < pow2gt (win (nwin - 1)).length → t.magAt k = num.mag (win (nwin - 1)) k) ∧
        (∀ k, pow2gt (win (nwin - 1)).length ≤ k → t.magAt k = s.magAt k) ∧
        2 ^ t.log2n.toNat = pow2gt (win (nwin - 1)).length ∧
        t.peakBin.toNat = (s.classify num (win (nwin - 1))).peak ∧
        t.peakBit = (s.classify num (win (nwin - 1))).bit ∧
        t.peakNoband = (s.classify num (win (nwin - 1))).noband) ∧
      t = { s with mem := { s.mem with symBuf := t.mem.symBuf, mag := t.mem.mag }, symLen := t.symLen,
                   log2n := t.log2n, peakBin := t.peakBin, peakBit := t.peakBit, peakNoband := t.peakNoband,
                   nobandCnt := t.nobandCnt, flags := t.flags, errCode := 0, busy := false, fin := true }

/-- 44_demodulator R214: DEMOD sets SHORTWIN exactly when SPS does not divide the waveform's length, and never clears it;
DEMW does not touch it. -/
def Obligations.ShortWindowFlag : Prop :=
  ∀ (b : Bank) (s : State),
    (Succeeds (.demod b) s → ∃ t, exec (.demod b) s = .next t ∧
      t.flags.shortwin = (s.flags.shortwin || decide ((s.waveLen b).toNat % s.sps ≠ 0))) ∧
    (∃ u, exec (.demw b) s = .next u ∧ u.flags.shortwin = s.flags.shortwin)

/-- 44_demodulator R207, R213, 60_exceptions R282: DEMW on window w decides the symbol DEMOD writes for it, and on the last
window leaves what DEMOD leaves. -/
def Obligations.DemodAgreesWithDemw : Prop :=
  ∀ (b : Bank) (s : State) (w : Nat), s.params.SizesOk → Succeeds (.demod b) s →
    w * s.sps < (s.waveLen b).toNat →
    ∃ t u, exec (.demod b) s = .next t ∧
      exec (.demw b) { s with
        winOff := BitVec.ofNat 32 (w * s.sps)
        winLen := BitVec.ofNat 32 (min s.sps ((s.waveLen b).toNat - w * s.sps)) } = .next u ∧
      u.err = s.err ∧ t.symAt w = (if u.peakBit then 0x31 else 0x30) ∧
      ((s.waveLen b).toNat ≤ (w + 1) * s.sps →
        t.peakBin = u.peakBin ∧ t.peakBit = u.peakBit ∧ t.peakNoband = u.peakNoband ∧ t.log2n = u.log2n ∧
        ∀ k, t.magAt k = u.magAt k)

/-- 44_demodulator R216 (c): a waveform MOD made of n valid symbols demodulates to n symbols, with no short window. -/
def Obligations.ModThenDemodCount : Prop :=
  ∀ (d : Bank) (s : State), s.params.SizesOk → Succeeds (.mod d) s → s.sps ≤ s.params.winMax →
    ∃ t u, exec (.mod d) s = .next t ∧ exec (.demod d) (t.accept (encode (.demod d))) = .next u ∧
      u.err = false ∧ u.symLen.toNat = s.validSymbols.length ∧ u.flags.shortwin = s.flags.shortwin

/-! ### Noise -/

/-- 45_noise R227: level 0 copies the source; in place it changes nothing but STATUS. -/
def Obligations.NoiseLevelZero : Prop :=
  ∀ (b d : Bank) (s : State), Succeeds (.noise b d) s → s.level = 0 →
    ∃ t, exec (.noise b d) s = .next t ∧
      (∀ i, i < (s.waveLen b).toNat → t.waveAt d i = s.waveAt b i) ∧ t.waveLen d = s.waveLen b ∧
      t.rngState = s.rngState ∧
      (∀ i, (s.waveLen b).toNat ≤ i → t.waveAt d i = s.waveAt d i) ∧
      (∀ c, c ≠ d → t.waveLen c = s.waveLen c ∧ ∀ k, t.waveAt c k = s.waveAt c k) ∧
      (b = d → ∀ c k, t.waveAt c k = s.waveAt c k) ∧
      t = { s with mem := { s.mem with wave0 := t.mem.wave0, wave1 := t.mem.wave1 },
                   waveLen0 := t.waveLen0, waveLen1 := t.waveLen1, errCode := 0, busy := false, fin := true }

/-- 45_noise R232 to R238, R242: NOISE at level 1 and up on a waveform that is not empty, with its frame. `word m` is the m-th
word drawn and `gen m` the generator state after m draws; `num` is the hardware's NUM (log 4). -/
def Obligations.NoiseResult : Prop :=
  ∀ (b d : Bank) (s : State), Succeeds (.noise b d) s → s.level ≠ 0 → s.waveLen b ≠ 0 →
    let len := (s.waveLen b).toNat
    let row := s.params.row s.level.toNat
    let gen : Nat → BitVec 64 := fun m => (fun g => (Config.rngNext g).1)^[m] s.rngState
    let word : Nat → Word := fun m => (Config.rngNext (gen m)).2
    let fh : Nat := if (word 0).getLsbD 0 then 60 else 50
    let pos : Nat → Nat := fun j => (word (1 + len + 2 * j)).toNat % len
    let spikeOf : Nat → Int := fun j =>
      clip (if (word (1 + len + 2 * j + 1)).getLsbD 0 then -(row.impA.toNat : Int) else row.impA.toNat)
    let phase : Nat → Nat := fun j => (word (1 + len + 2 * row.impN.toNat + j)).toNat % 2 ^ 16
    let tone : Nat → Nat := fun j =>
      if row.bandN.toNat = 1 then (s.bandLo.toNat + s.bandHi.toNat) / 2
      else s.bandLo.toNat + j * (s.bandHi.toNat - s.bandLo.toNat) / (row.bandN.toNat - 1)
    ∃ t, exec (.noise b d) s = .next t ∧
      (∀ i, i < len → ∃ m : ℤ, Config.IsRne (
          ((s.waveAt b i).toInt : ℝ)
          + (row.sigma.toNat : ℝ) * ((num.gauss (word (1 + i))).toInt : ℝ) / 4096
          + (row.hum.toNat : ℝ) * num.sin (fh * i) s.srate.toNat
          + ((∑ j ∈ Finset.range row.impN.toNat, if pos j = i then spikeOf j else 0 : Int) : ℝ)
          + ∑ j ∈ Finset.range row.bandN.toNat,
              (row.bandA.toNat : ℝ) *
                num.sin (tone j * i * 65536 + phase j * s.srate.toNat) (s.srate.toNat * 65536)) m ∧
        (t.waveAt d i).toInt = clip m) ∧
      t.waveLen d = s.waveLen b ∧
      t.rngState = gen (1 + len + 2 * row.impN.toNat + row.bandN.toNat) ∧
      (∀ i, len ≤ i → t.waveAt d i = s.waveAt d i) ∧
      (∀ c, c ≠ d → t.waveLen c = s.waveLen c ∧ ∀ k, t.waveAt c k = s.waveAt c k) ∧
      t = { s with mem := { s.mem with wave0 := t.mem.wave0, wave1 := t.mem.wave1 },
                   waveLen0 := t.waveLen0, waveLen1 := t.waveLen1, rngState := t.rngState,
                   errCode := 0, busy := false, fin := true }

/-- 45_noise R240: NOISE at level 1 and up on an empty waveform, with its frame: no sample and no draw. -/
def Obligations.NoiseEmptyWaveform : Prop :=
  ∀ (b d : Bank) (s : State), Succeeds (.noise b d) s → s.level ≠ 0 → s.waveLen b = 0 →
    ∃ t, exec (.noise b d) s = .next t ∧ t.waveLen d = 0 ∧ (∀ c, c ≠ d → t.waveLen c = s.waveLen c) ∧
      t = { s with waveLen0 := t.waveLen0, waveLen1 := t.waveLen1, errCode := 0, busy := false, fin := true }

/-- 45_noise R241, R243: the output is a function of the source samples, SRATE, LEVEL, the band and RNG_STATE (and of the
hardware's table), each output sample of the source sample at its own index alone; the banks do not matter, so a NOISE
in place gives what it gives out of place. -/
def Obligations.NoiseDeterminedBySeed : Prop :=
  ∀ (b b' d d' : Bank) (s s' : State), Succeeds (.noise b d) s → Succeeds (.noise b' d') s' →
    s.params = s'.params → s.srate = s'.srate → s.level = s'.level → s.bandLo = s'.bandLo → s.bandHi = s'.bandHi →
    s.rngState = s'.rngState → s.waveLen b = s'.waveLen b' →
    ∃ t t', exec (.noise b d) s = .next t ∧ exec (.noise b' d') s' = .next t' ∧ t.waveLen d = t'.waveLen d' ∧
      t.rngState = t'.rngState ∧
      ∀ i, i < (s.waveLen b).toNat → s.waveAt b i = s'.waveAt b' i → t.waveAt d i = t'.waveAt d' i

/-- 45_noise R239, 44_demodulator R211, R215 (d), 41_codec R155: whatever the noise did, DEMOD of the noisy bank yields one
symbol per window, every one valid, so that S2B never fails on them. -/
def Obligations.NoisyPipelineCompletes : Prop :=
  ∀ (b d : Bank) (s : State), s.params.SizesOk → Succeeds (.noise b d) s → Succeeds (.demod b) s →
    ((s.waveLen b).toNat + (s.sps - 1)) / s.sps / 8 ≤ s.params.byteDepth →
    ∃ t u v, exec (.noise b d) (s.accept (encode (.noise b d))) = .next t ∧
      exec (.demod d) (t.accept (encode (.demod d))) = .next u ∧
      exec .s2b (u.accept (encode .s2b)) = .next v ∧
      t.err = false ∧ u.err = false ∧ v.err = false ∧
      u.symLen.toNat = ((s.waveLen b).toNat + (s.sps - 1)) / s.sps ∧
      v.byteLen.toNat = u.symLen.toNat / 8

/-! ### Whole-machine rules -/

/-- 20_memory R86, 10_state R31: no command changes an operand register other than the lengths and RNG_STATE, nor CTRL or
CMD. -/
def Obligations.OperandsKept : Prop :=
  ∀ (i : Instr) (s t : State), exec i s = .next t →
    t.ieDone = s.ieDone ∧ t.ieErr = s.ieErr ∧ t.cmd = s.cmd ∧ t.srate = s.srate ∧ t.symdurNum = s.symdurNum ∧
    t.symdurDen = s.symdurDen ∧ t.fSpace = s.fSpace ∧ t.fMark = s.fMark ∧ t.ampl = s.ampl ∧ t.bandLo = s.bandLo ∧
    t.bandHi = s.bandHi ∧ t.level = s.level ∧ t.winOff = s.winOff ∧ t.winLen = s.winLen

/-- 30_encoding R104, 10_state R32, R43 to R49, R55: which command writes which buffer, length and result register. -/
def Obligations.WhoWritesWhat : Prop :=
  ∀ (i : Instr) (s t : State), exec i s = .next t →
    (i ≠ .s2b → t.mem.byteBuf = s.mem.byteBuf ∧ t.byteLen = s.byteLen) ∧
    (i ≠ .b2s → (∀ b, i ≠ .demod b) → t.mem.symBuf = s.mem.symBuf ∧ t.symLen = s.symLen) ∧
    (∀ d, i ≠ .mod d → (∀ b, i ≠ .noise b d) → t.mem.wave d = s.mem.wave d ∧ t.waveLen d = s.waveLen d) ∧
    ((∀ b, i ≠ .anlz b) → (∀ b, i ≠ .demw b) → (∀ b, i ≠ .demod b) →
      t.mem.mag = s.mem.mag ∧ t.log2n = s.log2n) ∧
    ((∀ b, i ≠ .demw b) → (∀ b, i ≠ .demod b) →
      t.peakBin = s.peakBin ∧ t.peakBit = s.peakBit ∧ t.peakNoband = s.peakNoband ∧ t.nobandCnt = s.nobandCnt) ∧
    ((∀ d, i ≠ .mod d) → t.invsymCnt = s.invsymCnt)

/-- 10_state R30: commands only set FLAGS bits, each bit only by the commands named. -/
def Obligations.FlagsSticky : Prop :=
  ∀ (i : Instr) (s t : State), exec i s = .next t →
    (s.flags.invsym = true → t.flags.invsym = true) ∧ (s.flags.shortwin = true → t.flags.shortwin = true) ∧
    (s.flags.noband = true → t.flags.noband = true) ∧ t.flags.busyacc = s.flags.busyacc ∧
    t.flags.badaddr = s.flags.badaddr ∧
    ((∀ d, i ≠ .mod d) → t.flags.invsym = s.flags.invsym) ∧
    ((∀ b, i ≠ .demod b) → t.flags.shortwin = s.flags.shortwin) ∧
    ((∀ b, i ≠ .demw b) → (∀ b, i ≠ .demod b) → t.flags.noband = s.flags.noband)

/-- 10_state R41, 45_noise R242: RNG_STATE after any command: advanced by the draws of a successful NOISE at level 1 and up on
a waveform that is not empty, and unchanged otherwise. -/
def Obligations.GeneratorAdvance : Prop :=
  ∀ (i : Instr) (s t : State), exec i s = .next t →
    ((∀ b d, i ≠ .noise b d) → t.rngState = s.rngState) ∧
    (∀ b d, i = .noise b d →
      (Succeeds i s ∧ s.level ≠ 0 ∧ s.waveLen b ≠ 0 →
        t.rngState = (fun g => (Config.rngNext g).1)^[1 + (s.waveLen b).toNat +
          2 * (s.params.row s.level.toNat).impN.toNat + (s.params.row s.level.toNat).bandN.toNat] s.rngState) ∧
      (¬(Succeeds i s ∧ s.level ≠ 0 ∧ s.waveLen b ≠ 0) → t.rngState = s.rngState))

/-! ### Numerics: the accuracies of 00_scope R6, and the ideal profile -/

/-- 00_scope R6: the ideal profile is one of the numerics configurations R6 allows, and it fixes the sine and the
magnitudes: two ideal configurations round every sum of sines alike and give the same magnitudes of every window the core
can analyse. NUM.gauss stays open (R6 (c)), so two of them can differ in NOISE at LEVEL 1 and up. -/
def Obligations.IdealProfile : Prop :=
  (∃ ideal : Config.Numerics, ideal.Ideal) ∧
  ∀ a b : Config.Numerics, a.Ideal → b.Ideal →
    (∀ (c : ℚ) (ts : List Config.Tone), (∀ t ∈ ts, 0 < t.q) → a.rne c ts = b.rne c ts) ∧
    ∀ (seg : List Sample) (k : Nat), 1 ≤ seg.length → seg.length ≤ Config.winMaxLargest → k < pow2gt seg.length →
      a.mag seg k = b.mag seg k

/-- 43_analyzer R187, R194 with 00_scope R6 (b): what ANLZ leaves in MAG, read in units of 2^−32, is within EPS_MAG of the
modulus of the transform of the zero-padded window, and so below 2^31; so an all-zero window leaves at most EPS_MAG, one
sample of value x leaves |x| in both bins, and a constant window of value c leaves L·|c| in bin 0, the largest, each
within EPS_MAG. -/
def Obligations.AnlzAccuracy : Prop :=
  ∀ (b : Bank) (s : State), s.params.SizesOk → Succeeds (.anlz b) s →
    let len := s.winLen.toNat
    let seg := (List.range len).map fun i => s.waveAt b (s.winOff.toNat + i)
    let n := pow2gt len
    ∃ t, exec (.anlz b) s = .next t ∧
      (∀ k, k < n →
        |((t.magAt k).toNat : ℝ) / 2 ^ 32 - Real.sqrt
          ((∑ i ∈ Finset.range len, ((seg.getD i 0).toInt : ℝ) * Real.cos (2 * Real.pi * k * i / n)) ^ 2 +
           (∑ i ∈ Finset.range len, ((seg.getD i 0).toInt : ℝ) * Real.sin (2 * Real.pi * k * i / n)) ^ 2)|
        ≤ (num.epsMag : ℝ)) ∧
      (∀ k, k < n → (t.magAt k).toNat < 2 ^ 63) ∧
      ((∀ i, i < len → (s.waveAt b (s.winOff.toNat + i)).toInt = 0) →
        ∀ k, k < n → ((t.magAt k).toNat : ℝ) ≤ (num.epsMag : ℝ) * 2 ^ 32) ∧
      (len = 1 → n = 2 ∧ ∀ k, k < 2 →
        |((t.magAt k).toNat : ℝ) / 2 ^ 32 - (|((s.waveAt b s.winOff.toNat).toInt : ℝ)|)| ≤ (num.epsMag : ℝ)) ∧
      (∀ c : ℤ, (∀ i, i < len → (s.waveAt b (s.winOff.toNat + i)).toInt = c) →
        |((t.magAt 0).toNat : ℝ) / 2 ^ 32 - (len * |(c : ℝ)|)| ≤ (num.epsMag : ℝ) ∧
        ∀ k, k < n → ((t.magAt k).toNat : ℝ) / 2 ^ 32 ≤ len * |(c : ℝ)| + (num.epsMag : ℝ))

/-- 45_noise R245 (g): the sum NOISE rounds is within (HUM + K × BAND_A) × EPS_SIN of the sum v* of the ideal sine; when
that bound is below 1/2 the sample written is within 1 of clip(rne(v*)); for the reference table the bound is below
0.26. -/
def Obligations.NoiseTolerance : Prop :=
  (∀ (b d : Bank) (s : State) (i : Nat) (m : ℤ), Succeeds (.noise b d) s → s.level ≠ 0 → i < (s.waveLen b).toNat →
    let row := s.params.row s.level.toNat
    let r := drawNoise row (s.waveLen b).toNat s.rngState
    let sum (sine : Nat → Nat → ℝ) : ℝ :=
      s.steadyAt num b row r i + ((s.tonesAt row r i).map fun x => (x.amp : ℝ) * sine x.p x.q).sum
    let bound : ℝ := (row.hum.toNat + row.bandN.toNat * row.bandA.toNat) * (num.epsSin : ℝ)
    let vStar := sum fun p q => Real.sin (2 * Real.pi * p / q)
    |sum num.sin - vStar| ≤ bound ∧
    (bound < 1 / 2 → Config.IsRne vStar m →
      ∃ t, exec (.noise b d) s = .next t ∧ |(t.waveAt d i).toInt - clip m| ≤ 1)) ∧
  ∀ row ∈ Config.referenceNtab,
    ((row.hum.toNat + row.bandN.toNat * row.bandA.toNat : ℕ) : ℝ) * (num.epsSin : ℝ) < 0.26

/-- 42_modulator R175: the examples, on a core whose NUM is the ideal profile: the symbols 0, x, 1 of configuration A with
AMPL = 32767, and the symbol 0 with AMPL = 65535. -/
def Obligations.ModIdealExample : Prop :=
  ∀ (ideal : Config.Numerics) (d : Bank) (s : State), ideal.Ideal → s.params.SizesOk → 16 ≤ s.params.waveDepth →
    s.srate = 9600 → s.symdurNum = 1 → s.symdurDen = 1200 → s.fSpace = 1200 → s.fMark = 2200 →
    s.symLen = 3 → s.symAt 0 = 0x30 → s.symAt 1 = 0x78 → s.symAt 2 = 0x31 →
    ∃ t, execUnder ideal (.mod d) s = .next t ∧ t.waveLen d = 16 ∧ t.invsymCnt = 1 ∧ t.flags.invsym = true ∧
      (s.ampl = 32767 → (List.range 16).map (fun i => (t.waveAt d i).toInt) =
        [0, 23170, 32767, 23170, 0, -23170, -32767, -23170,
         0, 32487, 8481, -30273, -16384, 25996, 23170, -19947]) ∧
      (s.ampl = 65535 → (List.range 8).map (fun i => (t.waveAt d i).toInt) =
        [0, 32767, 32767, 32767, 0, -32767, -32767, -32767])

/-- 43_analyzer R195 and vector AV1: the spectrum of the eight samples of symbol 0, on a core whose NUM is the ideal
profile; bins 9 to 15 mirror bins 7 to 1, and bin 2 is the largest. -/
def Obligations.AnlzIdealExample : Prop :=
  ∀ (ideal : Config.Numerics) (b : Bank) (s : State), ideal.Ideal → Succeeds (.anlz b) s → s.winLen = 8 →
    (List.range 8).map (fun i => (s.waveAt b (s.winOff.toNat + i)).toInt) =
      [0, 23170, 32767, 23170, 0, -23170, -32767, -23170] →
    ∃ t, execUnder ideal (.anlz b) s = .next t ∧ t.log2n = 4 ∧
      (List.range 9).map t.magAt = [0, 0x0001A185A9E113AE, 0x0001FFFCA80F18F4, 0x000116FA9025F2EA, 0,
        0x0000530C822E3403, 0x00000000A80F18F4, 0x0000377E978CECC1, 0] ∧
      (∀ k, 9 ≤ k → k < 16 → t.magAt k = t.magAt (16 - k)) ∧
      ∀ k, k < 16 → (t.magAt k).toNat ≤ (t.magAt 2).toNat

/-- 44_demodulator R216 (b) on the source's concrete scenario (vector SV1), for every NUM that 00_scope R6 allows, the
hardware's and the ideal profile among them: the byte 0x41 at 1200 symbols a second, 9600 samples a second, carriers 1200
and 2200 Hz, band 1000 to 2500 Hz, AMPL 32767 and level 0, taken through B2S, MOD, NOISE, DEMOD and S2B, gives the symbols
01000001 and the byte 0x41 again. -/
def Obligations.SourceScenario : Prop :=
  ∀ (profile : Config.Numerics) (s : State), s.params.SizesOk → 64 ≤ s.params.waveDepth → 4 ≤ s.params.log2nMax →
    s.srate = 9600 → s.symdurNum = 1 → s.symdurDen = 1200 → s.fSpace = 1200 → s.fMark = 2200 → s.ampl = 32767 →
    s.bandLo = 1000 → s.bandHi = 2500 → s.level = 0 → s.byteLen = 1 → s.byteAt 0 = 0x41 →
    let run (i : Instr) (t : State) := execUnder profile i (t.accept (encode i))
    ∃ t1 t2 t3 t4 t5, run .b2s s = .next t1 ∧ run (.mod .wave0) t1 = .next t2 ∧
      run (.noise .wave0 .wave1) t2 = .next t3 ∧ run (.demod .wave1) t3 = .next t4 ∧ run .s2b t4 = .next t5 ∧
      t1.err = false ∧ t2.err = false ∧ t3.err = false ∧ t4.err = false ∧ t5.err = false ∧
      t2.waveLen0 = 64 ∧ t4.symLen = 8 ∧
      (List.range 8).map t4.symAt = [0x30, 0x31, 0x30, 0x30, 0x30, 0x30, 0x30, 0x31] ∧
      t5.byteLen = 1 ∧ t5.byteAt 0 = 0x41
end

