-- ==== Sys2Proof/Laws/State.lean ====
section
/-! SUPPORT. The fields of a state after each named update: one lemma per field and update, true by rfl where the update is a
plain record update, by cases on the bank where it selects one. -/

namespace Sys2Proof.Machine

/-! ### accept -/

@[simp] theorem accept_params (w : Word) (s : State) : (s.accept w).params = s.params := rfl
@[simp] theorem accept_ieDone (w : Word) (s : State) : (s.accept w).ieDone = s.ieDone := rfl
@[simp] theorem accept_ieErr (w : Word) (s : State) : (s.accept w).ieErr = s.ieErr := rfl
@[simp] theorem accept_cmd (w : Word) (s : State) : (s.accept w).cmd = w := rfl
@[simp] theorem accept_busy (w : Word) (s : State) : (s.accept w).busy = true := rfl
@[simp] theorem accept_fin (w : Word) (s : State) : (s.accept w).fin = false := rfl
@[simp] theorem accept_err (w : Word) (s : State) : (s.accept w).err = false := rfl
@[simp] theorem accept_errCode (w : Word) (s : State) : (s.accept w).errCode = 0 := rfl
@[simp] theorem accept_flags (w : Word) (s : State) : (s.accept w).flags = s.flags := rfl
@[simp] theorem accept_srate (w : Word) (s : State) : (s.accept w).srate = s.srate := rfl
@[simp] theorem accept_symdurNum (w : Word) (s : State) : (s.accept w).symdurNum = s.symdurNum := rfl
@[simp] theorem accept_symdurDen (w : Word) (s : State) : (s.accept w).symdurDen = s.symdurDen := rfl
@[simp] theorem accept_fSpace (w : Word) (s : State) : (s.accept w).fSpace = s.fSpace := rfl
@[simp] theorem accept_fMark (w : Word) (s : State) : (s.accept w).fMark = s.fMark := rfl
@[simp] theorem accept_ampl (w : Word) (s : State) : (s.accept w).ampl = s.ampl := rfl
@[simp] theorem accept_bandLo (w : Word) (s : State) : (s.accept w).bandLo = s.bandLo := rfl
@[simp] theorem accept_bandHi (w : Word) (s : State) : (s.accept w).bandHi = s.bandHi := rfl
@[simp] theorem accept_level (w : Word) (s : State) : (s.accept w).level = s.level := rfl
@[simp] theorem accept_rngState (w : Word) (s : State) : (s.accept w).rngState = s.rngState := rfl
@[simp] theorem accept_winOff (w : Word) (s : State) : (s.accept w).winOff = s.winOff := rfl
@[simp] theorem accept_winLen (w : Word) (s : State) : (s.accept w).winLen = s.winLen := rfl
@[simp] theorem accept_byteLen (w : Word) (s : State) : (s.accept w).byteLen = s.byteLen := rfl
@[simp] theorem accept_symLen (w : Word) (s : State) : (s.accept w).symLen = s.symLen := rfl
@[simp] theorem accept_waveLen0 (w : Word) (s : State) : (s.accept w).waveLen0 = s.waveLen0 := rfl
@[simp] theorem accept_waveLen1 (w : Word) (s : State) : (s.accept w).waveLen1 = s.waveLen1 := rfl
@[simp] theorem accept_log2n (w : Word) (s : State) : (s.accept w).log2n = s.log2n := rfl
@[simp] theorem accept_peakBin (w : Word) (s : State) : (s.accept w).peakBin = s.peakBin := rfl
@[simp] theorem accept_peakBit (w : Word) (s : State) : (s.accept w).peakBit = s.peakBit := rfl
@[simp] theorem accept_peakNoband (w : Word) (s : State) : (s.accept w).peakNoband = s.peakNoband := rfl
@[simp] theorem accept_invsymCnt (w : Word) (s : State) : (s.accept w).invsymCnt = s.invsymCnt := rfl
@[simp] theorem accept_nobandCnt (w : Word) (s : State) : (s.accept w).nobandCnt = s.nobandCnt := rfl
@[simp] theorem accept_mem (w : Word) (s : State) : (s.accept w).mem = s.mem := rfl
@[simp] theorem accept_schedule (w : Word) (s : State) : (s.accept w).schedule = s.schedule := rfl
@[simp] theorem accept_reply (w : Word) (s : State) : (s.accept w).reply = s.reply := rfl
@[simp] theorem accept_resets (w : Word) (s : State) : (s.accept w).resets = s.resets := rfl
@[simp] theorem accept_draws (w : Word) (s : State) : (s.accept w).draws = s.draws := rfl

/-! ### failWith -/

@[simp] theorem failWith_params (c : ErrCode) (s : State) : (s.failWith c).params = s.params := rfl
@[simp] theorem failWith_ieDone (c : ErrCode) (s : State) : (s.failWith c).ieDone = s.ieDone := rfl
@[simp] theorem failWith_ieErr (c : ErrCode) (s : State) : (s.failWith c).ieErr = s.ieErr := rfl
@[simp] theorem failWith_cmd (c : ErrCode) (s : State) : (s.failWith c).cmd = s.cmd := rfl
@[simp] theorem failWith_busy (c : ErrCode) (s : State) : (s.failWith c).busy = false := rfl
@[simp] theorem failWith_fin (c : ErrCode) (s : State) : (s.failWith c).fin = true := rfl
@[simp] theorem failWith_err (c : ErrCode) (s : State) : (s.failWith c).err = true := rfl
@[simp] theorem failWith_errCode (c : ErrCode) (s : State) : (s.failWith c).errCode = c.code := rfl
@[simp] theorem failWith_flags (c : ErrCode) (s : State) : (s.failWith c).flags = s.flags := rfl
@[simp] theorem failWith_srate (c : ErrCode) (s : State) : (s.failWith c).srate = s.srate := rfl
@[simp] theorem failWith_symdurNum (c : ErrCode) (s : State) : (s.failWith c).symdurNum = s.symdurNum := rfl
@[simp] theorem failWith_symdurDen (c : ErrCode) (s : State) : (s.failWith c).symdurDen = s.symdurDen := rfl
@[simp] theorem failWith_fSpace (c : ErrCode) (s : State) : (s.failWith c).fSpace = s.fSpace := rfl
@[simp] theorem failWith_fMark (c : ErrCode) (s : State) : (s.failWith c).fMark = s.fMark := rfl
@[simp] theorem failWith_ampl (c : ErrCode) (s : State) : (s.failWith c).ampl = s.ampl := rfl
@[simp] theorem failWith_bandLo (c : ErrCode) (s : State) : (s.failWith c).bandLo = s.bandLo := rfl
@[simp] theorem failWith_bandHi (c : ErrCode) (s : State) : (s.failWith c).bandHi = s.bandHi := rfl
@[simp] theorem failWith_level (c : ErrCode) (s : State) : (s.failWith c).level = s.level := rfl
@[simp] theorem failWith_rngState (c : ErrCode) (s : State) : (s.failWith c).rngState = s.rngState := rfl
@[simp] theorem failWith_winOff (c : ErrCode) (s : State) : (s.failWith c).winOff = s.winOff := rfl
@[simp] theorem failWith_winLen (c : ErrCode) (s : State) : (s.failWith c).winLen = s.winLen := rfl
@[simp] theorem failWith_byteLen (c : ErrCode) (s : State) : (s.failWith c).byteLen = s.byteLen := rfl
@[simp] theorem failWith_symLen (c : ErrCode) (s : State) : (s.failWith c).symLen = s.symLen := rfl
@[simp] theorem failWith_waveLen0 (c : ErrCode) (s : State) : (s.failWith c).waveLen0 = s.waveLen0 := rfl
@[simp] theorem failWith_waveLen1 (c : ErrCode) (s : State) : (s.failWith c).waveLen1 = s.waveLen1 := rfl
@[simp] theorem failWith_log2n (c : ErrCode) (s : State) : (s.failWith c).log2n = s.log2n := rfl
@[simp] theorem failWith_peakBin (c : ErrCode) (s : State) : (s.failWith c).peakBin = s.peakBin := rfl
@[simp] theorem failWith_peakBit (c : ErrCode) (s : State) : (s.failWith c).peakBit = s.peakBit := rfl
@[simp] theorem failWith_peakNoband (c : ErrCode) (s : State) : (s.failWith c).peakNoband = s.peakNoband := rfl
@[simp] theorem failWith_invsymCnt (c : ErrCode) (s : State) : (s.failWith c).invsymCnt = s.invsymCnt := rfl
@[simp] theorem failWith_nobandCnt (c : ErrCode) (s : State) : (s.failWith c).nobandCnt = s.nobandCnt := rfl
@[simp] theorem failWith_mem (c : ErrCode) (s : State) : (s.failWith c).mem = s.mem := rfl
@[simp] theorem failWith_schedule (c : ErrCode) (s : State) : (s.failWith c).schedule = s.schedule := rfl
@[simp] theorem failWith_reply (c : ErrCode) (s : State) : (s.failWith c).reply = s.reply := rfl
@[simp] theorem failWith_resets (c : ErrCode) (s : State) : (s.failWith c).resets = s.resets := rfl
@[simp] theorem failWith_draws (c : ErrCode) (s : State) : (s.failWith c).draws = s.draws := rfl

/-! ### succeed -/

@[simp] theorem succeed_params (s : State) : s.succeed.params = s.params := rfl
@[simp] theorem succeed_ieDone (s : State) : s.succeed.ieDone = s.ieDone := rfl
@[simp] theorem succeed_ieErr (s : State) : s.succeed.ieErr = s.ieErr := rfl
@[simp] theorem succeed_cmd (s : State) : s.succeed.cmd = s.cmd := rfl
@[simp] theorem succeed_busy (s : State) : s.succeed.busy = false := rfl
@[simp] theorem succeed_fin (s : State) : s.succeed.fin = true := rfl
@[simp] theorem succeed_err (s : State) : s.succeed.err = s.err := rfl
@[simp] theorem succeed_errCode (s : State) : s.succeed.errCode = 0 := rfl
@[simp] theorem succeed_flags (s : State) : s.succeed.flags = s.flags := rfl
@[simp] theorem succeed_srate (s : State) : s.succeed.srate = s.srate := rfl
@[simp] theorem succeed_symdurNum (s : State) : s.succeed.symdurNum = s.symdurNum := rfl
@[simp] theorem succeed_symdurDen (s : State) : s.succeed.symdurDen = s.symdurDen := rfl
@[simp] theorem succeed_fSpace (s : State) : s.succeed.fSpace = s.fSpace := rfl
@[simp] theorem succeed_fMark (s : State) : s.succeed.fMark = s.fMark := rfl
@[simp] theorem succeed_ampl (s : State) : s.succeed.ampl = s.ampl := rfl
@[simp] theorem succeed_bandLo (s : State) : s.succeed.bandLo = s.bandLo := rfl
@[simp] theorem succeed_bandHi (s : State) : s.succeed.bandHi = s.bandHi := rfl
@[simp] theorem succeed_level (s : State) : s.succeed.level = s.level := rfl
@[simp] theorem succeed_rngState (s : State) : s.succeed.rngState = s.rngState := rfl
@[simp] theorem succeed_winOff (s : State) : s.succeed.winOff = s.winOff := rfl
@[simp] theorem succeed_winLen (s : State) : s.succeed.winLen = s.winLen := rfl
@[simp] theorem succeed_byteLen (s : State) : s.succeed.byteLen = s.byteLen := rfl
@[simp] theorem succeed_symLen (s : State) : s.succeed.symLen = s.symLen := rfl
@[simp] theorem succeed_waveLen0 (s : State) : s.succeed.waveLen0 = s.waveLen0 := rfl
@[simp] theorem succeed_waveLen1 (s : State) : s.succeed.waveLen1 = s.waveLen1 := rfl
@[simp] theorem succeed_log2n (s : State) : s.succeed.log2n = s.log2n := rfl
@[simp] theorem succeed_peakBin (s : State) : s.succeed.peakBin = s.peakBin := rfl
@[simp] theorem succeed_peakBit (s : State) : s.succeed.peakBit = s.peakBit := rfl
@[simp] theorem succeed_peakNoband (s : State) : s.succeed.peakNoband = s.peakNoband := rfl
@[simp] theorem succeed_invsymCnt (s : State) : s.succeed.invsymCnt = s.invsymCnt := rfl
@[simp] theorem succeed_nobandCnt (s : State) : s.succeed.nobandCnt = s.nobandCnt := rfl
@[simp] theorem succeed_mem (s : State) : s.succeed.mem = s.mem := rfl
@[simp] theorem succeed_schedule (s : State) : s.succeed.schedule = s.schedule := rfl
@[simp] theorem succeed_reply (s : State) : s.succeed.reply = s.reply := rfl
@[simp] theorem succeed_resets (s : State) : s.succeed.resets = s.resets := rfl
@[simp] theorem succeed_draws (s : State) : s.succeed.draws = s.draws := rfl

/-! ### ackStatus -/

@[simp] theorem ackStatus_params (v : Word) (s : State) : (s.ackStatus v).params = s.params := rfl
@[simp] theorem ackStatus_ieDone (v : Word) (s : State) : (s.ackStatus v).ieDone = s.ieDone := rfl
@[simp] theorem ackStatus_ieErr (v : Word) (s : State) : (s.ackStatus v).ieErr = s.ieErr := rfl
@[simp] theorem ackStatus_cmd (v : Word) (s : State) : (s.ackStatus v).cmd = s.cmd := rfl
@[simp] theorem ackStatus_busy (v : Word) (s : State) : (s.ackStatus v).busy = s.busy := rfl
@[simp] theorem ackStatus_fin (v : Word) (s : State) : (s.ackStatus v).fin = (s.fin && !bitOf v 1) := rfl
@[simp] theorem ackStatus_err (v : Word) (s : State) : (s.ackStatus v).err = (s.err && !bitOf v 2) := rfl
@[simp] theorem ackStatus_errCode (v : Word) (s : State) : (s.ackStatus v).errCode = if bitOf v 2 then 0 else s.errCode := rfl
@[simp] theorem ackStatus_flags (v : Word) (s : State) : (s.ackStatus v).flags = s.flags := rfl
@[simp] theorem ackStatus_srate (v : Word) (s : State) : (s.ackStatus v).srate = s.srate := rfl
@[simp] theorem ackStatus_symdurNum (v : Word) (s : State) : (s.ackStatus v).symdurNum = s.symdurNum := rfl
@[simp] theorem ackStatus_symdurDen (v : Word) (s : State) : (s.ackStatus v).symdurDen = s.symdurDen := rfl
@[simp] theorem ackStatus_fSpace (v : Word) (s : State) : (s.ackStatus v).fSpace = s.fSpace := rfl
@[simp] theorem ackStatus_fMark (v : Word) (s : State) : (s.ackStatus v).fMark = s.fMark := rfl
@[simp] theorem ackStatus_ampl (v : Word) (s : State) : (s.ackStatus v).ampl = s.ampl := rfl
@[simp] theorem ackStatus_bandLo (v : Word) (s : State) : (s.ackStatus v).bandLo = s.bandLo := rfl
@[simp] theorem ackStatus_bandHi (v : Word) (s : State) : (s.ackStatus v).bandHi = s.bandHi := rfl
@[simp] theorem ackStatus_level (v : Word) (s : State) : (s.ackStatus v).level = s.level := rfl
@[simp] theorem ackStatus_rngState (v : Word) (s : State) : (s.ackStatus v).rngState = s.rngState := rfl
@[simp] theorem ackStatus_winOff (v : Word) (s : State) : (s.ackStatus v).winOff = s.winOff := rfl
@[simp] theorem ackStatus_winLen (v : Word) (s : State) : (s.ackStatus v).winLen = s.winLen := rfl
@[simp] theorem ackStatus_byteLen (v : Word) (s : State) : (s.ackStatus v).byteLen = s.byteLen := rfl
@[simp] theorem ackStatus_symLen (v : Word) (s : State) : (s.ackStatus v).symLen = s.symLen := rfl
@[simp] theorem ackStatus_waveLen0 (v : Word) (s : State) : (s.ackStatus v).waveLen0 = s.waveLen0 := rfl
@[simp] theorem ackStatus_waveLen1 (v : Word) (s : State) : (s.ackStatus v).waveLen1 = s.waveLen1 := rfl
@[simp] theorem ackStatus_log2n (v : Word) (s : State) : (s.ackStatus v).log2n = s.log2n := rfl
@[simp] theorem ackStatus_peakBin (v : Word) (s : State) : (s.ackStatus v).peakBin = s.peakBin := rfl
@[simp] theorem ackStatus_peakBit (v : Word) (s : State) : (s.ackStatus v).peakBit = s.peakBit := rfl
@[simp] theorem ackStatus_peakNoband (v : Word) (s : State) : (s.ackStatus v).peakNoband = s.peakNoband := rfl
@[simp] theorem ackStatus_invsymCnt (v : Word) (s : State) : (s.ackStatus v).invsymCnt = s.invsymCnt := rfl
@[simp] theorem ackStatus_nobandCnt (v : Word) (s : State) : (s.ackStatus v).nobandCnt = s.nobandCnt := rfl
@[simp] theorem ackStatus_mem (v : Word) (s : State) : (s.ackStatus v).mem = s.mem := rfl
@[simp] theorem ackStatus_schedule (v : Word) (s : State) : (s.ackStatus v).schedule = s.schedule := rfl
@[simp] theorem ackStatus_reply (v : Word) (s : State) : (s.ackStatus v).reply = s.reply := rfl
@[simp] theorem ackStatus_resets (v : Word) (s : State) : (s.ackStatus v).resets = s.resets := rfl
@[simp] theorem ackStatus_draws (v : Word) (s : State) : (s.ackStatus v).draws = s.draws := rfl

/-! ### noteBusyacc -/

@[simp] theorem noteBusyacc_params (s : State) : s.noteBusyacc.params = s.params := rfl
@[simp] theorem noteBusyacc_ieDone (s : State) : s.noteBusyacc.ieDone = s.ieDone := rfl
@[simp] theorem noteBusyacc_ieErr (s : State) : s.noteBusyacc.ieErr = s.ieErr := rfl
@[simp] theorem noteBusyacc_cmd (s : State) : s.noteBusyacc.cmd = s.cmd := rfl
@[simp] theorem noteBusyacc_busy (s : State) : s.noteBusyacc.busy = s.busy := rfl
@[simp] theorem noteBusyacc_fin (s : State) : s.noteBusyacc.fin = s.fin := rfl
@[simp] theorem noteBusyacc_err (s : State) : s.noteBusyacc.err = s.err := rfl
@[simp] theorem noteBusyacc_errCode (s : State) : s.noteBusyacc.errCode = s.errCode := rfl
@[simp] theorem noteBusyacc_flags (s : State) : s.noteBusyacc.flags = { s.flags with busyacc := true } := rfl
@[simp] theorem noteBusyacc_srate (s : State) : s.noteBusyacc.srate = s.srate := rfl
@[simp] theorem noteBusyacc_symdurNum (s : State) : s.noteBusyacc.symdurNum = s.symdurNum := rfl
@[simp] theorem noteBusyacc_symdurDen (s : State) : s.noteBusyacc.symdurDen = s.symdurDen := rfl
@[simp] theorem noteBusyacc_fSpace (s : State) : s.noteBusyacc.fSpace = s.fSpace := rfl
@[simp] theorem noteBusyacc_fMark (s : State) : s.noteBusyacc.fMark = s.fMark := rfl
@[simp] theorem noteBusyacc_ampl (s : State) : s.noteBusyacc.ampl = s.ampl := rfl
@[simp] theorem noteBusyacc_bandLo (s : State) : s.noteBusyacc.bandLo = s.bandLo := rfl
@[simp] theorem noteBusyacc_bandHi (s : State) : s.noteBusyacc.bandHi = s.bandHi := rfl
@[simp] theorem noteBusyacc_level (s : State) : s.noteBusyacc.level = s.level := rfl
@[simp] theorem noteBusyacc_rngState (s : State) : s.noteBusyacc.rngState = s.rngState := rfl
@[simp] theorem noteBusyacc_winOff (s : State) : s.noteBusyacc.winOff = s.winOff := rfl
@[simp] theorem noteBusyacc_winLen (s : State) : s.noteBusyacc.winLen = s.winLen := rfl
@[simp] theorem noteBusyacc_byteLen (s : State) : s.noteBusyacc.byteLen = s.byteLen := rfl
@[simp] theorem noteBusyacc_symLen (s : State) : s.noteBusyacc.symLen = s.symLen := rfl
@[simp] theorem noteBusyacc_waveLen0 (s : State) : s.noteBusyacc.waveLen0 = s.waveLen0 := rfl
@[simp] theorem noteBusyacc_waveLen1 (s : State) : s.noteBusyacc.waveLen1 = s.waveLen1 := rfl
@[simp] theorem noteBusyacc_log2n (s : State) : s.noteBusyacc.log2n = s.log2n := rfl
@[simp] theorem noteBusyacc_peakBin (s : State) : s.noteBusyacc.peakBin = s.peakBin := rfl
@[simp] theorem noteBusyacc_peakBit (s : State) : s.noteBusyacc.peakBit = s.peakBit := rfl
@[simp] theorem noteBusyacc_peakNoband (s : State) : s.noteBusyacc.peakNoband = s.peakNoband := rfl
@[simp] theorem noteBusyacc_invsymCnt (s : State) : s.noteBusyacc.invsymCnt = s.invsymCnt := rfl
@[simp] theorem noteBusyacc_nobandCnt (s : State) : s.noteBusyacc.nobandCnt = s.nobandCnt := rfl
@[simp] theorem noteBusyacc_mem (s : State) : s.noteBusyacc.mem = s.mem := rfl
@[simp] theorem noteBusyacc_schedule (s : State) : s.noteBusyacc.schedule = s.schedule := rfl
@[simp] theorem noteBusyacc_reply (s : State) : s.noteBusyacc.reply = s.reply := rfl
@[simp] theorem noteBusyacc_resets (s : State) : s.noteBusyacc.resets = s.resets := rfl
@[simp] theorem noteBusyacc_draws (s : State) : s.noteBusyacc.draws = s.draws := rfl

/-! ### noteBadaddr -/

@[simp] theorem noteBadaddr_params (s : State) : s.noteBadaddr.params = s.params := rfl
@[simp] theorem noteBadaddr_ieDone (s : State) : s.noteBadaddr.ieDone = s.ieDone := rfl
@[simp] theorem noteBadaddr_ieErr (s : State) : s.noteBadaddr.ieErr = s.ieErr := rfl
@[simp] theorem noteBadaddr_cmd (s : State) : s.noteBadaddr.cmd = s.cmd := rfl
@[simp] theorem noteBadaddr_busy (s : State) : s.noteBadaddr.busy = s.busy := rfl
@[simp] theorem noteBadaddr_fin (s : State) : s.noteBadaddr.fin = s.fin := rfl
@[simp] theorem noteBadaddr_err (s : State) : s.noteBadaddr.err = s.err := rfl
@[simp] theorem noteBadaddr_errCode (s : State) : s.noteBadaddr.errCode = s.errCode := rfl
@[simp] theorem noteBadaddr_flags (s : State) : s.noteBadaddr.flags = { s.flags with badaddr := true } := rfl
@[simp] theorem noteBadaddr_srate (s : State) : s.noteBadaddr.srate = s.srate := rfl
@[simp] theorem noteBadaddr_symdurNum (s : State) : s.noteBadaddr.symdurNum = s.symdurNum := rfl
@[simp] theorem noteBadaddr_symdurDen (s : State) : s.noteBadaddr.symdurDen = s.symdurDen := rfl
@[simp] theorem noteBadaddr_fSpace (s : State) : s.noteBadaddr.fSpace = s.fSpace := rfl
@[simp] theorem noteBadaddr_fMark (s : State) : s.noteBadaddr.fMark = s.fMark := rfl
@[simp] theorem noteBadaddr_ampl (s : State) : s.noteBadaddr.ampl = s.ampl := rfl
@[simp] theorem noteBadaddr_bandLo (s : State) : s.noteBadaddr.bandLo = s.bandLo := rfl
@[simp] theorem noteBadaddr_bandHi (s : State) : s.noteBadaddr.bandHi = s.bandHi := rfl
@[simp] theorem noteBadaddr_level (s : State) : s.noteBadaddr.level = s.level := rfl
@[simp] theorem noteBadaddr_rngState (s : State) : s.noteBadaddr.rngState = s.rngState := rfl
@[simp] theorem noteBadaddr_winOff (s : State) : s.noteBadaddr.winOff = s.winOff := rfl
@[simp] theorem noteBadaddr_winLen (s : State) : s.noteBadaddr.winLen = s.winLen := rfl
@[simp] theorem noteBadaddr_byteLen (s : State) : s.noteBadaddr.byteLen = s.byteLen := rfl
@[simp] theorem noteBadaddr_symLen (s : State) : s.noteBadaddr.symLen = s.symLen := rfl
@[simp] theorem noteBadaddr_waveLen0 (s : State) : s.noteBadaddr.waveLen0 = s.waveLen0 := rfl
@[simp] theorem noteBadaddr_waveLen1 (s : State) : s.noteBadaddr.waveLen1 = s.waveLen1 := rfl
@[simp] theorem noteBadaddr_log2n (s : State) : s.noteBadaddr.log2n = s.log2n := rfl
@[simp] theorem noteBadaddr_peakBin (s : State) : s.noteBadaddr.peakBin = s.peakBin := rfl
@[simp] theorem noteBadaddr_peakBit (s : State) : s.noteBadaddr.peakBit = s.peakBit := rfl
@[simp] theorem noteBadaddr_peakNoband (s : State) : s.noteBadaddr.peakNoband = s.peakNoband := rfl
@[simp] theorem noteBadaddr_invsymCnt (s : State) : s.noteBadaddr.invsymCnt = s.invsymCnt := rfl
@[simp] theorem noteBadaddr_nobandCnt (s : State) : s.noteBadaddr.nobandCnt = s.nobandCnt := rfl
@[simp] theorem noteBadaddr_mem (s : State) : s.noteBadaddr.mem = s.mem := rfl
@[simp] theorem noteBadaddr_schedule (s : State) : s.noteBadaddr.schedule = s.schedule := rfl
@[simp] theorem noteBadaddr_reply (s : State) : s.noteBadaddr.reply = s.reply := rfl
@[simp] theorem noteBadaddr_resets (s : State) : s.noteBadaddr.resets = s.resets := rfl
@[simp] theorem noteBadaddr_draws (s : State) : s.noteBadaddr.draws = s.draws := rfl

/-! ### storeBytes -/

@[simp] theorem storeBytes_params (vs : List Byte) (s : State) : (s.storeBytes vs).params = s.params := rfl
@[simp] theorem storeBytes_ieDone (vs : List Byte) (s : State) : (s.storeBytes vs).ieDone = s.ieDone := rfl
@[simp] theorem storeBytes_ieErr (vs : List Byte) (s : State) : (s.storeBytes vs).ieErr = s.ieErr := rfl
@[simp] theorem storeBytes_cmd (vs : List Byte) (s : State) : (s.storeBytes vs).cmd = s.cmd := rfl
@[simp] theorem storeBytes_busy (vs : List Byte) (s : State) : (s.storeBytes vs).busy = s.busy := rfl
@[simp] theorem storeBytes_fin (vs : List Byte) (s : State) : (s.storeBytes vs).fin = s.fin := rfl
@[simp] theorem storeBytes_err (vs : List Byte) (s : State) : (s.storeBytes vs).err = s.err := rfl
@[simp] theorem storeBytes_errCode (vs : List Byte) (s : State) : (s.storeBytes vs).errCode = s.errCode := rfl
@[simp] theorem storeBytes_flags (vs : List Byte) (s : State) : (s.storeBytes vs).flags = s.flags := rfl
@[simp] theorem storeBytes_srate (vs : List Byte) (s : State) : (s.storeBytes vs).srate = s.srate := rfl
@[simp] theorem storeBytes_symdurNum (vs : List Byte) (s : State) : (s.storeBytes vs).symdurNum = s.symdurNum := rfl
@[simp] theorem storeBytes_symdurDen (vs : List Byte) (s : State) : (s.storeBytes vs).symdurDen = s.symdurDen := rfl
@[simp] theorem storeBytes_fSpace (vs : List Byte) (s : State) : (s.storeBytes vs).fSpace = s.fSpace := rfl
@[simp] theorem storeBytes_fMark (vs : List Byte) (s : State) : (s.storeBytes vs).fMark = s.fMark := rfl
@[simp] theorem storeBytes_ampl (vs : List Byte) (s : State) : (s.storeBytes vs).ampl = s.ampl := rfl
@[simp] theorem storeBytes_bandLo (vs : List Byte) (s : State) : (s.storeBytes vs).bandLo = s.bandLo := rfl
@[simp] theorem storeBytes_bandHi (vs : List Byte) (s : State) : (s.storeBytes vs).bandHi = s.bandHi := rfl
@[simp] theorem storeBytes_level (vs : List Byte) (s : State) : (s.storeBytes vs).level = s.level := rfl
@[simp] theorem storeBytes_rngState (vs : List Byte) (s : State) : (s.storeBytes vs).rngState = s.rngState := rfl
@[simp] theorem storeBytes_winOff (vs : List Byte) (s : State) : (s.storeBytes vs).winOff = s.winOff := rfl
@[simp] theorem storeBytes_winLen (vs : List Byte) (s : State) : (s.storeBytes vs).winLen = s.winLen := rfl
@[simp] theorem storeBytes_byteLen (vs : List Byte) (s : State) : (s.storeBytes vs).byteLen = BitVec.ofNat 32 vs.length := rfl
@[simp] theorem storeBytes_symLen (vs : List Byte) (s : State) : (s.storeBytes vs).symLen = s.symLen := rfl
@[simp] theorem storeBytes_waveLen0 (vs : List Byte) (s : State) : (s.storeBytes vs).waveLen0 = s.waveLen0 := rfl
@[simp] theorem storeBytes_waveLen1 (vs : List Byte) (s : State) : (s.storeBytes vs).waveLen1 = s.waveLen1 := rfl
@[simp] theorem storeBytes_log2n (vs : List Byte) (s : State) : (s.storeBytes vs).log2n = s.log2n := rfl
@[simp] theorem storeBytes_peakBin (vs : List Byte) (s : State) : (s.storeBytes vs).peakBin = s.peakBin := rfl
@[simp] theorem storeBytes_peakBit (vs : List Byte) (s : State) : (s.storeBytes vs).peakBit = s.peakBit := rfl
@[simp] theorem storeBytes_peakNoband (vs : List Byte) (s : State) : (s.storeBytes vs).peakNoband = s.peakNoband := rfl
@[simp] theorem storeBytes_invsymCnt (vs : List Byte) (s : State) : (s.storeBytes vs).invsymCnt = s.invsymCnt := rfl
@[simp] theorem storeBytes_nobandCnt (vs : List Byte) (s : State) : (s.storeBytes vs).nobandCnt = s.nobandCnt := rfl
@[simp] theorem storeBytes_mem (vs : List Byte) (s : State) : (s.storeBytes vs).mem = { s.mem with byteBuf := s.mem.byteBuf.fill vs } := rfl
@[simp] theorem storeBytes_schedule (vs : List Byte) (s : State) : (s.storeBytes vs).schedule = s.schedule := rfl
@[simp] theorem storeBytes_reply (vs : List Byte) (s : State) : (s.storeBytes vs).reply = s.reply := rfl
@[simp] theorem storeBytes_resets (vs : List Byte) (s : State) : (s.storeBytes vs).resets = s.resets := rfl
@[simp] theorem storeBytes_draws (vs : List Byte) (s : State) : (s.storeBytes vs).draws = s.draws := rfl

/-! ### storeSymbols -/

@[simp] theorem storeSymbols_params (vs : List Byte) (s : State) : (s.storeSymbols vs).params = s.params := rfl
@[simp] theorem storeSymbols_ieDone (vs : List Byte) (s : State) : (s.storeSymbols vs).ieDone = s.ieDone := rfl
@[simp] theorem storeSymbols_ieErr (vs : List Byte) (s : State) : (s.storeSymbols vs).ieErr = s.ieErr := rfl
@[simp] theorem storeSymbols_cmd (vs : List Byte) (s : State) : (s.storeSymbols vs).cmd = s.cmd := rfl
@[simp] theorem storeSymbols_busy (vs : List Byte) (s : State) : (s.storeSymbols vs).busy = s.busy := rfl
@[simp] theorem storeSymbols_fin (vs : List Byte) (s : State) : (s.storeSymbols vs).fin = s.fin := rfl
@[simp] theorem storeSymbols_err (vs : List Byte) (s : State) : (s.storeSymbols vs).err = s.err := rfl
@[simp] theorem storeSymbols_errCode (vs : List Byte) (s : State) : (s.storeSymbols vs).errCode = s.errCode := rfl
@[simp] theorem storeSymbols_flags (vs : List Byte) (s : State) : (s.storeSymbols vs).flags = s.flags := rfl
@[simp] theorem storeSymbols_srate (vs : List Byte) (s : State) : (s.storeSymbols vs).srate = s.srate := rfl
@[simp] theorem storeSymbols_symdurNum (vs : List Byte) (s : State) : (s.storeSymbols vs).symdurNum = s.symdurNum := rfl
@[simp] theorem storeSymbols_symdurDen (vs : List Byte) (s : State) : (s.storeSymbols vs).symdurDen = s.symdurDen := rfl
@[simp] theorem storeSymbols_fSpace (vs : List Byte) (s : State) : (s.storeSymbols vs).fSpace = s.fSpace := rfl
@[simp] theorem storeSymbols_fMark (vs : List Byte) (s : State) : (s.storeSymbols vs).fMark = s.fMark := rfl
@[simp] theorem storeSymbols_ampl (vs : List Byte) (s : State) : (s.storeSymbols vs).ampl = s.ampl := rfl
@[simp] theorem storeSymbols_bandLo (vs : List Byte) (s : State) : (s.storeSymbols vs).bandLo = s.bandLo := rfl
@[simp] theorem storeSymbols_bandHi (vs : List Byte) (s : State) : (s.storeSymbols vs).bandHi = s.bandHi := rfl
@[simp] theorem storeSymbols_level (vs : List Byte) (s : State) : (s.storeSymbols vs).level = s.level := rfl
@[simp] theorem storeSymbols_rngState (vs : List Byte) (s : State) : (s.storeSymbols vs).rngState = s.rngState := rfl
@[simp] theorem storeSymbols_winOff (vs : List Byte) (s : State) : (s.storeSymbols vs).winOff = s.winOff := rfl
@[simp] theorem storeSymbols_winLen (vs : List Byte) (s : State) : (s.storeSymbols vs).winLen = s.winLen := rfl
@[simp] theorem storeSymbols_byteLen (vs : List Byte) (s : State) : (s.storeSymbols vs).byteLen = s.byteLen := rfl
@[simp] theorem storeSymbols_symLen (vs : List Byte) (s : State) : (s.storeSymbols vs).symLen = BitVec.ofNat 32 vs.length := rfl
@[simp] theorem storeSymbols_waveLen0 (vs : List Byte) (s : State) : (s.storeSymbols vs).waveLen0 = s.waveLen0 := rfl
@[simp] theorem storeSymbols_waveLen1 (vs : List Byte) (s : State) : (s.storeSymbols vs).waveLen1 = s.waveLen1 := rfl
@[simp] theorem storeSymbols_log2n (vs : List Byte) (s : State) : (s.storeSymbols vs).log2n = s.log2n := rfl
@[simp] theorem storeSymbols_peakBin (vs : List Byte) (s : State) : (s.storeSymbols vs).peakBin = s.peakBin := rfl
@[simp] theorem storeSymbols_peakBit (vs : List Byte) (s : State) : (s.storeSymbols vs).peakBit = s.peakBit := rfl
@[simp] theorem storeSymbols_peakNoband (vs : List Byte) (s : State) : (s.storeSymbols vs).peakNoband = s.peakNoband := rfl
@[simp] theorem storeSymbols_invsymCnt (vs : List Byte) (s : State) : (s.storeSymbols vs).invsymCnt = s.invsymCnt := rfl
@[simp] theorem storeSymbols_nobandCnt (vs : List Byte) (s : State) : (s.storeSymbols vs).nobandCnt = s.nobandCnt := rfl
@[simp] theorem storeSymbols_mem (vs : List Byte) (s : State) : (s.storeSymbols vs).mem = { s.mem with symBuf := s.mem.symBuf.fill vs } := rfl
@[simp] theorem storeSymbols_schedule (vs : List Byte) (s : State) : (s.storeSymbols vs).schedule = s.schedule := rfl
@[simp] theorem storeSymbols_reply (vs : List Byte) (s : State) : (s.storeSymbols vs).reply = s.reply := rfl
@[simp] theorem storeSymbols_resets (vs : List Byte) (s : State) : (s.storeSymbols vs).resets = s.resets := rfl
@[simp] theorem storeSymbols_draws (vs : List Byte) (s : State) : (s.storeSymbols vs).draws = s.draws := rfl

/-! ### storeSpectrum -/

@[simp] theorem storeSpectrum_params (len : Nat) (vs : List Mag) (s : State) : (s.storeSpectrum len vs).params = s.params := rfl
@[simp] theorem storeSpectrum_ieDone (len : Nat) (vs : List Mag) (s : State) : (s.storeSpectrum len vs).ieDone = s.ieDone := rfl
@[simp] theorem storeSpectrum_ieErr (len : Nat) (vs : List Mag) (s : State) : (s.storeSpectrum len vs).ieErr = s.ieErr := rfl
@[simp] theorem storeSpectrum_cmd (len : Nat) (vs : List Mag) (s : State) : (s.storeSpectrum len vs).cmd = s.cmd := rfl
@[simp] theorem storeSpectrum_busy (len : Nat) (vs : List Mag) (s : State) : (s.storeSpectrum len vs).busy = s.busy := rfl
@[simp] theorem storeSpectrum_fin (len : Nat) (vs : List Mag) (s : State) : (s.storeSpectrum len vs).fin = s.fin := rfl
@[simp] theorem storeSpectrum_err (len : Nat) (vs : List Mag) (s : State) : (s.storeSpectrum len vs).err = s.err := rfl
@[simp] theorem storeSpectrum_errCode (len : Nat) (vs : List Mag) (s : State) : (s.storeSpectrum len vs).errCode = s.errCode := rfl
@[simp] theorem storeSpectrum_flags (len : Nat) (vs : List Mag) (s : State) : (s.storeSpectrum len vs).flags = s.flags := rfl
@[simp] theorem storeSpectrum_srate (len : Nat) (vs : List Mag) (s : State) : (s.storeSpectrum len vs).srate = s.srate := rfl
@[simp] theorem storeSpectrum_symdurNum (len : Nat) (vs : List Mag) (s : State) : (s.storeSpectrum len vs).symdurNum = s.symdurNum := rfl
@[simp] theorem storeSpectrum_symdurDen (len : Nat) (vs : List Mag) (s : State) : (s.storeSpectrum len vs).symdurDen = s.symdurDen := rfl
@[simp] theorem storeSpectrum_fSpace (len : Nat) (vs : List Mag) (s : State) : (s.storeSpectrum len vs).fSpace = s.fSpace := rfl
@[simp] theorem storeSpectrum_fMark (len : Nat) (vs : List Mag) (s : State) : (s.storeSpectrum len vs).fMark = s.fMark := rfl
@[simp] theorem storeSpectrum_ampl (len : Nat) (vs : List Mag) (s : State) : (s.storeSpectrum len vs).ampl = s.ampl := rfl
@[simp] theorem storeSpectrum_bandLo (len : Nat) (vs : List Mag) (s : State) : (s.storeSpectrum len vs).bandLo = s.bandLo := rfl
@[simp] theorem storeSpectrum_bandHi (len : Nat) (vs : List Mag) (s : State) : (s.storeSpectrum len vs).bandHi = s.bandHi := rfl
@[simp] theorem storeSpectrum_level (len : Nat) (vs : List Mag) (s : State) : (s.storeSpectrum len vs).level = s.level := rfl
@[simp] theorem storeSpectrum_rngState (len : Nat) (vs : List Mag) (s : State) : (s.storeSpectrum len vs).rngState = s.rngState := rfl
@[simp] theorem storeSpectrum_winOff (len : Nat) (vs : List Mag) (s : State) : (s.storeSpectrum len vs).winOff = s.winOff := rfl
@[simp] theorem storeSpectrum_winLen (len : Nat) (vs : List Mag) (s : State) : (s.storeSpectrum len vs).winLen = s.winLen := rfl
@[simp] theorem storeSpectrum_byteLen (len : Nat) (vs : List Mag) (s : State) : (s.storeSpectrum len vs).byteLen = s.byteLen := rfl
@[simp] theorem storeSpectrum_symLen (len : Nat) (vs : List Mag) (s : State) : (s.storeSpectrum len vs).symLen = s.symLen := rfl
@[simp] theorem storeSpectrum_waveLen0 (len : Nat) (vs : List Mag) (s : State) : (s.storeSpectrum len vs).waveLen0 = s.waveLen0 := rfl
@[simp] theorem storeSpectrum_waveLen1 (len : Nat) (vs : List Mag) (s : State) : (s.storeSpectrum len vs).waveLen1 = s.waveLen1 := rfl
@[simp] theorem storeSpectrum_log2n (len : Nat) (vs : List Mag) (s : State) : (s.storeSpectrum len vs).log2n = BitVec.ofNat 5 (log2gt len) := rfl
@[simp] theorem storeSpectrum_peakBin (len : Nat) (vs : List Mag) (s : State) : (s.storeSpectrum len vs).peakBin = s.peakBin := rfl
@[simp] theorem storeSpectrum_peakBit (len : Nat) (vs : List Mag) (s : State) : (s.storeSpectrum len vs).peakBit = s.peakBit := rfl
@[simp] theorem storeSpectrum_peakNoband (len : Nat) (vs : List Mag) (s : State) : (s.storeSpectrum len vs).peakNoband = s.peakNoband := rfl
@[simp] theorem storeSpectrum_invsymCnt (len : Nat) (vs : List Mag) (s : State) : (s.storeSpectrum len vs).invsymCnt = s.invsymCnt := rfl
@[simp] theorem storeSpectrum_nobandCnt (len : Nat) (vs : List Mag) (s : State) : (s.storeSpectrum len vs).nobandCnt = s.nobandCnt := rfl
@[simp] theorem storeSpectrum_mem (len : Nat) (vs : List Mag) (s : State) : (s.storeSpectrum len vs).mem = { s.mem with mag := s.mem.mag.fill vs } := rfl
@[simp] theorem storeSpectrum_schedule (len : Nat) (vs : List Mag) (s : State) : (s.storeSpectrum len vs).schedule = s.schedule := rfl
@[simp] theorem storeSpectrum_reply (len : Nat) (vs : List Mag) (s : State) : (s.storeSpectrum len vs).reply = s.reply := rfl
@[simp] theorem storeSpectrum_resets (len : Nat) (vs : List Mag) (s : State) : (s.storeSpectrum len vs).resets = s.resets := rfl
@[simp] theorem storeSpectrum_draws (len : Nat) (vs : List Mag) (s : State) : (s.storeSpectrum len vs).draws = s.draws := rfl

/-! ### storeWindow -/

@[simp] theorem storeWindow_params (r : Window) (s : State) : (s.storeWindow r).params = s.params := rfl
@[simp] theorem storeWindow_ieDone (r : Window) (s : State) : (s.storeWindow r).ieDone = s.ieDone := rfl
@[simp] theorem storeWindow_ieErr (r : Window) (s : State) : (s.storeWindow r).ieErr = s.ieErr := rfl
@[simp] theorem storeWindow_cmd (r : Window) (s : State) : (s.storeWindow r).cmd = s.cmd := rfl
@[simp] theorem storeWindow_busy (r : Window) (s : State) : (s.storeWindow r).busy = s.busy := rfl
@[simp] theorem storeWindow_fin (r : Window) (s : State) : (s.storeWindow r).fin = s.fin := rfl
@[simp] theorem storeWindow_err (r : Window) (s : State) : (s.storeWindow r).err = s.err := rfl
@[simp] theorem storeWindow_errCode (r : Window) (s : State) : (s.storeWindow r).errCode = s.errCode := rfl
@[simp] theorem storeWindow_flags (r : Window) (s : State) : (s.storeWindow r).flags = s.flags := rfl
@[simp] theorem storeWindow_srate (r : Window) (s : State) : (s.storeWindow r).srate = s.srate := rfl
@[simp] theorem storeWindow_symdurNum (r : Window) (s : State) : (s.storeWindow r).symdurNum = s.symdurNum := rfl
@[simp] theorem storeWindow_symdurDen (r : Window) (s : State) : (s.storeWindow r).symdurDen = s.symdurDen := rfl
@[simp] theorem storeWindow_fSpace (r : Window) (s : State) : (s.storeWindow r).fSpace = s.fSpace := rfl
@[simp] theorem storeWindow_fMark (r : Window) (s : State) : (s.storeWindow r).fMark = s.fMark := rfl
@[simp] theorem storeWindow_ampl (r : Window) (s : State) : (s.storeWindow r).ampl = s.ampl := rfl
@[simp] theorem storeWindow_bandLo (r : Window) (s : State) : (s.storeWindow r).bandLo = s.bandLo := rfl
@[simp] theorem storeWindow_bandHi (r : Window) (s : State) : (s.storeWindow r).bandHi = s.bandHi := rfl
@[simp] theorem storeWindow_level (r : Window) (s : State) : (s.storeWindow r).level = s.level := rfl
@[simp] theorem storeWindow_rngState (r : Window) (s : State) : (s.storeWindow r).rngState = s.rngState := rfl
@[simp] theorem storeWindow_winOff (r : Window) (s : State) : (s.storeWindow r).winOff = s.winOff := rfl
@[simp] theorem storeWindow_winLen (r : Window) (s : State) : (s.storeWindow r).winLen = s.winLen := rfl
@[simp] theorem storeWindow_byteLen (r : Window) (s : State) : (s.storeWindow r).byteLen = s.byteLen := rfl
@[simp] theorem storeWindow_symLen (r : Window) (s : State) : (s.storeWindow r).symLen = s.symLen := rfl
@[simp] theorem storeWindow_waveLen0 (r : Window) (s : State) : (s.storeWindow r).waveLen0 = s.waveLen0 := rfl
@[simp] theorem storeWindow_waveLen1 (r : Window) (s : State) : (s.storeWindow r).waveLen1 = s.waveLen1 := rfl
@[simp] theorem storeWindow_log2n (r : Window) (s : State) : (s.storeWindow r).log2n = BitVec.ofNat 5 (log2gt r.len) := rfl
@[simp] theorem storeWindow_peakBin (r : Window) (s : State) : (s.storeWindow r).peakBin = BitVec.ofNat 16 r.peak := rfl
@[simp] theorem storeWindow_peakBit (r : Window) (s : State) : (s.storeWindow r).peakBit = r.bit := rfl
@[simp] theorem storeWindow_peakNoband (r : Window) (s : State) : (s.storeWindow r).peakNoband = r.noband := rfl
@[simp] theorem storeWindow_invsymCnt (r : Window) (s : State) : (s.storeWindow r).invsymCnt = s.invsymCnt := rfl
@[simp] theorem storeWindow_nobandCnt (r : Window) (s : State) : (s.storeWindow r).nobandCnt = s.nobandCnt := rfl
@[simp] theorem storeWindow_mem (r : Window) (s : State) : (s.storeWindow r).mem = { s.mem with mag := s.mem.mag.fill r.mag } := rfl
@[simp] theorem storeWindow_schedule (r : Window) (s : State) : (s.storeWindow r).schedule = s.schedule := rfl
@[simp] theorem storeWindow_reply (r : Window) (s : State) : (s.storeWindow r).reply = s.reply := rfl
@[simp] theorem storeWindow_resets (r : Window) (s : State) : (s.storeWindow r).resets = s.resets := rfl
@[simp] theorem storeWindow_draws (r : Window) (s : State) : (s.storeWindow r).draws = s.draws := rfl

/-! ### resetAgain -/

@[simp] theorem resetAgain_params (s : State) : s.resetAgain.params = s.params := rfl
@[simp] theorem resetAgain_ieDone (s : State) : s.resetAgain.ieDone = State.reset.ieDone := rfl
@[simp] theorem resetAgain_ieErr (s : State) : s.resetAgain.ieErr = State.reset.ieErr := rfl
@[simp] theorem resetAgain_cmd (s : State) : s.resetAgain.cmd = State.reset.cmd := rfl
@[simp] theorem resetAgain_busy (s : State) : s.resetAgain.busy = State.reset.busy := rfl
@[simp] theorem resetAgain_fin (s : State) : s.resetAgain.fin = State.reset.fin := rfl
@[simp] theorem resetAgain_err (s : State) : s.resetAgain.err = State.reset.err := rfl
@[simp] theorem resetAgain_errCode (s : State) : s.resetAgain.errCode = State.reset.errCode := rfl
@[simp] theorem resetAgain_flags (s : State) : s.resetAgain.flags = State.reset.flags := rfl
@[simp] theorem resetAgain_srate (s : State) : s.resetAgain.srate = State.reset.srate := rfl
@[simp] theorem resetAgain_symdurNum (s : State) : s.resetAgain.symdurNum = State.reset.symdurNum := rfl
@[simp] theorem resetAgain_symdurDen (s : State) : s.resetAgain.symdurDen = State.reset.symdurDen := rfl
@[simp] theorem resetAgain_fSpace (s : State) : s.resetAgain.fSpace = State.reset.fSpace := rfl
@[simp] theorem resetAgain_fMark (s : State) : s.resetAgain.fMark = State.reset.fMark := rfl
@[simp] theorem resetAgain_ampl (s : State) : s.resetAgain.ampl = State.reset.ampl := rfl
@[simp] theorem resetAgain_bandLo (s : State) : s.resetAgain.bandLo = State.reset.bandLo := rfl
@[simp] theorem resetAgain_bandHi (s : State) : s.resetAgain.bandHi = State.reset.bandHi := rfl
@[simp] theorem resetAgain_level (s : State) : s.resetAgain.level = State.reset.level := rfl
@[simp] theorem resetAgain_rngState (s : State) : s.resetAgain.rngState = Config.freeRng (s.resets + 1) := rfl
@[simp] theorem resetAgain_winOff (s : State) : s.resetAgain.winOff = State.reset.winOff := rfl
@[simp] theorem resetAgain_winLen (s : State) : s.resetAgain.winLen = State.reset.winLen := rfl
@[simp] theorem resetAgain_byteLen (s : State) : s.resetAgain.byteLen = State.reset.byteLen := rfl
@[simp] theorem resetAgain_symLen (s : State) : s.resetAgain.symLen = State.reset.symLen := rfl
@[simp] theorem resetAgain_waveLen0 (s : State) : s.resetAgain.waveLen0 = State.reset.waveLen0 := rfl
@[simp] theorem resetAgain_waveLen1 (s : State) : s.resetAgain.waveLen1 = State.reset.waveLen1 := rfl
@[simp] theorem resetAgain_log2n (s : State) : s.resetAgain.log2n = State.reset.log2n := rfl
@[simp] theorem resetAgain_peakBin (s : State) : s.resetAgain.peakBin = State.reset.peakBin := rfl
@[simp] theorem resetAgain_peakBit (s : State) : s.resetAgain.peakBit = State.reset.peakBit := rfl
@[simp] theorem resetAgain_peakNoband (s : State) : s.resetAgain.peakNoband = State.reset.peakNoband := rfl
@[simp] theorem resetAgain_invsymCnt (s : State) : s.resetAgain.invsymCnt = State.reset.invsymCnt := rfl
@[simp] theorem resetAgain_nobandCnt (s : State) : s.resetAgain.nobandCnt = State.reset.nobandCnt := rfl
@[simp] theorem resetAgain_mem (s : State) : s.resetAgain.mem = State.reset.mem := rfl
@[simp] theorem resetAgain_schedule (s : State) : s.resetAgain.schedule = s.schedule := rfl
@[simp] theorem resetAgain_reply (s : State) : s.resetAgain.reply = s.reply := rfl
@[simp] theorem resetAgain_resets (s : State) : s.resetAgain.resets = s.resets + 1 := rfl
@[simp] theorem resetAgain_draws (s : State) : s.resetAgain.draws = s.draws := rfl

/-! ### setWaveLen, storeWave -/

@[simp] theorem setWaveLen_params (b : Bank) (v : Word) (s : State) : (s.setWaveLen b v).params = s.params := by
  cases b <;> rfl
@[simp] theorem setWaveLen_ieDone (b : Bank) (v : Word) (s : State) : (s.setWaveLen b v).ieDone = s.ieDone := by
  cases b <;> rfl
@[simp] theorem setWaveLen_ieErr (b : Bank) (v : Word) (s : State) : (s.setWaveLen b v).ieErr = s.ieErr := by
  cases b <;> rfl
@[simp] theorem setWaveLen_cmd (b : Bank) (v : Word) (s : State) : (s.setWaveLen b v).cmd = s.cmd := by
  cases b <;> rfl
@[simp] theorem setWaveLen_busy (b : Bank) (v : Word) (s : State) : (s.setWaveLen b v).busy = s.busy := by
  cases b <;> rfl
@[simp] theorem setWaveLen_fin (b : Bank) (v : Word) (s : State) : (s.setWaveLen b v).fin = s.fin := by
  cases b <;> rfl
@[simp] theorem setWaveLen_err (b : Bank) (v : Word) (s : State) : (s.setWaveLen b v).err = s.err := by
  cases b <;> rfl
@[simp] theorem setWaveLen_errCode (b : Bank) (v : Word) (s : State) : (s.setWaveLen b v).errCode = s.errCode := by
  cases b <;> rfl
@[simp] theorem setWaveLen_flags (b : Bank) (v : Word) (s : State) : (s.setWaveLen b v).flags = s.flags := by
  cases b <;> rfl
@[simp] theorem setWaveLen_srate (b : Bank) (v : Word) (s : State) : (s.setWaveLen b v).srate = s.srate := by
  cases b <;> rfl
@[simp] theorem setWaveLen_symdurNum (b : Bank) (v : Word) (s : State) : (s.setWaveLen b v).symdurNum = s.symdurNum := by
  cases b <;> rfl
@[simp] theorem setWaveLen_symdurDen (b : Bank) (v : Word) (s : State) : (s.setWaveLen b v).symdurDen = s.symdurDen := by
  cases b <;> rfl
@[simp] theorem setWaveLen_fSpace (b : Bank) (v : Word) (s : State) : (s.setWaveLen b v).fSpace = s.fSpace := by
  cases b <;> rfl
@[simp] theorem setWaveLen_fMark (b : Bank) (v : Word) (s : State) : (s.setWaveLen b v).fMark = s.fMark := by
  cases b <;> rfl
@[simp] theorem setWaveLen_ampl (b : Bank) (v : Word) (s : State) : (s.setWaveLen b v).ampl = s.ampl := by
  cases b <;> rfl
@[simp] theorem setWaveLen_bandLo (b : Bank) (v : Word) (s : State) : (s.setWaveLen b v).bandLo = s.bandLo := by
  cases b <;> rfl
@[simp] theorem setWaveLen_bandHi (b : Bank) (v : Word) (s : State) : (s.setWaveLen b v).bandHi = s.bandHi := by
  cases b <;> rfl
@[simp] theorem setWaveLen_level (b : Bank) (v : Word) (s : State) : (s.setWaveLen b v).level = s.level := by
  cases b <;> rfl
@[simp] theorem setWaveLen_rngState (b : Bank) (v : Word) (s : State) : (s.setWaveLen b v).rngState = s.rngState := by
  cases b <;> rfl
@[simp] theorem setWaveLen_winOff (b : Bank) (v : Word) (s : State) : (s.setWaveLen b v).winOff = s.winOff := by
  cases b <;> rfl
@[simp] theorem setWaveLen_winLen (b : Bank) (v : Word) (s : State) : (s.setWaveLen b v).winLen = s.winLen := by
  cases b <;> rfl
@[simp] theorem setWaveLen_byteLen (b : Bank) (v : Word) (s : State) : (s.setWaveLen b v).byteLen = s.byteLen := by
  cases b <;> rfl
@[simp] theorem setWaveLen_symLen (b : Bank) (v : Word) (s : State) : (s.setWaveLen b v).symLen = s.symLen := by
  cases b <;> rfl
@[simp] theorem setWaveLen_log2n (b : Bank) (v : Word) (s : State) : (s.setWaveLen b v).log2n = s.log2n := by
  cases b <;> rfl
@[simp] theorem setWaveLen_peakBin (b : Bank) (v : Word) (s : State) : (s.setWaveLen b v).peakBin = s.peakBin := by
  cases b <;> rfl
@[simp] theorem setWaveLen_peakBit (b : Bank) (v : Word) (s : State) : (s.setWaveLen b v).peakBit = s.peakBit := by
  cases b <;> rfl
@[simp] theorem setWaveLen_peakNoband (b : Bank) (v : Word) (s : State) : (s.setWaveLen b v).peakNoband = s.peakNoband := by
  cases b <;> rfl
@[simp] theorem setWaveLen_invsymCnt (b : Bank) (v : Word) (s : State) : (s.setWaveLen b v).invsymCnt = s.invsymCnt := by
  cases b <;> rfl
@[simp] theorem setWaveLen_nobandCnt (b : Bank) (v : Word) (s : State) : (s.setWaveLen b v).nobandCnt = s.nobandCnt := by
  cases b <;> rfl
@[simp] theorem setWaveLen_mem (b : Bank) (v : Word) (s : State) : (s.setWaveLen b v).mem = s.mem := by
  cases b <;> rfl
@[simp] theorem setWaveLen_schedule (b : Bank) (v : Word) (s : State) : (s.setWaveLen b v).schedule = s.schedule := by
  cases b <;> rfl
@[simp] theorem setWaveLen_reply (b : Bank) (v : Word) (s : State) : (s.setWaveLen b v).reply = s.reply := by
  cases b <;> rfl
@[simp] theorem setWaveLen_resets (b : Bank) (v : Word) (s : State) : (s.setWaveLen b v).resets = s.resets := by
  cases b <;> rfl
@[simp] theorem setWaveLen_draws (b : Bank) (v : Word) (s : State) : (s.setWaveLen b v).draws = s.draws := by
  cases b <;> rfl
@[simp] theorem storeWave_params (b : Bank) (vs : List Sample) (s : State) : (s.storeWave b vs).params = s.params := by
  cases b <;> rfl
@[simp] theorem storeWave_ieDone (b : Bank) (vs : List Sample) (s : State) : (s.storeWave b vs).ieDone = s.ieDone := by
  cases b <;> rfl
@[simp] theorem storeWave_ieErr (b : Bank) (vs : List Sample) (s : State) : (s.storeWave b vs).ieErr = s.ieErr := by
  cases b <;> rfl
@[simp] theorem storeWave_cmd (b : Bank) (vs : List Sample) (s : State) : (s.storeWave b vs).cmd = s.cmd := by
  cases b <;> rfl
@[simp] theorem storeWave_busy (b : Bank) (vs : List Sample) (s : State) : (s.storeWave b vs).busy = s.busy := by
  cases b <;> rfl
@[simp] theorem storeWave_fin (b : Bank) (vs : List Sample) (s : State) : (s.storeWave b vs).fin = s.fin := by
  cases b <;> rfl
@[simp] theorem storeWave_err (b : Bank) (vs : List Sample) (s : State) : (s.storeWave b vs).err = s.err := by
  cases b <;> rfl
@[simp] theorem storeWave_errCode (b : Bank) (vs : List Sample) (s : State) : (s.storeWave b vs).errCode = s.errCode := by
  cases b <;> rfl
@[simp] theorem storeWave_flags (b : Bank) (vs : List Sample) (s : State) : (s.storeWave b vs).flags = s.flags := by
  cases b <;> rfl
@[simp] theorem storeWave_srate (b : Bank) (vs : List Sample) (s : State) : (s.storeWave b vs).srate = s.srate := by
  cases b <;> rfl
@[simp] theorem storeWave_symdurNum (b : Bank) (vs : List Sample) (s : State) : (s.storeWave b vs).symdurNum = s.symdurNum := by
  cases b <;> rfl
@[simp] theorem storeWave_symdurDen (b : Bank) (vs : List Sample) (s : State) : (s.storeWave b vs).symdurDen = s.symdurDen := by
  cases b <;> rfl
@[simp] theorem storeWave_fSpace (b : Bank) (vs : List Sample) (s : State) : (s.storeWave b vs).fSpace = s.fSpace := by
  cases b <;> rfl
@[simp] theorem storeWave_fMark (b : Bank) (vs : List Sample) (s : State) : (s.storeWave b vs).fMark = s.fMark := by
  cases b <;> rfl
@[simp] theorem storeWave_ampl (b : Bank) (vs : List Sample) (s : State) : (s.storeWave b vs).ampl = s.ampl := by
  cases b <;> rfl
@[simp] theorem storeWave_bandLo (b : Bank) (vs : List Sample) (s : State) : (s.storeWave b vs).bandLo = s.bandLo := by
  cases b <;> rfl
@[simp] theorem storeWave_bandHi (b : Bank) (vs : List Sample) (s : State) : (s.storeWave b vs).bandHi = s.bandHi := by
  cases b <;> rfl
@[simp] theorem storeWave_level (b : Bank) (vs : List Sample) (s : State) : (s.storeWave b vs).level = s.level := by
  cases b <;> rfl
@[simp] theorem storeWave_rngState (b : Bank) (vs : List Sample) (s : State) : (s.storeWave b vs).rngState = s.rngState := by
  cases b <;> rfl
@[simp] theorem storeWave_winOff (b : Bank) (vs : List Sample) (s : State) : (s.storeWave b vs).winOff = s.winOff := by
  cases b <;> rfl
@[simp] theorem storeWave_winLen (b : Bank) (vs : List Sample) (s : State) : (s.storeWave b vs).winLen = s.winLen := by
  cases b <;> rfl
@[simp] theorem storeWave_byteLen (b : Bank) (vs : List Sample) (s : State) : (s.storeWave b vs).byteLen = s.byteLen := by
  cases b <;> rfl
@[simp] theorem storeWave_symLen (b : Bank) (vs : List Sample) (s : State) : (s.storeWave b vs).symLen = s.symLen := by
  cases b <;> rfl
@[simp] theorem storeWave_log2n (b : Bank) (vs : List Sample) (s : State) : (s.storeWave b vs).log2n = s.log2n := by
  cases b <;> rfl
@[simp] theorem storeWave_peakBin (b : Bank) (vs : List Sample) (s : State) : (s.storeWave b vs).peakBin = s.peakBin := by
  cases b <;> rfl
@[simp] theorem storeWave_peakBit (b : Bank) (vs : List Sample) (s : State) : (s.storeWave b vs).peakBit = s.peakBit := by
  cases b <;> rfl
@[simp] theorem storeWave_peakNoband (b : Bank) (vs : List Sample) (s : State) : (s.storeWave b vs).peakNoband = s.peakNoband := by
  cases b <;> rfl
@[simp] theorem storeWave_invsymCnt (b : Bank) (vs : List Sample) (s : State) : (s.storeWave b vs).invsymCnt = s.invsymCnt := by
  cases b <;> rfl
@[simp] theorem storeWave_nobandCnt (b : Bank) (vs : List Sample) (s : State) : (s.storeWave b vs).nobandCnt = s.nobandCnt := by
  cases b <;> rfl
@[simp] theorem storeWave_schedule (b : Bank) (vs : List Sample) (s : State) : (s.storeWave b vs).schedule = s.schedule := by
  cases b <;> rfl
@[simp] theorem storeWave_reply (b : Bank) (vs : List Sample) (s : State) : (s.storeWave b vs).reply = s.reply := by
  cases b <;> rfl
@[simp] theorem storeWave_resets (b : Bank) (vs : List Sample) (s : State) : (s.storeWave b vs).resets = s.resets := by
  cases b <;> rfl
@[simp] theorem storeWave_draws (b : Bank) (vs : List Sample) (s : State) : (s.storeWave b vs).draws = s.draws := by
  cases b <;> rfl
@[simp] theorem storeWave_mem (b : Bank) (vs : List Sample) (s : State) :
    (s.storeWave b vs).mem = s.mem.setWave b ((s.mem.wave b).fill vs) := by
  cases b <;> rfl
@[simp] theorem storeWave_waveLen_same (b : Bank) (vs : List Sample) (s : State) :
    (s.storeWave b vs).waveLen b = BitVec.ofNat 32 vs.length := by
  cases b <;> rfl
theorem storeWave_waveLen_other {b c : Bank} (h : c ≠ b) (vs : List Sample) (s : State) :
    (s.storeWave b vs).waveLen c = s.waveLen c := by
  cases b <;> cases c <;> first | rfl | exact absurd rfl h

/-! ### Banks of the memory -/

@[simp] theorem setWave_wave_same (m : Memory) (b : Bank) (v : Buf 16) : (m.setWave b v).wave b = v := by
  cases b <;> rfl
theorem setWave_wave_other {b c : Bank} (h : c ≠ b) (m : Memory) (v : Buf 16) : (m.setWave b v).wave c = m.wave c := by
  cases b <;> cases c <;> first | rfl | exact absurd rfl h
@[simp] theorem setWave_byteBuf (m : Memory) (b : Bank) (v : Buf 16) : (m.setWave b v).byteBuf = m.byteBuf := by
  cases b <;> rfl
@[simp] theorem setWave_symBuf (m : Memory) (b : Bank) (v : Buf 16) : (m.setWave b v).symBuf = m.symBuf := by
  cases b <;> rfl
@[simp] theorem setWave_mag (m : Memory) (b : Bank) (v : Buf 16) : (m.setWave b v).mag = m.mag := by
  cases b <;> rfl

/-! ### Flags -/

@[simp] theorem noteInvsym_invsym (b : Bool) (f : Flags) : (f.noteInvsym b).invsym = (f.invsym || b) := rfl
@[simp] theorem noteInvsym_shortwin (b : Bool) (f : Flags) : (f.noteInvsym b).shortwin = f.shortwin := rfl
@[simp] theorem noteInvsym_noband (b : Bool) (f : Flags) : (f.noteInvsym b).noband = f.noband := rfl
@[simp] theorem noteInvsym_busyacc (b : Bool) (f : Flags) : (f.noteInvsym b).busyacc = f.busyacc := rfl
@[simp] theorem noteInvsym_badaddr (b : Bool) (f : Flags) : (f.noteInvsym b).badaddr = f.badaddr := rfl
@[simp] theorem noteShortwin_invsym (b : Bool) (f : Flags) : (f.noteShortwin b).invsym = f.invsym := rfl
@[simp] theorem noteShortwin_shortwin (b : Bool) (f : Flags) : (f.noteShortwin b).shortwin = (f.shortwin || b) := rfl
@[simp] theorem noteShortwin_noband (b : Bool) (f : Flags) : (f.noteShortwin b).noband = f.noband := rfl
@[simp] theorem noteShortwin_busyacc (b : Bool) (f : Flags) : (f.noteShortwin b).busyacc = f.busyacc := rfl
@[simp] theorem noteShortwin_badaddr (b : Bool) (f : Flags) : (f.noteShortwin b).badaddr = f.badaddr := rfl
@[simp] theorem noteNoband_invsym (b : Bool) (f : Flags) : (f.noteNoband b).invsym = f.invsym := rfl
@[simp] theorem noteNoband_shortwin (b : Bool) (f : Flags) : (f.noteNoband b).shortwin = f.shortwin := rfl
@[simp] theorem noteNoband_noband (b : Bool) (f : Flags) : (f.noteNoband b).noband = (f.noband || b) := rfl
@[simp] theorem noteNoband_busyacc (b : Bool) (f : Flags) : (f.noteNoband b).busyacc = f.busyacc := rfl
@[simp] theorem noteNoband_badaddr (b : Bool) (f : Flags) : (f.noteNoband b).badaddr = f.badaddr := rfl

end Sys2Proof.Machine
end

