-- ==== Sys2Proof/Laws/Memory.lean ====
section
/-! SUPPORT. Reading after writing, and the canonical form, for buffers and for the memory. -/

namespace Sys2Proof.Machine

variable {w : Nat}

/-! ### Reading after writing -/

@[simp] theorem Buf.find_nil (i : Nat) : Buf.find ([] : Buf w) i = none := rfl

theorem Buf.find_cons (j : Nat) (v : BitVec w) (b : Buf w) (i : Nat) :
    Buf.find ((j, v) :: b) i = if j = i then some v else Buf.find b i := rfl

theorem Buf.find_put_same (b : Buf w) (i : Nat) (v : BitVec w) : (b.put i v).find i = some v := by
  induction b with
  | nil => simp [Buf.put, Buf.find_cons]
  | cons e b ih =>
    obtain ⟨j, u⟩ := e
    unfold Buf.put
    split
    · simp [Buf.find_cons]
    · split
      · simp [Buf.find_cons]
      · rw [Buf.find_cons, if_neg (by omega), ih]

theorem Buf.find_put_other (b : Buf w) {i k : Nat} (h : k ≠ i) (v : BitVec w) : (b.put i v).find k = b.find k := by
  induction b with
  | nil => simp [Buf.put, Buf.find_cons, Ne.symm h]
  | cons e b ih =>
    obtain ⟨j, u⟩ := e
    unfold Buf.put
    split
    · rw [Buf.find_cons, if_neg (Ne.symm h)]
    · split
      · next hij => subst hij; simp [Buf.find_cons, Ne.symm h]
      · simp [Buf.find_cons, ih]

theorem Buf.find_numbered (vs : List (BitVec w)) (i k : Nat) :
    (Buf.numbered i vs).find k = if i ≤ k then vs[k - i]? else none := by
  induction vs generalizing i with
  | nil => simp [Buf.numbered]
  | cons v vs ih =>
    rw [Buf.numbered, Buf.find_cons, ih]
    by_cases h : i = k
    · subst h; simp
    · rw [if_neg h]
      by_cases h' : i ≤ k
      · have : k - i = (k - (i + 1)) + 1 := by omega
        rw [if_pos h', if_pos (by omega), this]; simp
      · rw [if_neg h', if_neg (by omega)]

theorem Buf.find_append (a b : Buf w) (k : Nat) : Buf.find (a ++ b) k = (a.find k).or (b.find k) := by
  induction a with
  | nil => simp
  | cons e a ih =>
    obtain ⟨j, v⟩ := e
    by_cases h : j = k <;> simp [Buf.find_cons, h, ih]

theorem Buf.find_filter (b : Buf w) (n k : Nat) :
    Buf.find (b.filter fun e => decide (n ≤ e.1)) k = if n ≤ k then b.find k else none := by
  induction b with
  | nil => simp
  | cons e b ih =>
    obtain ⟨j, v⟩ := e
    rw [List.filter_cons]
    by_cases hn : n ≤ j
    · rw [if_pos (by simpa using hn), Buf.find_cons, Buf.find_cons, ih]
      by_cases h : j = k
      · subst h; simp [hn]
      · simp [h]
    · rw [if_neg (by simpa using hn), ih, Buf.find_cons]
      by_cases h : j = k
      · subst h; simp [hn]
      · simp [h]

theorem Buf.find_fill (b : Buf w) (vs : List (BitVec w)) (k : Nat) :
    (b.fill vs).find k = if k < vs.length then vs[k]? else b.find k := by
  rw [Buf.fill, Buf.find_append, Buf.find_numbered, Buf.find_filter]
  by_cases h : k < vs.length
  · simp [h, Nat.not_le.mpr h]
  · simp [h, Nat.not_lt.mp h]

/-- A filled buffer read with any default: the new entry below the length, the old one from it on. -/
theorem Buf.getD_find_fill (b : Buf w) (vs : List (BitVec w)) (k : Nat) (d : BitVec w) :
    ((b.fill vs).find k).getD d = vs[k]?.getD ((b.find k).getD d) := by
  rw [Buf.find_fill]
  by_cases h : k < vs.length
  · simp [h]
  · simp [h]

/-! ### The canonical form -/

theorem Buf.rising_cons (i : Nat) (v : BitVec w) (b : Buf w) :
    Buf.rising ((i, v) :: b) = true ↔ (∀ e ∈ b, i < e.1) ∧ b.rising = true := by
  simp [Buf.rising]

theorem Buf.below_iff (n : Nat) (b : Buf w) : b.below n = true ↔ ∀ e ∈ b, e.1 < n := by
  simp [Buf.below]

theorem Buf.mem_put {b : Buf w} {i : Nat} {v : BitVec w} {e : Nat × BitVec w} (h : e ∈ b.put i v) :
    e = (i, v) ∨ e ∈ b := by
  induction b with
  | nil => simpa [Buf.put] using h
  | cons e' b ih =>
    obtain ⟨j, u⟩ := e'
    unfold Buf.put at h
    split at h
    · simpa using h
    · split at h
      · rcases List.mem_cons.mp h with h | h
        · exact .inl h
        · exact .inr (List.mem_cons_of_mem _ h)
      · rcases List.mem_cons.mp h with h | h
        · exact .inr (by simp [h])
        · exact (ih h).imp_right (List.mem_cons_of_mem _)

theorem Buf.rising_put {b : Buf w} (h : b.rising = true) (i : Nat) (v : BitVec w) : (b.put i v).rising = true := by
  induction b with
  | nil => simp [Buf.put, Buf.rising]
  | cons e b ih =>
    obtain ⟨j, u⟩ := e
    have hb := (Buf.rising_cons j u b).mp h
    unfold Buf.put
    split
    · next hij =>
      refine (Buf.rising_cons _ _ _).mpr ⟨fun e he => ?_, h⟩
      rcases List.mem_cons.mp he with rfl | he
      · exact hij
      · exact lt_trans hij (hb.1 e he)
    · split
      · next hij => subst hij; exact (Buf.rising_cons _ _ _).mpr hb
      · next h1 h2 =>
        refine (Buf.rising_cons _ _ _).mpr ⟨fun e he => ?_, ih hb.2⟩
        rcases Buf.mem_put he with rfl | he
        · show j < i; omega
        · exact hb.1 e he

theorem Buf.below_put {b : Buf w} {n i : Nat} (h : b.below n = true) (hi : i < n) (v : BitVec w) :
    (b.put i v).below n = true := by
  rw [Buf.below_iff] at h ⊢
  intro e he
  rcases Buf.mem_put he with rfl | he
  · exact hi
  · exact h e he

theorem Buf.mem_numbered {vs : List (BitVec w)} {i : Nat} {e : Nat × BitVec w} (h : e ∈ Buf.numbered i vs) :
    i ≤ e.1 ∧ e.1 < i + vs.length := by
  induction vs generalizing i with
  | nil => simp [Buf.numbered] at h
  | cons v vs ih =>
    rcases List.mem_cons.mp h with rfl | h
    · simp
    · have := ih h
      simp only [List.length_cons]; omega

theorem Buf.rising_numbered (vs : List (BitVec w)) (i : Nat) : (Buf.numbered i vs).rising = true := by
  induction vs generalizing i with
  | nil => rfl
  | cons v vs ih => exact (Buf.rising_cons _ _ _).mpr ⟨fun e he => (Buf.mem_numbered he).1, ih (i + 1)⟩

theorem Buf.rising_filter {b : Buf w} (h : b.rising = true) (p : Nat × BitVec w → Bool) :
    Buf.rising (b.filter p) = true := by
  induction b with
  | nil => rfl
  | cons e b ih =>
    obtain ⟨j, u⟩ := e
    have hb := (Buf.rising_cons j u b).mp h
    rw [List.filter_cons]
    split
    · exact (Buf.rising_cons _ _ _).mpr ⟨fun e he => hb.1 e (List.mem_filter.mp he).1, ih hb.2⟩
    · exact ih hb.2

theorem Buf.rising_append {a b : Buf w} (ha : a.rising = true) (hb : b.rising = true)
    (h : ∀ x ∈ a, ∀ y ∈ b, x.1 < y.1) : Buf.rising (a ++ b) = true := by
  induction a with
  | nil => exact hb
  | cons e a ih =>
    obtain ⟨j, u⟩ := e
    have ha' := (Buf.rising_cons j u a).mp ha
    refine (Buf.rising_cons _ _ _).mpr ⟨fun e he => ?_, ih ha'.2 fun x hx => h x (List.mem_cons_of_mem _ hx)⟩
    rcases List.mem_append.mp he with he | he
    · exact ha'.1 e he
    · exact h (j, u) (List.mem_cons_self ..) e he

theorem Buf.rising_fill {b : Buf w} (h : b.rising = true) (vs : List (BitVec w)) : (b.fill vs).rising = true := by
  refine Buf.rising_append (Buf.rising_numbered vs 0) (Buf.rising_filter h _) fun x hx y hy => ?_
  have hx := (Buf.mem_numbered hx).2
  have hy : vs.length ≤ y.1 := by simpa using (List.mem_filter.mp hy).2
  omega

theorem Buf.below_fill {b : Buf w} {n : Nat} (h : b.below n = true) {vs : List (BitVec w)} (hv : vs.length ≤ n) :
    (b.fill vs).below n = true := by
  rw [Buf.below_iff] at h ⊢
  intro e he
  rcases List.mem_append.mp he with he | he
  · have := (Buf.mem_numbered he).2; omega
  · exact h e (List.mem_filter.mp he).1

/-! ### The memory -/

theorem Memory.wf_iff (m : Memory) : m.wf = true ↔
    m.byteBuf.rising = true ∧ m.symBuf.rising = true ∧ (∀ b, (m.wave b).rising = true) ∧ m.mag.rising = true := by
  unfold Memory.wf
  simp only [Bool.and_eq_true]
  constructor
  · rintro ⟨⟨⟨⟨h1, h2⟩, h3⟩, h4⟩, h5⟩
    exact ⟨h1, h2, fun b => by cases b <;> assumption, h5⟩
  · rintro ⟨h1, h2, h3, h4⟩
    exact ⟨⟨⟨⟨h1, h2⟩, h3 .wave0⟩, h3 .wave1⟩, h4⟩

theorem Memory.within_iff (p : Config.Params) (m : Memory) : m.within p = true ↔
    m.byteBuf.below p.byteDepth = true ∧ m.symBuf.below p.symDepth = true ∧
      (∀ b, (m.wave b).below p.waveDepth = true) ∧ m.mag.below (2 ^ p.log2nMax) = true := by
  unfold Memory.within
  simp only [Bool.and_eq_true]
  constructor
  · rintro ⟨⟨⟨⟨h1, h2⟩, h3⟩, h4⟩, h5⟩
    exact ⟨h1, h2, fun b => by cases b <;> assumption, h5⟩
  · rintro ⟨h1, h2, h3, h4⟩
    exact ⟨⟨⟨⟨h1, h2⟩, h3 .wave0⟩, h3 .wave1⟩, h4⟩

/-- Replacing banks keeps the canonical form when the new bank has it. -/
theorem Memory.wf_setWave {m : Memory} (h : m.wf = true) (b : Bank) {v : Buf 16} (hv : v.rising = true) :
    (m.setWave b v).wf = true := by
  rw [Memory.wf_iff] at h ⊢
  refine ⟨by simpa using h.1, by simpa using h.2.1, fun c => ?_, by simpa using h.2.2.2⟩
  by_cases hc : c = b
  · subst hc; simpa using hv
  · rw [setWave_wave_other hc]; exact h.2.2.1 c

theorem Memory.within_setWave {p : Config.Params} {m : Memory} (h : m.within p = true) (b : Bank) {v : Buf 16}
    (hv : v.below p.waveDepth = true) : (m.setWave b v).within p = true := by
  rw [Memory.within_iff] at h ⊢
  refine ⟨by simpa using h.1, by simpa using h.2.1, fun c => ?_, by simpa using h.2.2.2⟩
  by_cases hc : c = b
  · subst hc; simpa using hv
  · rw [setWave_wave_other hc]; exact h.2.2.1 c

/-- Each store of a command keeps the canonical form. -/
theorem wf_storeBytes {s : State} (h : s.mem.wf = true) (vs : List Byte) : (s.storeBytes vs).mem.wf = true := by
  rw [Memory.wf_iff] at h ⊢
  exact ⟨Buf.rising_fill h.1 vs, h.2⟩

theorem wf_storeSymbols {s : State} (h : s.mem.wf = true) (vs : List Byte) : (s.storeSymbols vs).mem.wf = true := by
  rw [Memory.wf_iff] at h ⊢
  exact ⟨h.1, Buf.rising_fill h.2.1 vs, h.2.2⟩

theorem wf_storeWave {s : State} (h : s.mem.wf = true) (b : Bank) (vs : List Sample) :
    (s.storeWave b vs).mem.wf = true := by
  rw [storeWave_mem]
  exact Memory.wf_setWave h b (Buf.rising_fill (((Memory.wf_iff _).mp h).2.2.1 b) vs)

theorem wf_storeSpectrum {s : State} (h : s.mem.wf = true) (len : Nat) (vs : List Mag) :
    (s.storeSpectrum len vs).mem.wf = true := by
  rw [Memory.wf_iff] at h ⊢
  exact ⟨h.1, h.2.1, h.2.2.1, Buf.rising_fill h.2.2.2 vs⟩

theorem wf_storeWindow {s : State} (h : s.mem.wf = true) (r : Window) : (s.storeWindow r).mem.wf = true :=
  wf_storeSpectrum h r.len r.mag

/-- Each store of a command stays inside the depths when what it stores fits. -/
theorem within_storeBytes {s : State} (h : s.mem.within s.params = true) {vs : List Byte}
    (hv : vs.length ≤ s.params.byteDepth) : (s.storeBytes vs).mem.within s.params = true := by
  rw [Memory.within_iff] at h ⊢
  exact ⟨Buf.below_fill h.1 hv, h.2⟩

theorem within_storeSymbols {s : State} (h : s.mem.within s.params = true) {vs : List Byte}
    (hv : vs.length ≤ s.params.symDepth) : (s.storeSymbols vs).mem.within s.params = true := by
  rw [Memory.within_iff] at h ⊢
  exact ⟨h.1, Buf.below_fill h.2.1 hv, h.2.2⟩

theorem within_storeWave {s : State} (h : s.mem.within s.params = true) (b : Bank) {vs : List Sample}
    (hv : vs.length ≤ s.params.waveDepth) : (s.storeWave b vs).mem.within s.params = true := by
  rw [storeWave_mem]
  exact Memory.within_setWave h b (Buf.below_fill (((Memory.within_iff _ _).mp h).2.2.1 b) hv)

theorem within_storeSpectrum {s : State} (h : s.mem.within s.params = true) (len : Nat) {vs : List Mag}
    (hv : vs.length ≤ 2 ^ s.params.log2nMax) : (s.storeSpectrum len vs).mem.within s.params = true := by
  rw [Memory.within_iff] at h ⊢
  exact ⟨h.1, h.2.1, h.2.2.1, Buf.below_fill h.2.2.2 hv⟩

theorem within_storeWindow {s : State} (h : s.mem.within s.params = true) {r : Window}
    (hv : r.mag.length ≤ 2 ^ s.params.log2nMax) : (s.storeWindow r).mem.within s.params = true :=
  within_storeSpectrum h r.len hv

theorem Memory.wf_blank : Memory.blank.wf = true := rfl

theorem Memory.within_blank (p : Config.Params) : Memory.blank.within p = true := rfl

/-! ### Entries after each store -/

theorem byteAt_storeBytes (vs : List Byte) (s : State) (k : Nat) :
    (s.storeBytes vs).byteAt k = vs[k]?.getD (s.byteAt k) := Buf.getD_find_fill ..

theorem symAt_storeSymbols (vs : List Byte) (s : State) (k : Nat) :
    (s.storeSymbols vs).symAt k = vs[k]?.getD (s.symAt k) := Buf.getD_find_fill ..

theorem magAt_storeSpectrum (len : Nat) (vs : List Mag) (s : State) (k : Nat) :
    (s.storeSpectrum len vs).magAt k = vs[k]?.getD (s.magAt k) := Buf.getD_find_fill ..

theorem magAt_storeWindow (r : Window) (s : State) (k : Nat) :
    (s.storeWindow r).magAt k = r.mag[k]?.getD (s.magAt k) := Buf.getD_find_fill ..

theorem waveAt_storeWave_same (b : Bank) (vs : List Sample) (s : State) (k : Nat) :
    (s.storeWave b vs).waveAt b k = vs[k]?.getD (s.waveAt b k) := by
  simp only [State.waveAt, storeWave_mem, storeWave_resets, setWave_wave_same, Buf.getD_find_fill]

theorem waveAt_storeWave_other {b c : Bank} (h : c ≠ b) (vs : List Sample) (s : State) (k : Nat) :
    (s.storeWave b vs).waveAt c k = s.waveAt c k := by
  simp only [State.waveAt, storeWave_mem, storeWave_resets, setWave_wave_other h]

/-- Entries depend on the buffer and on the number of the last reset alone. -/
theorem byteAt_congr {s t : State} (h : s.mem.byteBuf = t.mem.byteBuf) (hr : s.resets = t.resets) (k : Nat) :
    s.byteAt k = t.byteAt k := by simp only [State.byteAt, h, hr]

theorem symAt_congr {s t : State} (h : s.mem.symBuf = t.mem.symBuf) (hr : s.resets = t.resets) (k : Nat) :
    s.symAt k = t.symAt k := by simp only [State.symAt, h, hr]

theorem waveAt_congr {s t : State} {b : Bank} (h : s.mem.wave b = t.mem.wave b) (hr : s.resets = t.resets) (k : Nat) :
    s.waveAt b k = t.waveAt b k := by simp only [State.waveAt, h, hr]

theorem magAt_congr {s t : State} (h : s.mem.mag = t.mem.mag) (hr : s.resets = t.resets) (k : Nat) :
    s.magAt k = t.magAt k := by simp only [State.magAt, h, hr]

/-! ### Entries after the updates that touch no buffer -/

@[simp] theorem succeed_byteAt (s : State) (k : Nat) : (s.succeed).byteAt k = s.byteAt k := rfl
@[simp] theorem succeed_symAt (s : State) (k : Nat) : (s.succeed).symAt k = s.symAt k := rfl
@[simp] theorem succeed_magAt (s : State) (k : Nat) : (s.succeed).magAt k = s.magAt k := rfl
@[simp] theorem succeed_waveAt (s : State) (b : Bank) (k : Nat) : (s.succeed).waveAt b k = s.waveAt b k := rfl
@[simp] theorem succeed_waveLen (s : State) (b : Bank) : (s.succeed).waveLen b = s.waveLen b := rfl
@[simp] theorem accept_byteAt (s : State) (w : Word) (k : Nat) : (s.accept w).byteAt k = s.byteAt k := rfl
@[simp] theorem accept_symAt (s : State) (w : Word) (k : Nat) : (s.accept w).symAt k = s.symAt k := rfl
@[simp] theorem accept_magAt (s : State) (w : Word) (k : Nat) : (s.accept w).magAt k = s.magAt k := rfl
@[simp] theorem accept_waveAt (s : State) (w : Word) (b : Bank) (k : Nat) : (s.accept w).waveAt b k = s.waveAt b k := rfl
@[simp] theorem accept_waveLen (s : State) (w : Word) (b : Bank) : (s.accept w).waveLen b = s.waveLen b := rfl
@[simp] theorem failWith_byteAt (s : State) (c : ErrCode) (k : Nat) : (s.failWith c).byteAt k = s.byteAt k := rfl
@[simp] theorem failWith_symAt (s : State) (c : ErrCode) (k : Nat) : (s.failWith c).symAt k = s.symAt k := rfl
@[simp] theorem failWith_magAt (s : State) (c : ErrCode) (k : Nat) : (s.failWith c).magAt k = s.magAt k := rfl
@[simp] theorem failWith_waveAt (s : State) (c : ErrCode) (b : Bank) (k : Nat) : (s.failWith c).waveAt b k = s.waveAt b k := rfl
@[simp] theorem failWith_waveLen (s : State) (c : ErrCode) (b : Bank) : (s.failWith c).waveLen b = s.waveLen b := rfl

end Sys2Proof.Machine
end

