-- ==== Sys2Proof/Laws/Bus.lean ====
section
/-! SUPPORT. The address map and what a transaction can do. -/

namespace Sys2Proof.Machine

/-! ### The address map -/

theorem target_regAddr (r : Reg) : target (regAddr r) = .reg r := by cases r <;> rfl

theorem target_of_lt {a : BusAddr} (h : byteAddr a < 0x80) : ∃ r, target a = .reg r ∧ a = regAddr r := by
  have ha : a.toNat < 32 := by unfold byteAddr at h; omega
  have key : ∀ n : Fin 32, ∃ r, target (BitVec.ofNat 22 n) = .reg r ∧ BitVec.ofNat 22 n = regAddr r := by
    intro n
    exact ⟨registerMap[n.val]'(by simp [registerMap]), by
      fin_cases n <;> rfl, by fin_cases n <;> rfl⟩
  have := key ⟨a.toNat, ha⟩
  simpa using this

theorem byteAddr_lt (a : BusAddr) : byteAddr a < 2 ^ 24 := by
  have := a.isLt
  unfold byteAddr
  omega

theorem byteAddr_mod (a : BusAddr) : byteAddr a % 4 = 0 := by unfold byteAddr; omega

theorem byteAddr_busAddr {n : Nat} (h : n < 2 ^ 24) (h4 : n % 4 = 0) : byteAddr (busAddr n) = n := by
  unfold byteAddr busAddr
  rw [BitVec.toNat_ofNat, Nat.mod_eq_of_lt (by omega)]
  omega

theorem target_hole {a : BusAddr} (h1 : 0x80 ≤ byteAddr a) (h2 : byteAddr a < 0x100000) : target a = .hole := by
  simp [target, Nat.not_lt.mpr h1, h2]

theorem target_mag {a : BusAddr} (h1 : 0x100000 ≤ byteAddr a) (h2 : byteAddr a < 0x200000) :
    target a = .mag ((byteAddr a - 0x100000) / 8) (decide ((byteAddr a - 0x100000) % 8 = 4)) := by
  have : ¬byteAddr a < 0x80 := by omega
  simp [target, this, Nat.not_lt.mpr h1, h2]

theorem target_byteBuf {a : BusAddr} (h1 : 0x200000 ≤ byteAddr a) (h2 : byteAddr a < 0x400000) :
    target a = .byteBuf ((byteAddr a - 0x200000) / 4) := by
  have h3 : ¬byteAddr a < 0x80 := by omega
  have h4 : ¬byteAddr a < 0x100000 := by omega
  simp [target, h3, h4, Nat.not_lt.mpr h1, h2]

theorem target_symBuf {a : BusAddr} (h1 : 0x400000 ≤ byteAddr a) (h2 : byteAddr a < 0x800000) :
    target a = .symBuf ((byteAddr a - 0x400000) / 4) := by
  have h3 : ¬byteAddr a < 0x80 := by omega
  have h4 : ¬byteAddr a < 0x100000 := by omega
  have h5 : ¬byteAddr a < 0x200000 := by omega
  simp [target, h3, h4, h5, Nat.not_lt.mpr h1, h2]

theorem target_wave0 {a : BusAddr} (h1 : 0x800000 ≤ byteAddr a) (h2 : byteAddr a < 0xC00000) :
    target a = .wave .wave0 ((byteAddr a - 0x800000) / 4) := by
  have h3 : ¬byteAddr a < 0x80 := by omega
  have h4 : ¬byteAddr a < 0x100000 := by omega
  have h5 : ¬byteAddr a < 0x200000 := by omega
  have h6 : ¬byteAddr a < 0x400000 := by omega
  simp [target, h3, h4, h5, h6, Nat.not_lt.mpr h1, h2]

theorem target_wave1 {a : BusAddr} (h1 : 0xC00000 ≤ byteAddr a) :
    target a = .wave .wave1 ((byteAddr a - 0xC00000) / 4) := by
  have h3 : ¬byteAddr a < 0x80 := by omega
  have h4 : ¬byteAddr a < 0x100000 := by omega
  have h5 : ¬byteAddr a < 0x200000 := by omega
  have h6 : ¬byteAddr a < 0x400000 := by omega
  have h7 : ¬byteAddr a < 0x800000 := by omega
  simp [target, h3, h4, h5, h6, h7, Nat.not_lt.mpr h1]

/-- An aperture address names a buffer entry. -/
theorem target_aperture {a : BusAddr} (h : 0x100000 ≤ byteAddr a) :
    (∃ k b, target a = .mag k b) ∨ (∃ i, target a = .byteBuf i) ∨ (∃ i, target a = .symBuf i) ∨
      ∃ b i, target a = .wave b i := by
  by_cases h1 : byteAddr a < 0x200000
  · exact .inl ⟨_, _, target_mag h h1⟩
  · by_cases h2 : byteAddr a < 0x400000
    · exact .inr (.inl ⟨_, target_byteBuf (by omega) h2⟩)
    · by_cases h3 : byteAddr a < 0x800000
      · exact .inr (.inr (.inl ⟨_, target_symBuf (by omega) h3⟩))
      · by_cases h4 : byteAddr a < 0xC00000
        · exact .inr (.inr (.inr ⟨_, _, target_wave0 (by omega) h4⟩))
        · exact .inr (.inr (.inr ⟨_, _, target_wave1 (by omega)⟩))

/-! ### Transactions, by what the address names -/

theorem hostRead_reg {s : State} {a : BusAddr} {r : Reg} (h : target a = .reg r) :
    s.hostRead a = (s.readReg r, s) := by simp [State.hostRead, h]

theorem hostRead_hole {s : State} {a : BusAddr} (h : target a = .hole) : s.hostRead a = (0, s.noteBadaddr) := by
  simp [State.hostRead, h]

/-- A read of an entry, whatever the buffer. -/
theorem hostRead_entry {s : State} {a : BusAddr} (hr : ∀ r, target a ≠ .reg r) (hh : target a ≠ .hole) :
    s.hostRead a = if s.busy then s.refuseRead
      else if (target a).exists? s.params then (s.readEntry (target a), s) else (0, s.noteBadaddr) := by
  unfold State.hostRead
  split
  · next r h => exact absurd h (hr r)
  · next h => exact absurd h hh
  · rfl

theorem hostWrite_reg {s : State} {a : BusAddr} {r : Reg} (h : target a = .reg r) (v : Word) :
    s.hostWrite a v = if s.busy && !r.writableBusy then s.noteBusyacc else s.writeReg v r := by
  simp [State.hostWrite, h]

theorem hostWrite_hole {s : State} {a : BusAddr} (h : target a = .hole) (v : Word) :
    s.hostWrite a v = s.noteBadaddr := by simp [State.hostWrite, h]

/-- A write to an entry, whatever the buffer. -/
theorem hostWrite_entry {s : State} {a : BusAddr} (hr : ∀ r, target a ≠ .reg r) (hh : target a ≠ .hole) (v : Word) :
    s.hostWrite a v = if s.busy then s.noteBusyacc
      else if (target a).exists? s.params then s.writeEntry v (target a) else s.noteBadaddr := by
  unfold State.hostWrite
  split
  · next r h => exact absurd h (hr r)
  · next h => exact absurd h hh
  · rfl

/-- All that a read can do to the state. -/
theorem hostRead_state (s : State) (a : BusAddr) :
    (s.hostRead a).2 = s ∨ (s.hostRead a).2 = s.noteBadaddr ∨
      (s.busy = true ∧ (s.hostRead a).2 = { s.noteBusyacc with draws := s.draws + 1 }) := by
  unfold State.hostRead
  split
  · exact .inl rfl
  · exact .inr (.inl rfl)
  · split
    · next h => exact .inr (.inr ⟨h, rfl⟩)
    · split
      · exact .inl rfl
      · exact .inr (.inl rfl)

/-- All that a write can do to the state. -/
theorem hostWrite_state (s : State) (a : BusAddr) (v : Word) :
    s.hostWrite a v = s.noteBusyacc ∨ s.hostWrite a v = s.noteBadaddr ∨
      (∃ r, target a = .reg r ∧ (s.busy = true → r.writableBusy = true) ∧ s.hostWrite a v = s.writeReg v r) ∨
      (s.busy = false ∧ (target a).exists? s.params = true ∧ (∀ r, target a ≠ .reg r) ∧
        s.hostWrite a v = s.writeEntry v (target a)) := by
  by_cases hr : ∃ r, target a = .reg r
  · obtain ⟨r, hr⟩ := hr
    rw [hostWrite_reg hr]
    split
    · exact .inl rfl
    · next h =>
      refine .inr (.inr (.inl ⟨r, hr, fun hb => ?_, rfl⟩))
      simpa [hb] using h
  · have hr : ∀ r, target a ≠ .reg r := fun r h => hr ⟨r, h⟩
    by_cases hh : target a = .hole
    · exact .inr (.inl (hostWrite_hole hh v))
    · rw [hostWrite_entry hr hh]
      split
      · exact .inl rfl
      · next hb =>
        split
        · next he => exact .inr (.inr (.inr ⟨by simpa using hb, he, hr, rfl⟩))
        · exact .inr (.inl rfl)

/-! ### Words of flags, and one waveform entry -/

/-- Bit `k` of a word with one bit placed. -/
theorem bitAt_getElem (b : Bool) (i k : Nat) (hk : k < 32) : (bitAt b i)[k] = (decide (k = i) && b) := by
  simp only [bitAt, BitVec.getElem_shiftLeft, BitVec.getElem_setWidth, BitVec.getLsbD_ofBool]
  by_cases h1 : k < i
  · simp [h1]; omega
  · by_cases h2 : k = i
    · subst h2; simp
    · have : k - i ≠ 0 := by omega
      simp [h1, h2, this]

/-- The waveform banks after one entry is written. -/
theorem waveAt_put (s : State) (b c : Bank) (i k : Nat) (v : Sample) :
    State.waveAt { s with mem := s.mem.setWave b ((s.mem.wave b).put i v) } c k =
      if c = b ∧ k = i then v else s.waveAt c k := by
  unfold State.waveAt
  by_cases h : c = b
  · subst h
    by_cases hk : k = i
    · subst hk; simp [Buf.find_put_same]
    · simp [Buf.find_put_other _ hk, hk]
  · simp [setWave_wave_other h, h]

end Sys2Proof.Machine
end

