-- ==== Sys2Proof/Laws/Numbers.lean ====
section
/-! SUPPORT. The numeric functions: transform size, clip and rne, window count, peak selection. -/

namespace Sys2Proof.Machine

/-! ### Transform size (43_analyzer R188) -/

theorem lt_pow2gt (l : Nat) : l < pow2gt l := by
  unfold pow2gt log2gt
  split
  · next h => subst h; decide
  · exact Nat.lt_log2_self

theorem pow2gt_le {l : Nat} (h : 1 ≤ l) : pow2gt l ≤ 2 * l := by
  unfold pow2gt log2gt
  rw [if_neg (by omega), pow_succ, mul_comm]
  exact Nat.mul_le_mul_left 2 (Nat.log2_self_le (by omega))

theorem pow2gt_pos (l : Nat) : 0 < pow2gt l := Nat.two_pow_pos _

theorem log2gt_le {l m : Nat} (h : l < 2 ^ m) : log2gt l ≤ m := by
  unfold log2gt
  split
  · omega
  · next h0 => exact (Nat.log2_lt h0).mpr h

theorem log2gt_pos {l : Nat} (h : 1 ≤ l) : 1 ≤ log2gt l := by
  unfold log2gt; rw [if_neg (by omega)]; omega

theorem pow2gt_le_pow {l m : Nat} (h : l < 2 ^ m) : pow2gt l ≤ 2 ^ m :=
  Nat.pow_le_pow_right (by decide) (log2gt_le h)

/-- N is even once the window has a sample. -/
theorem pow2gt_even {l : Nat} (h : 1 ≤ l) : 2 * (pow2gt l / 2) = pow2gt l := by
  obtain ⟨m, hm⟩ := Nat.exists_eq_add_of_le (log2gt_pos h)
  unfold pow2gt
  rw [hm, pow_add, pow_one, Nat.mul_div_cancel_left _ (by decide)]

@[simp] theorem numMag_length (num : Config.Numerics) (seg : List Sample) : (numMag num seg).length = pow2gt seg.length := by
  simp [numMag]

theorem numMag_getElem? (num : Config.Numerics) (seg : List Sample) (k : Nat) :
    (numMag num seg)[k]? = if k < pow2gt seg.length then some (num.mag seg k) else none := by
  unfold numMag
  by_cases h : k < pow2gt seg.length <;> simp [h]

/-! ### Clip and samples (42_modulator R170) -/

theorem clip_bounds (v : Int) : -32767 ≤ clip v ∧ clip v ≤ 32767 := by
  unfold clip clipMin clipMax; omega

theorem clip_of_mem {v : Int} (h1 : -32767 ≤ v) (h2 : v ≤ 32767) : clip v = v := by
  unfold clip clipMin clipMax; omega

theorem toSample_toInt {v : Int} (h1 : -32768 ≤ v) (h2 : v ≤ 32767) : (toSample v).toInt = v := by
  rw [toSample, BitVec.toInt_ofInt, Int.bmod_def]
  norm_num
  split <;> omega

theorem quantise_toInt (num : Config.Numerics) (c : Rat) (ts : List Config.Tone) :
    (quantise num c ts).toInt = clip (num.rne c ts) := by
  have := clip_bounds (num.rne c ts)
  exact toSample_toInt (by omega) (by omega)

/-! ### rne (00_scope R10) -/

theorem isRne_abs_le {x : ℝ} {m : ℤ} (h : Config.IsRne x m) : |x - m| ≤ 1 / 2 := h.elim (·.le) (·.1.le)

/-- Between two integers that are both rne of one real there is a tie, at which both are even. -/
theorem isRne_le {x : ℝ} {m m' : ℤ} (h : Config.IsRne x m) (h' : Config.IsRne x m') : m ≤ m' := by
  by_contra hc
  have a := abs_le.mp (isRne_abs_le h)
  have a' := abs_le.mp (isRne_abs_le h')
  have h1 : (m' : ℝ) + 1 ≤ m := by exact_mod_cast (by omega : m' + 1 ≤ m)
  have h2 : m = m' + 1 := by
    have : m ≤ m' + 1 := by exact_mod_cast (by linarith : (m : ℝ) ≤ m' + 1)
    omega
  have even_of : ∀ n : ℤ, |x - n| = 1 / 2 → Config.IsRne x n → Even n := fun n hn hx =>
    hx.elim (fun hlt => absurd hn hlt.ne) (·.2)
  have e := even_of m (by rw [abs_eq (by norm_num)]; right; linarith) h
  have e' := even_of m' (by rw [abs_eq (by norm_num)]; left; linarith) h'
  rw [Int.even_iff] at e e'
  omega

/-- A real has one rne. -/
theorem isRne_unique {x : ℝ} {m m' : ℤ} (h : Config.IsRne x m) (h' : Config.IsRne x m') : m = m' :=
  le_antisymm (isRne_le h h') (isRne_le h' h)

/-- Reals less than 1 apart have rne at most 1 apart. -/
theorem isRne_close {x y : ℝ} {a b : ℤ} (ha : Config.IsRne x a) (hb : Config.IsRne y b) (h : |x - y| < 1) :
    |a - b| ≤ 1 := by
  have h1 := abs_le.mp (isRne_abs_le ha)
  have h2 := abs_le.mp (isRne_abs_le hb)
  rw [abs_lt] at h
  have e1 : a - b < 2 := by exact_mod_cast (by push_cast; linarith : ((a - b : ℤ) : ℝ) < 2)
  have e2 : -2 < a - b := by exact_mod_cast (by push_cast; linarith : (-2 : ℝ) < ((a - b : ℤ) : ℝ))
  rw [abs_le]
  omega

/-- The clip brings no two integers farther apart. -/
theorem clip_close {a b : ℤ} (h : |a - b| ≤ 1) : |clip a - clip b| ≤ 1 := by
  rw [abs_le] at *
  unfold clip clipMin clipMax
  omega

/-- rne of a sum with one term. -/
theorem rne_single (num : Config.Numerics) (a p q : Nat) :
    Config.IsRne (a * num.sin p q) (num.rne 0 [⟨a, p, q⟩]) := by
  simpa using num.rne_spec 0 [⟨a, p, q⟩]

/-! ### Window count (44_demodulator R211) -/

theorem windowCount_mul {w sps : Nat} (h : 0 < sps) (n : Nat) (hn : n < windowCount w sps) : n * sps < w := by
  unfold windowCount at hn
  have : (n + 1) * sps ≤ w + (sps - 1) := (Nat.le_div_iff_mul_le h).mp hn
  rw [Nat.add_mul, Nat.one_mul] at this
  omega

theorem le_windowCount_mul {w sps : Nat} (h : 0 < sps) : w ≤ windowCount w sps * sps := by
  unfold windowCount
  have h1 := Nat.div_add_mod (w + (sps - 1)) sps
  have h2 := Nat.mod_lt (w + (sps - 1)) h
  rw [Nat.mul_comm] at h1
  omega

/-! ### Peak selection (44_demodulator R204) -/

theorem peakOf_eq_none {m : Nat → Nat} {l : List Nat} : peakOf m l = none ↔ l = [] := by
  cases l with
  | nil => simp [peakOf]
  | cons k ks =>
    simp only [peakOf]
    cases peakOf m ks <;> simp
    split <;> simp

/-- What the peak of a rising list is: a member, of the largest value, and the least such. -/
theorem peakOf_spec {m : Nat → Nat} {l : List Nat} (hl : l.Pairwise (· < ·)) {p : Nat} (h : peakOf m l = some p) :
    p ∈ l ∧ ∀ k ∈ l, m k ≤ m p ∧ (m k = m p → p ≤ k) := by
  induction l generalizing p with
  | nil => simp [peakOf] at h
  | cons k ks ih =>
    have hk := List.pairwise_cons.mp hl
    simp only [peakOf] at h
    cases hp : peakOf m ks with
    | none =>
      rw [hp] at h
      simp only [Option.some.injEq] at h
      subst h
      rw [peakOf_eq_none.mp hp]
      simp
    | some j =>
      rw [hp] at h
      simp only at h
      have hj := ih hk.2 hp
      have hkj := hk.1 j hj.1
      split at h
      · next hlt =>
        cases h
        refine ⟨List.mem_cons_of_mem _ hj.1, fun i hi => ?_⟩
        rcases List.mem_cons.mp hi with rfl | hi
        · omega
        · exact hj.2 i hi
      · next hlt =>
        cases h
        refine ⟨List.mem_cons_self .., fun i hi => ?_⟩
        rcases List.mem_cons.mp hi with rfl | hi
        · omega
        · have := hj.2 i hi
          have := hk.1 i hi
          omega

theorem survivors_rising (s : State) (n : Nat) : (s.survivors n).Pairwise (· < ·) :=
  List.Pairwise.filter _ List.pairwise_lt_range

theorem mem_survivors (s : State) (n k : Nat) : k ∈ s.survivors n ↔ k < n ∧ s.survives n k = true := by
  simp [State.survivors]

end Sys2Proof.Machine
end

