-- ==== Sys2Proof/Laws/Exec.lean ====
section
/-! SUPPORT. What each command's run and completion can answer, said once, for proofs to cite instead of unfolding. -/

namespace Sys2Proof.Machine

/-- The run of a command with this hardware's numerics. -/
abbrev runOf : Instr → State → Result := runUnder num

/-- The machine is the machine under its own numerics. -/
theorem exec_eq_execUnder (i : Instr) (s : State) : exec i s = execUnder num i s := by
  cases i <;> rfl

theorem exec_eq_conclude (i : Instr) (s : State) : exec i s = conclude s (runOf i s) := exec_eq_execUnder i s

/-- What a completion answers: a failed state, or the updates with STATUS written. -/
theorem conclude_next {s t : State} {r : Result} :
    conclude s r = .next t ↔ (∃ c, r = .error c ∧ t = s.failWith c) ∨ ∃ u, r = .ok u ∧ t = u.succeed := by
  cases r <;> simp [conclude, eq_comm]

theorem exec_next {i : Instr} {s t : State} :
    exec i s = .next t ↔
      (∃ c, runOf i s = .error c ∧ t = s.failWith c) ∨ ∃ u, runOf i s = .ok u ∧ t = u.succeed := by
  rw [exec_eq_conclude, conclude_next]

theorem exec_of_ok {i : Instr} {s u : State} (h : runOf i s = .ok u) : exec i s = .next u.succeed := by
  rw [exec_eq_conclude, h]; rfl

theorem execUnder_of_ok {num : Config.Numerics} {i : Instr} {s u : State} (h : runUnder num i s = .ok u) :
    execUnder num i s = .next u.succeed := by
  rw [execUnder, h]; rfl

theorem exec_of_error {i : Instr} {s : State} {c : ErrCode} (h : runOf i s = .error c) :
    exec i s = .next (s.failWith c) := by
  rw [exec_eq_conclude, h]; rfl

/-! ### The checks -/

theorem carriersSet_iff (s : State) : s.carriersSet = true ↔ s.srate ≠ 0 ∧ s.fSpace ≠ 0 ∧ s.fMark ≠ 0 := by
  simp [State.carriersSet]

theorem durationSet_iff (s : State) : s.durationSet = true ↔ s.symdurDen ≠ 0 ∧ s.sps ≠ 0 := by
  simp [State.durationSet]

theorem windowOk_iff (s : State) (b : Bank) : s.windowOk b = true ↔
    (s.waveLen b).toNat ≤ s.params.waveDepth ∧ s.winLen ≠ 0 ∧ s.winLen.toNat ≤ s.params.winMax ∧
      s.winOff.toNat + s.winLen.toNat ≤ (s.waveLen b).toNat := by
  simp [State.windowOk]

/-! ### The successful runs -/

theorem runB2s_ok {s u : State} : runB2s s = .ok u ↔
    s.byteLen.toNat ≤ s.params.byteDepth ∧ 8 * s.byteLen.toNat ≤ s.params.symDepth ∧
      u = s.storeSymbols ((List.range s.byteLen.toNat).flatMap fun i => symbolsOfByte (s.byteAt i)) := by
  unfold runB2s
  split
  · simp; omega
  · split
    · simp; omega
    · simp only [Except.ok.injEq]
      constructor
      · rintro rfl; exact ⟨by omega, by omega, rfl⟩
      · rintro ⟨-, -, rfl⟩; rfl

theorem allSymbols_iff (s : State) (n : Nat) : ((List.range n).all fun i => isSymbol (s.symAt i)) = true ↔
    ∀ i, i < n → s.symAt i = 0x30 ∨ s.symAt i = 0x31 := by
  simp [isSymbol]

theorem runS2b_ok {s u : State} : runS2b s = .ok u ↔
    s.symLen.toNat ≤ s.params.symDepth ∧
      (∀ i, i < 8 * (s.symLen.toNat / 8) → s.symAt i = 0x30 ∨ s.symAt i = 0x31) ∧
      s.symLen.toNat / 8 ≤ s.params.byteDepth ∧
      u = s.storeBytes ((List.range (s.symLen.toNat / 8)).map fun i => byteOfSymbols (s.chunk i)) := by
  unfold runS2b
  simp only []
  split
  · simp; omega
  · next h1 =>
    split
    · next h2 =>
      rw [← allSymbols_iff]
      simp only [Bool.not_eq_true'] at h2
      simp [h2]
    · next h2 =>
      simp only [Bool.not_eq_true', Bool.not_eq_false] at h2
      rw [← allSymbols_iff, h2]
      split
      · simp; omega
      · simp only [Except.ok.injEq]
        constructor
        · rintro rfl; exact ⟨by omega, trivial, by omega, rfl⟩
        · rintro ⟨-, -, -, rfl⟩; rfl

theorem runMod_ok {num : Config.Numerics} {d : Bank} {s u : State} : runMod num d s = .ok u ↔
    s.carriersSet = true ∧ s.durationSet = true ∧ s.symLen.toNat ≤ s.params.symDepth ∧
      s.sps * s.validSymbols.length ≤ s.params.waveDepth ∧
      u = { s.storeWave d (s.validSymbols.flatMap (s.symbolWave num)) with
        invsymCnt := BitVec.ofNat 32 (s.symLen.toNat - s.validSymbols.length)
        flags := s.flags.noteInvsym (decide (0 < s.symLen.toNat - s.validSymbols.length)) } := by
  unfold runMod
  simp only []
  split
  · next h =>
    simp only [Bool.not_eq_true', Bool.and_eq_false_iff] at h
    rcases h with h | h <;> simp [h]
  · next h =>
    simp only [Bool.not_eq_true', Bool.not_eq_false, Bool.and_eq_true] at h
    split
    · simp; omega
    · split
      · simp; omega
      · simp only [Except.ok.injEq]
        constructor
        · rintro rfl; exact ⟨h.1, h.2, by omega, by omega, rfl⟩
        · rintro ⟨-, -, -, -, rfl⟩; rfl

theorem runAnlz_ok {num : Config.Numerics} {b : Bank} {s u : State} : runAnlz num b s = .ok u ↔
    s.windowOk b = true ∧ u = s.storeSpectrum s.winLen.toNat (numMag num (s.window b)) := by
  unfold runAnlz
  split
  · next h =>
    simp only [Bool.not_eq_true'] at h
    simp [h]
  · next h =>
    simp only [Bool.not_eq_true', Bool.not_eq_false] at h
    simp [h, eq_comm]

theorem runDemw_ok {num : Config.Numerics} {b : Bank} {s u : State} : runDemw num b s = .ok u ↔
    s.carriersSet = true ∧ s.windowOk b = true ∧
      u = { s.storeWindow (s.classify num (s.window b)) with
        nobandCnt := if (s.classify num (s.window b)).noband then 1 else 0
        flags := s.flags.noteNoband (s.classify num (s.window b)).noband } := by
  unfold runDemw
  split
  · next h =>
    simp only [Bool.not_eq_true'] at h
    simp [h]
  · next h =>
    simp only [Bool.not_eq_true', Bool.not_eq_false] at h
    split
    · next h' =>
      simp only [Bool.not_eq_true'] at h'
      simp [h']
    · next h' =>
      simp only [Bool.not_eq_true', Bool.not_eq_false] at h'
      simp only [Except.ok.injEq]
      constructor
      · rintro rfl; exact ⟨h, h', rfl⟩
      · rintro ⟨-, -, rfl⟩; rfl

/-- The short-window indication of a list of windows (44_demodulator R214). -/
def lastShort (sps : Nat) : Option Window → Bool
  | none => false
  | some r => decide (r.len < sps)

theorem runDemod_ok {num : Config.Numerics} {b : Bank} {s u : State} : runDemod num b s = .ok u ↔
    s.carriersSet = true ∧ s.durationSet = true ∧ s.sps ≤ s.params.winMax ∧
      (s.waveLen b).toNat ≤ s.params.waveDepth ∧
      windowCount (s.waveLen b).toNat s.sps ≤ s.params.symDepth ∧
      u = { (s.storeSymbols ((s.windows num b).map fun r => symbolOf r.bit)).storeLast (s.windows num b).getLast? with
        nobandCnt := BitVec.ofNat 32 ((s.windows num b).countP fun r => r.noband)
        flags := (s.flags.noteNoband ((s.windows num b).any fun r => r.noband)).noteShortwin
          (lastShort s.sps (s.windows num b).getLast?) } := by
  unfold runDemod
  simp only []
  split
  · next h =>
    simp only [Bool.not_eq_true', Bool.and_eq_false_iff, decide_eq_false_iff_not, Nat.not_le] at h
    rcases h with (h | h) | h <;> simp [h]
  · next h =>
    simp only [Bool.not_eq_true', Bool.not_eq_false, Bool.and_eq_true, decide_eq_true_eq] at h
    split
    · simp; omega
    · split
      · simp; omega
      · simp only [Except.ok.injEq]
        constructor
        · rintro rfl
          exact ⟨h.1.1, h.1.2, h.2, by omega, by omega, rfl⟩
        · rintro ⟨-, -, -, -, -, rfl⟩; rfl

theorem runNoise_ok {num : Config.Numerics} {b d : Bank} {s u : State} : runNoise num b d s = .ok u ↔
    s.noiseCfgOk = true ∧ (s.waveLen b).toNat ≤ s.params.waveDepth ∧
      ((s.level = 0 ∧ u = s.storeWave d (s.segment b 0 (s.waveLen b).toNat)) ∨
       (s.level ≠ 0 ∧ (s.waveLen b).toNat = 0 ∧ u = s.storeWave d []) ∨
       (s.level ≠ 0 ∧ (s.waveLen b).toNat ≠ 0 ∧
        u = { s.storeWave d (s.noisy num b s.noiseRow (drawNoise s.noiseRow (s.waveLen b).toNat s.rngState)) with
          rngState := (drawNoise s.noiseRow (s.waveLen b).toNat s.rngState).rng })) := by
  unfold runNoise
  simp only []
  split
  · next h =>
    simp only [Bool.not_eq_true'] at h
    simp [h]
  · next h =>
    simp only [Bool.not_eq_true', Bool.not_eq_false] at h
    split
    · simp; omega
    · next h1 =>
      split
      · next h2 =>
        simp only [Except.ok.injEq]
        constructor
        · rintro rfl; exact ⟨h, by omega, .inl ⟨h2, rfl⟩⟩
        · rintro ⟨-, -, ⟨-, rfl⟩ | ⟨h4, -⟩ | ⟨h4, -⟩⟩
          · rfl
          · exact absurd h2 h4
          · exact absurd h2 h4
      · next h2 =>
        split
        · next h3 =>
          simp only [Except.ok.injEq]
          constructor
          · rintro rfl; exact ⟨h, by omega, .inr (.inl ⟨h2, h3, rfl⟩)⟩
          · rintro ⟨-, -, ⟨h4, -⟩ | ⟨-, -, rfl⟩ | ⟨-, h4, -⟩⟩
            · exact absurd h4 h2
            · rfl
            · exact absurd h3 h4
        · next h3 =>
          simp only [Except.ok.injEq]
          constructor
          · rintro rfl; exact ⟨h, by omega, .inr (.inr ⟨h2, h3, rfl⟩)⟩
          · rintro ⟨-, -, ⟨h4, -⟩ | ⟨-, h4, -⟩ | ⟨-, -, rfl⟩⟩
            · exact absurd h4 h2
            · exact absurd h4 h3
            · rfl

/-! ### Reading stored lists -/

@[simp] theorem symbolsOfByte_length (b : Byte) : (symbolsOfByte b).length = 8 := by simp [symbolsOfByte]

/-- Entry `n·i + j` of lists of equal length `n`, joined. -/
theorem getElem?_flatMap_const {α β : Type} {n : Nat} (f : α → List β) (hf : ∀ a, (f a).length = n) (l : List α)
    (i j : Nat) (hj : j < n) : (l.flatMap f)[i * n + j]? = l[i]?.bind fun a => (f a)[j]? := by
  induction l generalizing i with
  | nil => simp
  | cons a l ih =>
    rw [List.flatMap_cons]
    cases i with
    | zero => simp [List.getElem?_append, hf, hj]
    | succ i =>
      rw [List.getElem?_append_right (by rw [hf]; nlinarith), hf]
      have : (i + 1) * n + j - n = i * n + j := by rw [Nat.add_mul]; omega
      rw [this, ih]
      simp

theorem length_flatMap_const {α β : Type} {n : Nat} (f : α → List β) (hf : ∀ a, (f a).length = n) (l : List α) :
    (l.flatMap f).length = n * l.length := by
  induction l with
  | nil => simp
  | cons a l ih => rw [List.flatMap_cons, List.length_append, ih, hf, List.length_cons, Nat.mul_add]; omega

@[simp] theorem symbolWave_length (num : Config.Numerics) (s : State) (c : Byte) : (s.symbolWave num c).length = s.sps := by
  simp [State.symbolWave]

/-- Sample `n` of valid symbol `j` after a successful MOD: one rounding of the exact product, then one clip
(42_modulator R168, R170). -/
theorem runMod_sample {num : Config.Numerics} {d : Bank} {s u : State} (hu : runMod num d s = .ok u) {j n : Nat}
    {c : Byte} (hj : s.validSymbols[j]? = some c) (hn : n < s.sps) :
    (u.waveAt d (j * s.sps + n)).toInt = clip (num.rne 0 [s.carrierTone c n]) := by
  obtain ⟨-, -, -, -, rfl⟩ := runMod_ok.mp hu
  show ((s.storeWave d _).waveAt d _).toInt = _
  rw [waveAt_storeWave_same, getElem?_flatMap_const _ (symbolWave_length num s) _ _ _ hn, hj]
  simp only [Option.bind_some, State.symbolWave, List.getElem?_map, List.getElem?_range hn, Option.map_some,
    Option.getD_some]
  exact quantise_toInt _ _ _

/-- Sample `i` after a successful NOISE at level 1 and up: one rounding of the exact sum, then one clip
(45_noise R238). -/
theorem runNoise_sample {num : Config.Numerics} {b d : Bank} {s u : State} (hu : runNoise num b d s = .ok u)
    (hl : s.level ≠ 0) {i : Nat} (hi : i < (s.waveLen b).toNat) :
    (u.waveAt d i).toInt =
      clip (num.rne (s.steadyAt num b s.noiseRow (drawNoise s.noiseRow (s.waveLen b).toNat s.rngState) i)
        (s.tonesAt s.noiseRow (drawNoise s.noiseRow (s.waveLen b).toNat s.rngState) i)) := by
  obtain ⟨-, -, ⟨h, -⟩ | ⟨-, h, -⟩ | ⟨-, -, rfl⟩⟩ := runNoise_ok.mp hu
  · exact absurd h hl
  · omega
  · show ((s.storeWave d _).waveAt d i).toInt = _
    rw [waveAt_storeWave_same, State.noisy, List.getElem?_map, List.getElem?_range hi]
    exact quantise_toInt _ _ _

@[simp] theorem segment_length (s : State) (b : Bank) (off len : Nat) : (s.segment b off len).length = len := by
  simp [State.segment]

@[simp] theorem window_length (s : State) (b : Bank) : (s.window b).length = s.winLen.toNat := by
  simp [State.window]

@[simp] theorem windows_length (num : Config.Numerics) (s : State) (b : Bank) :
    (s.windows num b).length = windowCount (s.waveLen b).toNat s.sps := by
  simp [State.windows]

@[simp] theorem noisy_length (num : Config.Numerics) (s : State) (b : Bank) (row : Config.NoiseRow) (r : NoiseDraws) :
    (s.noisy num b row r).length = (s.waveLen b).toNat := by
  simp [State.noisy]

@[simp] theorem classify_len (num : Config.Numerics) (s : State) (seg : List Sample) : (s.classify num seg).len = seg.length := rfl

@[simp] theorem classify_mag (num : Config.Numerics) (s : State) (seg : List Sample) : (s.classify num seg).mag = numMag num seg := rfl

/-- The last window, when there is one. -/
theorem windows_getLast? (num : Config.Numerics) (s : State) (b : Bank) :
    (s.windows num b).getLast? =
      if windowCount (s.waveLen b).toNat s.sps = 0 then none
      else some (s.classify num (s.symbolWindow b (windowCount (s.waveLen b).toNat s.sps - 1))) := by
  unfold State.windows
  cases windowCount (s.waveLen b).toNat s.sps with
  | zero => simp
  | succ n => simp [List.range_succ]

/-! ### What every run keeps, and what a window fits in -/

/-- A completion answers, and leaves BUSY = 0 and DONE = 1 (40_command R133). -/
theorem exec_answers (i : Instr) (s : State) : ∃ t, exec i s = .next t ∧ t.busy = false ∧ t.fin = true := by
  rw [exec_eq_conclude]
  cases runOf i s <;> exact ⟨_, rfl, rfl, rfl⟩

/-- The fields no run writes. -/
theorem runOf_kept {i : Instr} {s u : State} (h : runOf i s = .ok u) :
    u.params = s.params ∧ u.ieDone = s.ieDone ∧ u.ieErr = s.ieErr ∧ u.cmd = s.cmd ∧ u.busy = s.busy ∧
    u.fin = s.fin ∧ u.err = s.err ∧ u.errCode = s.errCode ∧ u.srate = s.srate ∧ u.symdurNum = s.symdurNum ∧
    u.symdurDen = s.symdurDen ∧ u.fSpace = s.fSpace ∧ u.fMark = s.fMark ∧ u.ampl = s.ampl ∧ u.bandLo = s.bandLo ∧
    u.bandHi = s.bandHi ∧ u.level = s.level ∧ u.winOff = s.winOff ∧ u.winLen = s.winLen ∧
    u.schedule = s.schedule ∧ u.reply = s.reply ∧ u.resets = s.resets ∧ u.draws = s.draws := by
  cases i with
  | nop => cases h; simp
  | b2s => obtain ⟨_, _, rfl⟩ := runB2s_ok.mp h; simp
  | s2b => obtain ⟨_, _, _, rfl⟩ := runS2b_ok.mp h; simp
  | mod d => obtain ⟨_, _, _, _, rfl⟩ := runMod_ok.mp h; simp
  | anlz b => obtain ⟨_, rfl⟩ := runAnlz_ok.mp h; simp
  | demw b => obtain ⟨_, _, rfl⟩ := runDemw_ok.mp h; simp
  | demod b =>
    obtain ⟨_, _, _, _, _, rfl⟩ := runDemod_ok.mp h
    cases (s.windows num b).getLast? <;> simp [State.storeLast]
  | noise b d =>
    obtain ⟨_, _, ⟨_, rfl⟩ | ⟨_, _, rfl⟩ | ⟨_, _, rfl⟩⟩ := runNoise_ok.mp h <;> simp

theorem ofNat_toNat {w n : Nat} (h : n < 2 ^ w) : (BitVec.ofNat w n).toNat = n := by
  rw [BitVec.toNat_ofNat, Nat.mod_eq_of_lt h]

theorem toNat_pos_of_ne {w : Nat} {x : BitVec w} (h : x ≠ 0) : 1 ≤ x.toNat := by
  rcases Nat.eq_zero_or_pos x.toNat with h' | h'
  · exact absurd (BitVec.eq_of_toNat_eq (by simpa using h')) h
  · exact h'

/-- A window of at most WIN_MAX samples has a transform that fits MAG. -/
theorem window_fits {p : Config.Params} {len : Nat} (h : len ≤ p.winMax) :
    log2gt len ≤ p.log2nMax ∧ pow2gt len ≤ 2 ^ p.log2nMax := by
  have h1 : 0 < 2 ^ p.log2nMax := Nat.two_pow_pos _
  have : len < 2 ^ p.log2nMax := by unfold Config.Params.winMax at h; omega
  exact ⟨log2gt_le this, pow2gt_le_pow this⟩

/-- The peak of a window that is not empty lies in the lower half of the bins, and is 0 with no survivor
(44_demodulator R203, R205). -/
theorem classify_peak {num : Config.Numerics} {s : State} {seg : List Sample} (h1 : 1 ≤ seg.length) (hs : s.srate ≠ 0) :
    2 * (s.classify num seg).peak < pow2gt seg.length ∧
      ((s.classify num seg).noband = true → (s.classify num seg).peak = 0) := by
  unfold State.classify
  simp only []
  cases hp : peakOf (fun k => (num.mag seg k).toNat) (s.survivors (pow2gt seg.length)) with
  | none =>
    simp only [Option.getD_none]
    exact ⟨by have := pow2gt_pos seg.length; omega, fun _ => trivial⟩
  | some p =>
    simp only [Option.getD_some]
    have := (peakOf_spec (survivors_rising _ _) hp).1
    refine ⟨?_, fun he => ?_⟩
    · rw [mem_survivors] at this
      obtain ⟨h2, h3⟩ := this
      have hk : p < pow2gt seg.length / 2 := by
        by_contra hc
        simp only [State.survives, signedBin, hc, if_false, decide_eq_true_eq] at h3
        have := toNat_pos_of_ne hs
        have a1 : (0 : Int) ≤ s.bandLo.toNat * pow2gt seg.length := by positivity
        have a2 : ((p : Int) - pow2gt seg.length) * s.srate.toNat < 0 := by
          apply mul_neg_of_neg_of_pos <;> omega
        omega
      have := pow2gt_even h1
      omega
    · rw [List.isEmpty_iff] at he; rw [he] at this; simp at this

theorem validSymbols_le (s : State) : s.validSymbols.length ≤ s.symLen.toNat := by
  unfold State.validSymbols
  exact le_trans (List.length_filter_le _ _) (by simp)

theorem sps_pos {s : State} (h : s.durationSet = true) : 0 < s.sps := by
  have := (durationSet_iff s).mp h
  omega

@[simp] theorem symbolWindow_length (s : State) (b : Bank) (w : Nat) :
    (s.symbolWindow b w).length = min s.sps ((s.waveLen b).toNat - w * s.sps) := by
  simp [State.symbolWindow]

end Sys2Proof.Machine
end

