-- ==== Sys2Proof/Laws/Checks.lean ====
section
/-! SUPPORT. The checks of the runs against the condition tables of Safety.lean. -/

namespace Sys2Proof.Machine

theorem toNat_eq_zero_iff {w : Nat} (x : BitVec w) : x.toNat = 0 ↔ x = 0 :=
  ⟨fun h => BitVec.eq_of_toNat_eq (by simpa using h), fun h => by simp [h]⟩

/-- NOISE's configuration check is the complement of its row of 60_exceptions R264. -/
theorem noiseCfgOk_iff (b d : Bank) (s : State) : s.noiseCfgOk = true ↔ ¬cfgFails (.noise b d) s := by
  have hz := toNat_eq_zero_iff s.level
  simp only [State.noiseCfgOk, State.noiseRow, cfgFails, Bool.and_eq_true, Bool.or_eq_true, decide_eq_true_eq,
    Bool.not_eq_true', Bool.and_eq_false_iff, decide_eq_false_iff_not, BitVec.lt_def, not_or, not_and]
  constructor
  · rintro ⟨h1, h2⟩
    refine ⟨by omega, fun h3 => ?_, fun h3 h4 => ?_⟩
    · rcases h2 with h2 | h2
      · have := hz.mpr h2; omega
      · exact h2.1
    · rcases h2 with h2 | ⟨-, h2 | h2⟩
      · have := hz.mpr h2; omega
      · exact absurd h4 (of_decide_eq_false h2)
      · exact h2
  · rintro ⟨h1, h2, h3⟩
    refine ⟨by omega, ?_⟩
    by_cases hl : s.level = 0
    · exact .inl hl
    · have hl1 : 1 ≤ s.level.toNat := toNat_pos_of_ne hl
      refine .inr ⟨h2 hl1, ?_⟩
      by_cases hb : 1 ≤ (s.params.row s.level.toNat).bandN.toNat
      · exact .inr (h3 hl1 hb)
      · exact .inl (decide_eq_false hb)

/-- Where no condition of the tables holds, the run gives its updates. -/
theorem runUnder_of_succeeds (num : Config.Numerics) {i : Instr} {s : State} (h : Succeeds i s) :
    ∃ u, runUnder num i s = .ok u := by
  obtain ⟨h1, h2, h3, h4⟩ := h
  cases i with
  | nop => exact ⟨_, rfl⟩
  | b2s =>
    simp only [rangeFails, ovfFails, not_lt] at h2 h4
    exact ⟨_, runB2s_ok.mpr ⟨h2, h4, rfl⟩⟩
  | s2b =>
    simp only [rangeFails, ovfFails, badSymFails, not_lt] at h2 h3 h4
    refine ⟨_, runS2b_ok.mpr ⟨h2, fun i hi => ?_, h4, rfl⟩⟩
    by_contra hc
    exact h3 ⟨trivial, i, hi, fun h => hc (.inl h), fun h => hc (.inr h)⟩
  | mod d =>
    simp only [cfgFails, rangeFails, ovfFails, not_lt, not_or] at h1 h2 h4
    exact ⟨_, runMod_ok.mpr ⟨(carriersSet_iff s).mpr ⟨h1.1, h1.2.2.2⟩,
      (durationSet_iff s).mpr ⟨h1.2.1, h1.2.2.1⟩, h2, h4, rfl⟩⟩
  | anlz b =>
    simp only [rangeFails, not_lt, not_or] at h2
    exact ⟨_, runAnlz_ok.mpr ⟨(windowOk_iff s b).mpr h2, rfl⟩⟩
  | demw b =>
    simp only [cfgFails, rangeFails, not_lt, not_or] at h1 h2
    exact ⟨_, runDemw_ok.mpr ⟨(carriersSet_iff s).mpr h1, (windowOk_iff s b).mpr h2, rfl⟩⟩
  | demod b =>
    simp only [cfgFails, rangeFails, ovfFails, not_lt, not_or] at h1 h2 h4
    exact ⟨_, runDemod_ok.mpr ⟨(carriersSet_iff s).mpr ⟨h1.1, h1.2.2.2.2⟩,
      (durationSet_iff s).mpr ⟨h1.2.1, h1.2.2.1⟩, h1.2.2.2.1, h2, h4, rfl⟩⟩
  | noise b d =>
    have hc := (noiseCfgOk_iff b d s).mpr h1
    simp only [rangeFails, not_lt] at h2
    by_cases hl : s.level = 0
    · exact ⟨_, runNoise_ok.mpr ⟨hc, h2, .inl ⟨hl, rfl⟩⟩⟩
    · by_cases hw : (s.waveLen b).toNat = 0
      · exact ⟨_, runNoise_ok.mpr ⟨hc, h2, .inr (.inl ⟨hl, hw, rfl⟩)⟩⟩
      · exact ⟨_, runNoise_ok.mpr ⟨hc, h2, .inr (.inr ⟨hl, hw, rfl⟩)⟩⟩

theorem runOf_of_succeeds {i : Instr} {s : State} (h : Succeeds i s) : ∃ u, runOf i s = .ok u :=
  runUnder_of_succeeds num h

end Sys2Proof.Machine
end

