-- ==== Sys2Proof/Laws/Ideal.lean ====
section
/-! SUPPORT. NUM: what 00_scope R6 gives at the windows the machine analyses, and that the ideal profile is one of the
configurations R6 allows. -/

namespace Sys2Proof.Machine

open Sys2Proof.Config

/-- The machine's transform size is the one NUM.mag is accurate for (43_analyzer R188). -/
theorem isTransformSize_pow2gt {len : Nat} (h : 1 ≤ len) : IsTransformSize len (pow2gt len) :=
  ⟨⟨log2gt len, rfl⟩, lt_pow2gt len, pow2gt_le h⟩

/-- No hardware analyses a window longer than the largest WIN_MAX (00_scope R5). -/
theorem winMax_le_largest {p : Params} (h : p.SizesOk) : p.winMax ≤ winMaxLargest := by
  have : 2 ^ p.log2nMax ≤ 2 ^ 16 := Nat.pow_le_pow_right (by decide) h.2.2.2.1.2
  unfold Params.winMax winMaxLargest
  omega

/-- Every real has an rne. -/
theorem exists_isRne (x : ℝ) : ∃ m, IsRne x m := by
  have h1 := Int.floor_le x
  have h2 := Int.lt_floor_add_one x
  rcases lt_trichotomy (x - ⌊x⌋) (1 / 2) with h | h | h
  · exact ⟨⌊x⌋, .inl (by rw [abs_lt]; constructor <;> linarith)⟩
  · rcases Int.even_or_odd ⌊x⌋ with he | he
    · exact ⟨⌊x⌋, .inr ⟨by rw [h, abs_of_pos (by norm_num)], he⟩⟩
    · refine ⟨⌊x⌋ + 1, .inr ⟨?_, he.add_one⟩⟩
      push_cast
      rw [show x - (⌊x⌋ + 1) = -(1 / 2) by linarith, abs_neg, abs_of_pos (by norm_num)]
  · refine ⟨⌊x⌋ + 1, .inl ?_⟩
    push_cast
    rw [abs_lt]
    constructor <;> linarith

theorem isTransformSize_unique {len n n' : Nat} (h : IsTransformSize len n) (h' : IsTransformSize len n') : n = n' := by
  obtain ⟨⟨a, rfl⟩, h1, h2⟩ := h
  obtain ⟨⟨b, rfl⟩, h3, h4⟩ := h'
  have key : ∀ {a b : Nat}, len < 2 ^ a → 2 ^ b ≤ 2 * len → b ≤ a := fun {a b} ha hb => by
    have : 2 ^ b < 2 ^ (a + 1) := by rw [pow_succ]; omega
    have := (Nat.pow_lt_pow_iff_right (a := 2) (by decide)).mp this
    omega
  rw [le_antisymm (key h3 h2) (key h1 h4)]

/-- The rounded magnitude of a window the core can analyse fits 64 bits (43_analyzer R194 (g)). -/
theorem magnitude_rne {seg : List Sample} {n k : ℕ} {x : ℝ} {m : ℤ} (hl : seg.length ≤ winMaxLargest)
    (h : IsMagnitude seg n k x) (hm : IsRne (x * 2 ^ 32) m) : 0 ≤ m ∧ m < 2 ^ 63 := by
  have hlen : (seg.length : ℝ) ≤ 65535 := by exact_mod_cast hl
  obtain ⟨h0, h1⟩ := magnitude_le h
  have ha := abs_le.mp (isRne_abs_le hm)
  have h2 : x * 2 ^ 32 ≤ 32768 * 65535 * 2 ^ 32 := by gcongr; linarith
  have h3 : 0 ≤ x * 2 ^ 32 := by positivity
  constructor
  · have : (-1 : ℝ) < m := by linarith
    have : (-1 : ℤ) < m := by exact_mod_cast this
    omega
  · have : (m : ℝ) < 2 ^ 63 := by norm_num at h2 ⊢; linarith
    exact_mod_cast this

/-- The ideal profile is one of the numerics configurations of 00_scope R6. -/
theorem exists_ideal : ∃ ideal : Numerics, ideal.Ideal := by
  choose round hround using exists_isRne
  let size (seg : List Sample) : Nat := pow2gt seg.length
  let magnitude (seg : List Sample) (k : Nat) : ℝ := Real.sqrt
    ((∑ i ∈ Finset.range seg.length, ((seg.getD i 0).toInt : ℝ) * Real.cos (2 * Real.pi * k * i / size seg)) ^ 2 +
     (∑ i ∈ Finset.range seg.length, ((seg.getD i 0).toInt : ℝ) * Real.sin (2 * Real.pi * k * i / size seg)) ^ 2)
  let sine (p q : Nat) : ℝ := Real.sin (2 * Real.pi * p / q)
  let mag (seg : List Sample) (k : Nat) : Mag := BitVec.ofInt 64 (round (magnitude seg k * 2 ^ 32))
  have hmag : ∀ (seg : List Sample) (n k : ℕ) (x : ℝ), 1 ≤ seg.length → seg.length ≤ winMaxLargest →
      IsTransformSize seg.length n → k < n → IsMagnitude seg n k x → IsRne (x * 2 ^ 32) (mag seg k).toNat := by
    intro seg n k x h1 hl hn _ hx
    obtain rfl : n = size seg := isTransformSize_unique hn (isTransformSize_pow2gt h1)
    have hxm : x = magnitude seg k := hx
    have hr := hround (magnitude seg k * 2 ^ 32)
    obtain ⟨h0, h63⟩ := magnitude_rne hl (show IsMagnitude seg (size seg) k (magnitude seg k) from rfl) hr
    have : ((mag seg k).toNat : ℤ) = round (magnitude seg k * 2 ^ 32) := by
      show (((BitVec.ofInt 64 _).toNat : ℕ) : ℤ) = _
      rw [BitVec.toNat_ofInt]
      have h64 : round (magnitude seg k * 2 ^ 32) % (2 ^ 64 : ℕ) = round (magnitude seg k * 2 ^ 32) :=
        Int.emod_eq_of_lt h0 (lt_trans h63 (by norm_num))
      rw [h64, Int.toNat_of_nonneg h0]
    rw [this, hxm]
    exact hr
  refine ⟨{
    sin := sine
    mag := mag
    gauss := fun _ => 0
    epsSin := 0
    epsMag := 1 / 2 ^ 33
    rne := fun c ts => round (c + (ts.map fun t => (t.amp : ℝ) * sine t.p t.q).sum)
    epsSin_bounds := by norm_num
    epsMag_bounds := by norm_num
    sin_range := fun p q _ => Real.abs_sin_le_one _
    sin_accurate := fun p q _ => by simp [sine]
    sin_form := .inr fun p q _ => rfl
    mag_accurate := fun seg n k x h1 hl hn hk hx => ?_
    rne_spec := fun c ts => hround _ }, rfl, rfl, fun p q _ => rfl, hmag⟩
  have := isRne_abs_le (hmag seg n k x h1 hl hn hk hx)
  rw [abs_sub_comm] at this
  have e : ((mag seg k).toNat : ℝ) / 2 ^ 32 - x = (((mag seg k).toNat : ℝ) - x * 2 ^ 32) / 2 ^ 32 := by
    field_simp
  push_cast at this ⊢
  rw [e, abs_div, abs_of_pos (show (0 : ℝ) < 2 ^ 32 by norm_num), div_le_iff₀ (by norm_num)]
  refine le_trans this ?_
  norm_num

/-- EPS_SIN is at most 2^−18 (00_scope R6 (d)). -/
theorem epsSin_le (num : Numerics) : (num.epsSin : ℝ) ≤ 1 / 2 ^ 18 := by
  have : ((num.epsSin : ℚ) : ℝ) ≤ ((1 / 2 ^ 18 : ℚ) : ℝ) := by exact_mod_cast num.epsSin_bounds.2
  push_cast at this
  exact this

/-- MAGRAW of a window the core analyses is within EPS_MAG of the modulus of its transform (00_scope R6 (b)). -/
theorem mag_near (num : Numerics) {seg : List Sample} {k : ℕ} {x : ℝ} (h1 : 1 ≤ seg.length)
    (hl : seg.length ≤ winMaxLargest) (hk : k < pow2gt seg.length) (hx : IsMagnitude seg (pow2gt seg.length) k x) :
    |((num.mag seg k).toNat : ℝ) / 2 ^ 32 - x| ≤ (num.epsMag : ℝ) :=
  num.mag_accurate seg _ k x h1 hl (isTransformSize_pow2gt h1) hk hx

end Sys2Proof.Machine
end

