-- ==== Sys2Proof/Laws/Noise.lean ====
section
/-! SUPPORT. The random draws and the noise terms of NOISE, in closed form. -/

namespace Sys2Proof.Machine

/-- The generator state after `m` draws from `g`. -/
abbrev genAfter (g : BitVec 64) (m : Nat) : BitVec 64 := (fun g => (Config.rngNext g).1)^[m] g

/-- The word of draw number `m` (from 0) from `g`. -/
abbrev wordAt (g : BitVec 64) (m : Nat) : Word := (Config.rngNext (genAfter g m)).2

theorem genAfter_add (g : BitVec 64) (m n : Nat) : genAfter g (m + n) = genAfter (genAfter g m) n := by
  simp only [genAfter, Nat.add_comm m n, Function.iterate_add_apply]

/-- All that `drawMany` does: the words of the draws in order, and the state they leave. -/
theorem drawMany_eq (n : Nat) (g : BitVec 64) : drawMany n g = ((List.range n).map (wordAt g), genAfter g n) := by
  induction n generalizing g with
  | zero => rfl
  | succ n ih =>
    simp only [drawMany, ih]
    rw [List.range_succ_eq_map]
    simp only [List.map_cons, List.map_map]
    exact Prod.ext_iff.mpr ⟨rfl, rfl⟩

/-- The draws of a NOISE command, by their numbers (45_noise R232). -/
theorem drawNoise_eq (row : Config.NoiseRow) (len : Nat) (g : BitVec 64) :
    drawNoise row len g =
      { humWord := wordAt g 0
        gauss := (List.range len).map fun i => wordAt g (1 + i)
        impulses := (List.range (2 * row.impN.toNat)).map fun j => wordAt g (1 + len + j)
        phases := (List.range row.bandN.toNat).map fun j => wordAt g (1 + len + 2 * row.impN.toNat + j)
        rng := genAfter g (1 + len + 2 * row.impN.toNat + row.bandN.toNat) } := by
  have h1 : (Config.rngNext g).1 = genAfter g 1 := rfl
  have h2 : ∀ m j, wordAt g (m + j) = wordAt (genAfter g m) j := fun m j => by
    unfold wordAt
    rw [genAfter_add]
  simp only [drawNoise, drawMany_eq, h1, h2, ← genAfter_add]
  rfl

/-- The impulse term as a sum over the spikes (45_noise R235, R236). -/
theorem impulseAt_eq (row : Config.NoiseRow) (len i n : Nat) (f : Nat → Word) :
    impulseAt row len i ((List.range (2 * n)).map f) =
      ∑ j ∈ Finset.range n, if (f (2 * j)).toNat % len = i then spike row (f (2 * j + 1)) else 0 := by
  induction n generalizing f with
  | zero => rfl
  | succ n ih =>
    have : (List.range (2 * (n + 1))).map f = f 0 :: f 1 :: (List.range (2 * n)).map fun j => f (j + 2) := by
      rw [show 2 * (n + 1) = 2 * n + 1 + 1 from rfl, List.range_succ_eq_map, List.range_succ_eq_map]
      simp [Function.comp_def]
    rw [this, impulseAt, ih, Finset.sum_range_succ', add_comm]
    rfl

/-- The band tones, by their numbers (45_noise R237). -/
theorem bandTones_eq (row : Config.NoiseRow) (lo hi sr i n : Nat) (f : Nat → Word) :
    bandTones row lo hi sr i ((List.range n).map f) = (List.range n).map fun j =>
      ⟨row.bandA.toNat, toneHertz lo hi row.bandN.toNat j * i * 65536 + ((f j).toNat % 65536) * sr, sr * 65536⟩ := by
  unfold bandTones
  apply List.ext_getElem <;> simp

/-- The value of a list of tones given by their numbers. -/
theorem sum_tones (num : Config.Numerics) (n : Nat) (f : Nat → Config.Tone) :
    (((List.range n).map f).map fun t => (t.amp : ℝ) * num.sin t.p t.q).sum =
      ∑ j ∈ Finset.range n, ((f j).amp : ℝ) * num.sin (f j).p (f j).q := by
  rw [List.map_map]
  induction n with
  | zero => simp
  | succ n ih => simp [List.range_succ, Finset.sum_range_succ, ih]

end Sys2Proof.Machine
end

