-- ==== Sys2Proof/WellFormed.lean ====
section
/-! DEFINITION. Legality of a command word, by its fields, as 30_encoding R105 lists it. This is written apart from the
mask and match table of R104, which Decode.lean reads: that the two agree is an obligation. The operands of `Instr` are
banks, and either bank may stand wherever one does (R101), so every `Instr` is well formed; the checks that can fail are
those on the fields of a word. -/

namespace Sys2Proof

/-- The four fields of format C (30_encoding R100). -/
structure Fields where
  opc  : BitVec 8
  s    : Bool
  d    : Bool
  zero : BitVec 22
deriving DecidableEq, Repr

/-- The fields of a command word (30_encoding R100). -/
def Fields.ofWord (w : Word) : Fields where
  opc  := w.extractLsb' 0 8
  s    := w.getLsbD 8
  d    := w.getLsbD 9
  zero := w.extractLsb' 10 22

/-- OPC is not one of the reserved codes 0x08 to 0xFF (30_encoding R102). -/
def Fields.opcOk (f : Fields) : Bool := decide (f.opc.toNat < 8)

/-- Bits [31:10] are 0. -/
def Fields.zeroOk (f : Fields) : Bool := f.zero == 0

/-- Bit 8 is 0 in NOP, B2S, S2B and MOD, which do not use S. -/
def Fields.sOk (f : Fields) : Bool := !(f.s && [0, 1, 2, 3].contains f.opc.toNat)

/-- Bit 9 is 0 in NOP, B2S, S2B, ANLZ, DEMW and DEMOD, which do not use D. -/
def Fields.dOk (f : Fields) : Bool := !(f.d && [0, 1, 2, 4, 5, 6].contains f.opc.toNat)

/-- A legal word: none of the conditions of 30_encoding R105 holds. -/
def Fields.wellFormed (f : Fields) : Bool := f.opcOk && f.zeroOk && f.sOk && f.dOk

/-- Well-formedness of an instruction: its operands are banks, and each command allows both (30_encoding R101). -/
def Instr.wellFormed : Instr → Bool
  | .nop => true
  | .b2s => true
  | .s2b => true
  | .mod _ => true
  | .anlz _ => true
  | .demw _ => true
  | .demod _ => true
  | .noise _ _ => true

end Sys2Proof
end

