-- ==== Sys2Proof/Laws/PerInstr.lean ====
section
/-! SUPPORT. The family of statements proved command by command: a command's word is legal by the field rules of
30_encoding R105, and carries the command's own opcode (30_encoding R102). -/

namespace Sys2Proof.Laws.LegalWord

/-- The opcode of each command (30_encoding R102). -/
def opcode : Instr → Nat
  | .nop => 0
  | .b2s => 1
  | .s2b => 2
  | .mod _ => 3
  | .anlz _ => 4
  | .demw _ => 5
  | .demod _ => 6
  | .noise _ _ => 7

/-- The fields of the word of `i` are legal, and its OPC is that of `i`. -/
def Statement (i : Instr) : Prop :=
  (Fields.ofWord (encode i)).wellFormed = true ∧ (Fields.ofWord (encode i)).opc.toNat = opcode i ∧
    i.wellFormed = true

theorem nop : Statement .nop := by unfold Statement; decide

theorem b2s : Statement .b2s := by unfold Statement; decide

theorem s2b : Statement .s2b := by unfold Statement; decide

theorem mod (d : Bank) : Statement (.mod d) := by unfold Statement; cases d <;> decide

theorem anlz (s : Bank) : Statement (.anlz s) := by unfold Statement; cases s <;> decide

theorem demw (s : Bank) : Statement (.demw s) := by unfold Statement; cases s <;> decide

theorem demod (s : Bank) : Statement (.demod s) := by unfold Statement; cases s <;> decide

theorem noise (s d : Bank) : Statement (.noise s d) := by unfold Statement; cases s <;> cases d <;> decide

end Sys2Proof.Laws.LegalWord
end

