-- ==== Sys2Proof/Laws/Step.lean ====
section
/-! SUPPORT. The step taken apart: which move it makes, that it answers, and what no step writes. -/

namespace Sys2Proof.Machine

/-! ### Which move a step makes -/

theorem step_nil {s : State} (h : s.schedule = []) : step s = coreMove s := by simp [step, h]

theorem step_cons {s : State} {m : Move} {rest : List Move} (h : s.schedule = m :: rest) :
    step s = takeMove m { s with schedule := rest } := by simp [step, h]

theorem complete_some {s : State} {i : Instr} (h : decode s.cmd = some i) : complete s = exec i s := by
  simp [complete, State.command, h]

theorem complete_none {s : State} (h : decode s.cmd = none) : complete s = .next (s.failWith .illCmd) := by
  simp [complete, State.command, h, conclude]

theorem coreMove_busy {s : State} (h : s.busy = true) : coreMove s = complete s := by simp [coreMove, h]

theorem coreMove_idle {s : State} (h : s.busy = false) : coreMove s = .next s := by simp [coreMove, h]

/-- The machine's runs, one step at a time. -/
theorem run_succ {s t : State} (h : step s = .next t) (k : Nat) :
    Host.Core.run core (k + 1) s = Host.Core.run core k t := by
  have h' : core.step s = .next t := h
  simp only [Host.Core.run, h']

/-! ### Every move answers -/

theorem complete_answers (s : State) : ∃ t, complete s = .next t ∧ t.busy = false ∧ t.fin = true := by
  unfold complete
  split
  · exact ⟨_, rfl, rfl, rfl⟩
  · exact exec_answers _ _

theorem coreMove_answers (s : State) :
    ∃ t, coreMove s = .next t ∧ t.busy = false ∧ (s.busy = true → t.fin = true) := by
  cases hb : s.busy with
  | true =>
    obtain ⟨t, h1, h2, h3⟩ := complete_answers s
    exact ⟨t, by rw [coreMove_busy hb, h1], h2, fun _ => h3⟩
  | false => exact ⟨s, coreMove_idle hb, hb, fun h' => by simp at h'⟩

/-! ### The schedule and the parameters -/

theorem hostWrite_kept (s : State) (a : BusAddr) (v : Word) :
    (s.hostWrite a v).schedule = s.schedule ∧ (s.hostWrite a v).params = s.params := by
  rcases hostWrite_state s a v with h | h | ⟨r, _, _, h⟩ | ⟨_, _, hr, h⟩ <;> rw [h]
  · exact ⟨rfl, rfl⟩
  · exact ⟨rfl, rfl⟩
  · cases r <;> try exact ⟨rfl, rfl⟩
    simp only [State.writeReg, State.writeCtrl]
    split <;> exact ⟨rfl, rfl⟩
  · cases ht : target a <;> try exact ⟨rfl, rfl⟩
    exact absurd ht (hr _)

theorem hostRead_kept (s : State) (a : BusAddr) :
    (s.hostRead a).2.schedule = s.schedule ∧ (s.hostRead a).2.params = s.params := by
  rcases hostRead_state s a with h | h | ⟨_, h⟩ <;> rw [h] <;> exact ⟨rfl, rfl⟩

theorem exec_kept {i : Instr} {s t : State} (h : exec i s = .next t) :
    t.schedule = s.schedule ∧ t.params = s.params := by
  rcases exec_next.mp h with ⟨c, hc, rfl⟩ | ⟨u, hu, rfl⟩
  · simp
  · have := runOf_kept hu
    simp [this]

theorem complete_kept {s t : State} (h : complete s = .next t) :
    t.schedule = s.schedule ∧ t.params = s.params := by
  cases hd : decode s.cmd with
  | none => rw [complete_none hd] at h; cases h; simp
  | some i => rw [complete_some hd] at h; exact exec_kept h

theorem coreMove_kept {s t : State} (h : coreMove s = .next t) :
    t.schedule = s.schedule ∧ t.params = s.params := by
  cases hb : s.busy with
  | true => rw [coreMove_busy hb] at h; exact complete_kept h
  | false => rw [coreMove_idle hb] at h; cases h; simp

theorem takeMove_kept {m : Move} {s t : State} (h : takeMove m s = .next t) :
    t.schedule = s.schedule ∧ t.params = s.params := by
  cases m with
  | read a => cases h; exact hostRead_kept s a
  | write a v => cases h; exact hostWrite_kept s a v
  | core => exact coreMove_kept h
  | reset => cases h; exact ⟨rfl, rfl⟩

/-- A step takes one move off the schedule and changes no parameter. -/
theorem step_kept {s t : State} (h : step s = .next t) :
    t.schedule = s.schedule.tail ∧ t.params = s.params := by
  match hs : s.schedule with
  | [] => rw [step_nil hs] at h; have := coreMove_kept h; simp [this, hs]
  | m :: rest => rw [step_cons hs] at h; exact takeMove_kept h

end Sys2Proof.Machine
end

