-- ==== Sys2Proof/Tests/Slice0.lean ====
section
/-! SUPPORT. Tests on fixed values, each from a vector of 95_test_vectors or worked by hand from the rule its docstring
names, and for every obligation with hypotheses a witness that meets them. -/

namespace Sys2Proof.Tests

open Sys2Proof Sys2Proof.Machine

/-! ### Helpers -/

/-- The outcome is a next state with the property. -/
def isNext (o : Host.Outcome State Fault Refusal) (p : State → Bool) : Bool :=
  match o with
  | .next t => p t
  | .fault _ => false
  | .refused _ => false

/-- Config A of 95_test_vectors: 9600 Hz, 1200 symbols a second, 1200 and 2200 Hz, band 1000 to 2500 Hz. -/
def configA : State :=
  { State.reset with
    srate := 9600, symdurNum := 1, symdurDen := 1200, fSpace := 1200, fMark := 2200, bandLo := 1000, bandHi := 2500 }

/-- The symbols 0, x, 1 in SYMBUF (vector MV5). -/
def symbolsA : State := configA.storeSymbols [0x30, 0x78, 0x31]

/-- The waveform Z of 95_test_vectors and one sample more in WAVE[0]. -/
def waveA : State := configA.storeWave .wave0 [0, 23170, 32767, 23170, 0, -23170, -32767, -23170, 0]

/-- WAVE[0] holds the samples `vs`, and the window is all of it. -/
def windowA (vs : List Sample) : State :=
  { configA.storeWave .wave0 vs with winLen := BitVec.ofNat 32 vs.length }

/-- The byte 0x41 in BYTEBUF (vector KV1). -/
def byteA : State := configA.storeBytes [0x41]

/-- The symbols of 0x41, and a ninth that is not valid (vector KV10). -/
def bitsA : State := configA.storeSymbols [0x30, 0x31, 0x30, 0x30, 0x30, 0x30, 0x30, 0x31, 0x78]

/-- Config A with the word `w` accepted. -/
def flying (w : Word) : State := configA.accept w

/-- Config A with WAVE_DEPTH 16: entries past the end of the banks have addresses. -/
def smallBanks : State :=
  { configA with params := { configA.params with waveDepth := 16, symDepth := 16, log2nMax := 4 } }

/-! ### Well-formedness of a word (30_encoding R105): one ill-formed word for each check -/

theorem test_wf_legal : ((Fields.ofWord 0x00000307).wellFormed && (Fields.ofWord 0x00000203).wellFormed &&
    (Fields.ofWord 0x00000106).wellFormed && (Fields.ofWord 0).wellFormed) = true := by decide
theorem test_wf_opc : (Fields.ofWord 0x00000008).opcOk = false ∧ (Fields.ofWord 0x00000008).wellFormed = false := by
  decide
theorem test_wf_zero : (Fields.ofWord 0x80000000).zeroOk = false ∧ (Fields.ofWord 0x80000000).wellFormed = false := by
  decide
theorem test_wf_s : (Fields.ofWord 0x00000103).sOk = false ∧ (Fields.ofWord 0x00000103).wellFormed = false := by
  decide
theorem test_wf_d : (Fields.ofWord 0x00000204).dOk = false ∧ (Fields.ofWord 0x00000204).wellFormed = false := by
  decide

/-! ### Decoding: words written out bit by bit from 30_encoding R100 (OPC low, then S, then D) and R104 -/

theorem test_decode_nop : decode 0b0000000000000000000000_0_0_00000000#32 = some .nop := by decide
theorem test_decode_b2s : decode 0b0000000000000000000000_0_0_00000001#32 = some .b2s := by decide
theorem test_decode_s2b : decode 0b0000000000000000000000_0_0_00000010#32 = some .s2b := by decide
theorem test_decode_mod : decode 0b0000000000000000000000_0_0_00000011#32 = some (.mod .wave0) ∧
    decode 0b0000000000000000000000_1_0_00000011#32 = some (.mod .wave1) := by decide
theorem test_decode_anlz : decode 0b0000000000000000000000_0_0_00000100#32 = some (.anlz .wave0) ∧
    decode 0b0000000000000000000000_0_1_00000100#32 = some (.anlz .wave1) := by decide
theorem test_decode_demw : decode 0b0000000000000000000000_0_0_00000101#32 = some (.demw .wave0) ∧
    decode 0b0000000000000000000000_0_1_00000101#32 = some (.demw .wave1) := by decide
theorem test_decode_demod : decode 0b0000000000000000000000_0_0_00000110#32 = some (.demod .wave0) ∧
    decode 0b0000000000000000000000_0_1_00000110#32 = some (.demod .wave1) := by decide
theorem test_decode_noise : decode 0b0000000000000000000000_0_0_00000111#32 = some (.noise .wave0 .wave0) ∧
    decode 0b0000000000000000000000_0_1_00000111#32 = some (.noise .wave1 .wave0) ∧
    decode 0b0000000000000000000000_1_0_00000111#32 = some (.noise .wave0 .wave1) ∧
    decode 0b0000000000000000000000_1_1_00000111#32 = some (.noise .wave1 .wave1) := by decide
/-- The illegal words that 95_test_vectors lists. -/
theorem test_decode_illegal : ([0x00000008, 0x000000FF, 0x00000100, 0x00000101, 0x00000202, 0x00000103, 0x00000204,
    0x00000306, 0x00000407, 0x80000000, 0xFFFFFFFF] : List Nat).all (fun n => (decode (BitVec.ofNat 32 n)).isNone)
    = true := by decide
theorem test_tableWord : decodeTableWord 32 0x203 = some (.mod .wave1) ∧ decodeTableWord 32 0x103 = none := by decide

/-! ### The commands -/

/-- Vector EV1. -/
theorem test_nop : isNext (step (State.reset.withFetchWord 32 0)) (fun t => t.statusWord == 0x002) = true := by decide
/-- Vector KV1: bit 7 first. -/
theorem test_b2s : isNext (exec .b2s byteA) (fun t => t.symLen == 8 && ((List.range 8).map t.symAt ==
    [0x30, 0x31, 0x30, 0x30, 0x30, 0x30, 0x30, 0x31])) = true := by decide
/-- Vector KV12. -/
theorem test_b2s_range : isNext (exec .b2s ({ configA with byteLen := 16385 }.accept 1))
    (fun t => t.statusWord == 0x306) = true := by decide
/-- Vector KV10: the invalid symbol stands in the dropped tail. -/
theorem test_s2b : isNext (exec .s2b bitsA) (fun t => t.byteLen == 1 && t.byteAt 0 == 0x41 && !t.err) = true := by
  decide
/-- Vector KV9. -/
theorem test_s2b_badsym : isNext (exec .s2b ((configA.storeSymbols [0x30, 0x31, 0x30, 0x30, 0x78, 0x30, 0x30, 0x31]).accept 2))
    (fun t => t.statusWord == 0x406 && t.byteLen == 0) = true := by decide
/-- Vector MV5. -/
theorem test_mod : isNext (exec (.mod .wave1) symbolsA)
    (fun t => t.waveLen1 == 16 && t.waveLen0 == 0 && t.invsymCnt == 1 && t.flags.word == 1) = true := by decide
/-- Vector EV14: the configuration check goes first. -/
theorem test_mod_order : isNext (exec (.mod .wave0) ({ State.reset with symLen := 131073 }.accept 3))
    (fun t => t.statusWord == 0x206) = true := by decide
/-- 43_analyzer R188: 8 samples give N = 16. -/
theorem test_anlz : isNext (exec (.anlz .wave0) { waveA with winLen := 8 })
    (fun t => t.log2n == 4 && t.mem.mag.length == 16) = true := by decide
/-- 95_test_vectors, section 5: WIN_OFF = 0xFFFFFFFF with WIN_LEN = 1 does not wrap. -/
theorem test_anlz_range : isNext (exec (.anlz .wave0) ({ waveA with winOff := 0xFFFFFFFF, winLen := 1 }.accept 4))
    (fun t => t.statusWord == 0x306) = true := by decide
/-- Vector DV4: an empty band. -/
theorem test_demw : isNext (exec (.demw .wave0) { waveA with winLen := 8, bandLo := 1300, bandHi := 1700 })
    (fun t => t.readReg .peakInfo == 2 && t.nobandCnt == 1 && t.flags.noband && t.peakBin == 0) = true := by decide
/-- Vector DV4 with the carriers exchanged. -/
theorem test_demw_bit : isNext (exec (.demw .wave0)
      { waveA with winLen := 8, bandLo := 2500, bandHi := 1000, fSpace := 2200, fMark := 1200 })
    (fun t => t.readReg .peakInfo == 3) = true := by decide
/-- Vector DV15's band, on nine samples: two windows, the last of one sample (44_demodulator R211, R214). -/
theorem test_demod : isNext (exec (.demod .wave0) { waveA with bandLo := 1300, bandHi := 1700 })
    (fun t => t.symLen == 2 && t.symAt 0 == 0x30 && t.symAt 1 == 0x30 && t.nobandCnt == 2 && t.flags.word == 6 &&
      t.log2n == 1) = true := by decide
/-- Vector DV16: SPS = 65536 is above WIN_MAX. -/
theorem test_demod_sps : isNext (exec (.demod .wave0) ({ configA with srate := 65536, symdurDen := 1 }.accept 6))
    (fun t => t.statusWord == 0x206) = true := by decide
/-- Vector NV4. -/
theorem test_noise_copy : isNext (exec (.noise .wave0 .wave1) (State.reset.storeWave .wave0 [-32768, 5, 32767]))
    (fun t => t.waveLen1 == 3 && ((List.range 3).map (t.waveAt .wave1) == [-32768, 5, 32767])) = true := by decide
/-- Vector NV9: LEVEL = 6. -/
theorem test_noise_level : isNext (exec (.noise .wave0 .wave1) ({ waveA with level := 6 }.accept 0x207))
    (fun t => t.statusWord == 0x206) = true := by decide

/-! ### The numeric functions -/

/-- Vectors MV2 and MV10: ties go to the even neighbour, whatever NUM. -/
theorem test_rne (profile : Config.Numerics) : profile.rne (-32767 / 2) [] = -16384 ∧ profile.rne (-1 / 2) [] = 0 ∧
    profile.rne (3 / 2) [] = 2 := by
  refine ⟨isRne_unique (profile.rne_spec _ _) ?_, isRne_unique (profile.rne_spec _ _) ?_,
    isRne_unique (profile.rne_spec _ _) ?_⟩ <;>
    (right; norm_num [abs_of_pos, abs_of_neg]; try decide)
/-- Vector MV8: the clip, on 65535 times 1/2 and −1. -/
theorem test_clip (profile : Config.Numerics) : (quantise profile (65535 / 2) []).toInt = 32767 ∧
    (quantise profile (-65535) []).toInt = -32767 := by
  have h1 : profile.rne (65535 / 2) [] = 32768 := isRne_unique (profile.rne_spec _ _) (by
    right; norm_num [abs_of_neg])
  have h2 : profile.rne (-65535) [] = -65535 := isRne_unique (profile.rne_spec _ _) (by left; norm_num)
  rw [quantise_toInt, quantise_toInt, h1, h2]
  decide
/-- The fifth sample of symbol 1 in vector MV2 is a tie at every ideal profile: 32767 × sin(2π·8800/9600) = −16383.5. -/
theorem test_tie {ideal : Config.Numerics} (h : ideal.Ideal) : (quantise ideal 0 [⟨32767, 2200 * 4, 9600⟩]).toInt = -16384 := by
  have hs : Real.sin (2 * Real.pi * (2200 * 4 : ℕ) / (9600 : ℕ)) = -(1 / 2) := by
    rw [show 2 * Real.pi * ((2200 * 4 : ℕ) : ℝ) / ((9600 : ℕ) : ℝ) = -(Real.pi / 6) + 2 * Real.pi by push_cast; ring,
      Real.sin_add_two_pi, Real.sin_neg, Real.sin_pi_div_six]
  have : ideal.rne 0 [⟨32767, 2200 * 4, 9600⟩] = -16384 := isRne_unique (rne_single _ _ _ _) (by
    rw [h.2.2.1 _ _ (by decide), hs]
    right; norm_num [abs_of_pos])
  rw [quantise_toInt, this]
  decide
/-- Vector AV6 on every profile: one sample of −32768 has the magnitude 32768, within EPS_MAG. -/
theorem test_magnitude (profile : Config.Numerics) :
    |((profile.mag [-32768] 1).toNat : ℝ) / 2 ^ 32 - 32768| ≤ (profile.epsMag : ℝ) := by
  refine mag_near profile (by decide) (by decide) (by decide) ?_
  simp only [Config.IsMagnitude, List.length_singleton, Finset.sum_range_one, List.getD_cons_zero]
  rw [show ((-32768 : Sample).toInt : ℝ) = -32768 by norm_num [show (-32768 : Sample).toInt = -32768 from by decide]]
  norm_num
/-- Vector NV1: white noise of 500, −250, 0, 1000 at SIGMA = 500. -/
theorem test_white : [4096, -2048, 0, 8192].map (white (Config.defaultParams.row 1)) = [500, -250, 0, 1000] := by
  decide +kernel
/-- Vector NV2: two spikes on sample 2, one on sample 5 and one on sample 7 of 8. -/
theorem test_impulses : (List.range 8).map (fun i => impulseAt (Config.defaultParams.row 3) 8 i
      [0x0000000A, 0, 5, 1, 0x00000012, 0, 0xFFFFFFFF, 0x80000001]) =
    [0, 0, 40000, 0, 0, -20000, 0, -20000] := by decide
/-- Vectors NV3 and NV7: the tone frequencies. -/
theorem test_tones : (List.range 4).map (toneHertz 1000 2500 4) = [1000, 1500, 2000, 2500] ∧
    (List.range 8).map (toneHertz 1000 2500 8) = [1000, 1214, 1428, 1642, 1857, 2071, 2285, 2500] := by decide
/-- Transform sizes of 95_test_vectors, section 5. -/
theorem test_sizes : [1, 2, 3, 4, 7, 8, 9, 15, 16, 36, 80, 32767, 32768, 65535].map pow2gt =
    [2, 4, 4, 8, 8, 16, 16, 16, 32, 64, 128, 32768, 65536, 65536] := by decide
/-- Vectors DV7 and DV9: both ends of the band survive, and bin N/2 never does. -/
theorem test_survivors : { configA with bandLo := 1200, bandHi := 1800 }.survivors 16 = [2, 3] ∧
    { configA with bandLo := 0, bandHi := 4800 }.survivors 16 = [0, 1, 2, 3, 4, 5, 6, 7] := by decide
/-- Vector DV10's tie (the least index wins), and DV6's (an equal distance gives bit 1). -/
theorem test_peak : peakOf (fun _ => 7) [2, 3, 4] = some 2 ∧ peakOf (fun k => k) [2, 3, 4] = some 4 ∧
    { configA with fMark := 2400 }.decide01 16 3 = true ∧ configA.decide01 16 2 = false := by decide

/-! ### The host interface -/

/-- Vector HV1. -/
theorem test_constants : [Reg.id, .cap, .waveDepth, .symDepth, .byteDepth].map State.reset.readReg =
    [0x57415645, 0x00000510, 0x00100000, 0x00020000, 0x00004000] := by decide
/-- Vectors HV3 and HV4. -/
theorem test_narrow : ((State.reset.hostWrite (busAddr 0x038) 0x00012345).hostRead (busAddr 0x038)).1 = 0x2345 ∧
    ((State.reset.hostWrite (busAddr 0x044) 0x1FF).hostRead (busAddr 0x044)).1 = 0xFF := by decide
/-- Vectors HV5 and HV6. -/
theorem test_wave_entries :
    ((State.reset.hostWrite (busAddr 0x800000) 0x00018000).hostRead (busAddr 0x800000)).1 = 0xFFFF8000 ∧
    ((State.reset.hostWrite (busAddr 0xC0000C) 0x00007FFF).hostRead (busAddr 0xC0000C)).1 = 0x00007FFF := by decide
/-- Vectors HV7 and HV8. -/
theorem test_byte_entries :
    ((State.reset.hostWrite (busAddr 0x400000) 0x00000131).hostRead (busAddr 0x400000)).1 = 0x31 ∧
    ((State.reset.hostWrite (busAddr 0x200008) 0xFFFFFF41).hostRead (busAddr 0x200008)).1 = 0x41 := by decide
/-- Vectors HV9, HV10 and HV14. -/
theorem test_reserved : (State.reset.hostRead (busAddr 0x80)).1 = 0 ∧
    (State.reset.hostRead (busAddr 0x80)).2.flags.word = 0x10 ∧
    (State.reset.hostWrite (busAddr 0x210000) 5).flags.word = 0x10 ∧
    ((State.reset.hostRead (busAddr 0x80)).2.hostWrite (busAddr 0x20) 0x10).flags.word = 0 := by decide
/-- Vectors HV12 and HV13. -/
theorem test_sps : configA.readReg .sps = 8 ∧
    { State.reset with srate := 0xFFFFFFFF, symdurNum := 0xFFFFFFFF, symdurDen := 1 }.readReg .sps = 0xFFFFFFFF := by
  decide
/-- Vectors HV15 and HV16. -/
theorem test_ack : ({ State.reset with fin := true, err := true, errCode := 2 }.hostWrite (busAddr 0x1C) 2).statusWord = 0x204 ∧
    ({ State.reset with fin := true, err := true, errCode := 2 }.hostWrite (busAddr 0x1C) 4).statusWord = 0x002 := by
  decide
/-- Vectors HV17 and HV18. -/
theorem test_ctrl : (State.reset.hostWrite (busAddr 0x14) 6).ctrlWord = 6 ∧
    (State.reset.hostWrite (busAddr 0x14) 7).ctrlWord = 0 := by decide
/-- Vectors EV9 to EV11: MOD in flight. -/
theorem test_busy : (State.reset.hostWrite (busAddr 0x18) 3).statusWord = 1 ∧
    ((State.reset.hostWrite (busAddr 0x18) 3).hostWrite (busAddr 0x24) 8000).srate = 0 ∧
    ((State.reset.hostWrite (busAddr 0x18) 3).hostWrite (busAddr 0x24) 8000).flags.word = 8 ∧
    ((State.reset.hostWrite (busAddr 0x18) 3).hostWrite (busAddr 0x18) 0).cmd = 3 := by decide

/-! ### Witnesses: states and operands that meet the hypotheses of the obligations, all together -/

theorem witness_ResetState : (State.reset = State.reset ∨ ∃ s : State, State.reset = s.resetAgain) ∧
    (configA.resetAgain = State.reset ∨ ∃ s : State, configA.resetAgain = s.resetAgain) :=
  ⟨.inl rfl, .inr ⟨configA, rfl⟩⟩
theorem witness_StepKeepsInvariant : (symbolsA.accept 3).Inv ∧ isNext (step (symbolsA.accept 3)) (fun _ => true) = true := by
  decide
theorem witness_EveryStepAnswers : (flying 0).busy = true ∧ (flying 0).schedule = [] ∧
    { flying 0 with schedule := [.core] }.schedule.head? = some .core := by decide
theorem witness_CommandEnds : { flying 0 with schedule := [.read 0, .core] }.busy = true := by decide
theorem witness_StepRunsDecoded :
    ((flying 3).busy = true ∧ decode (flying 3).cmd = some (.mod .wave0) ∧ (flying 3).schedule = []) ∧
    { flying 3 with schedule := [.core] }.schedule = .core :: [] ∧
    ((flying 8).busy = true ∧ decode (flying 8).cmd = none) ∧ (configA.busy = false ∧ configA.schedule = []) ∧
    ({ configA with schedule := [.core] }.busy = false ∧ { configA with schedule := [.core] }.schedule = .core :: []) ∧
    ({ flying 8 with schedule := [.core] }.busy = true ∧ { flying 8 with schedule := [.core] }.schedule = .core :: []) ∧
    { configA with schedule := [.read 0] }.schedule = .read 0 :: [] ∧
    { configA with schedule := [.write 0 1] }.schedule = .write 0 1 :: [] ∧
    { configA with schedule := [.reset] }.schedule = .reset :: [] := by decide
theorem witness_ConstantsNeverChange : isNext (step (State.reset.accept 0)) (fun _ => true) = true := by decide
theorem witness_IllegalWords : State.reset.busy = false ∧ State.reset.schedule = [] ∧ decode 8 = none := by decide
theorem witness_Acceptance : configA.busy = false := by decide
theorem witness_IssueWhileBusy : (flying 3).busy = true := by decide
theorem witness_FailureTables : decode (flying 8).cmd = none ∧ decode (flying 3).cmd = some (.mod .wave0) ∧
    FailsWith (.mod .wave0) State.reset .cfg ∧
    FailsWith .b2s { configA with byteLen := 16385 } .range ∧
    FailsWith .s2b (configA.storeSymbols [0x30, 0x31, 0x30, 0x30, 0x30, 0x30, 0x30, 0x32]) .badSym ∧
    FailsWith (.demod .wave1) { configA with waveLen1 := 1048576, symdurDen := 9600 } .ovf ∧
    Succeeds (.mod .wave0) symbolsA := by decide
theorem witness_AllOrNothing : (State.reset.accept 3).err = false ∧
    isNext (complete (State.reset.accept 3)) (fun t => t.err) = true ∧
    isNext (complete (State.reset.accept 8)) (fun t => t.err) = true := by decide
theorem witness_ResultFixedAtAcceptance : (symbolsA.accept 3).StatusOk ∧ (symbolsA.accept 3).busy = true ∧
    isNext (takeMove (.read (busAddr 0x800000)) (symbolsA.accept 3)) (fun t => t.flags.busyacc) = true ∧
    isNext (takeMove (.write (busAddr 0x014) 6) (symbolsA.accept 3)) (fun t => t.ieErr) = true ∧
    ¬(busAddr 0x014 = busAddr 0x014 ∧ (6 : Word).getLsbD 0 = true) ∧
    isNext (complete (symbolsA.accept 3)) (fun t => t.fin) = true := by decide
theorem witness_InterruptAfterCompletion : { flying 3 with ieErr := true }.err = false ∧
    isNext (complete { flying 3 with ieErr := true }) (fun _ => true) = true := by decide
theorem witness_InterruptCleared : ((6 : Word).getLsbD 1 = true ∧ (6 : Word).getLsbD 2 = true) ∧ configA.busy = false ∧
    ((1 : Word).getLsbD 1 = false ∧ (1 : Word).getLsbD 2 = false) := by decide
theorem witness_BusyAccesses : (flying 0).busy = true ∧ (byteAddr (busAddr 0x00) < 0x80 ∧ byteAddr (busAddr 0x7C) < 0x80) ∧
    (byteAddr (busAddr 0x7C) < 0x80 ∧ busAddr 0x7C ≠ busAddr 0x014 ∧ busAddr 0x7C ≠ busAddr 0x01C ∧
      busAddr 0x7C ≠ busAddr 0x020) ∧
    (0x100000 ≤ byteAddr (busAddr 0x100000) ∧ 0x100000 ≤ byteAddr (busAddr 0xFFFFFC)) ∧ (flying 0).StatusOk := by decide
/-- The edges of the reserved ranges: the hole's two ends, and the first entry past each buffer. -/
theorem witness_ReservedAddresses :
    (0x80 ≤ byteAddr (busAddr 0x80) ∧ byteAddr (busAddr 0xFFFFC) < 0x100000 ∧
      byteAddr (busAddr 0xFFFFC) = 0xFFFFC) ∧
    smallBanks.busy = false ∧ { smallBanks with busy := true }.busy = true ∧
    2 ^ smallBanks.params.log2nMax = (byteAddr (busAddr 0x100080) - 0x100000) / 8 ∧
    smallBanks.params.byteDepth = (byteAddr (busAddr 0x210000) - 0x200000) / 4 ∧
    smallBanks.params.symDepth = (byteAddr (busAddr 0x400040) - 0x400000) / 4 ∧
    smallBanks.params.waveDepth = (byteAddr (busAddr 0x800040) - 0x800000) / 4 ∧
    smallBanks.params.waveDepth = (byteAddr (busAddr 0xC00040) - 0xC00000) / 4 := by decide
theorem witness_OperandReadBack : configA.busy = false ∧
    (Reg.ampl, 0x038) ∈ [(Reg.fMark, 0x034), (.ampl, 0x038), (.bandLo, 0x03C)] := by decide
theorem witness_ReadOnlyIgnored : configA.busy = false ∧ 0x07C ∈ [0x078, 0x07C] ∧
    (Reg.sps, 0x07C) ∈ [(Reg.nobandCnt, 0x078), (.sps, 0x07C)] := by decide
/-- The first and the last entry of each buffer, the last of them never written. -/
theorem witness_EntryReadBack : configA.params.SizesOk ∧ configA.busy = false ∧
    (0 < configA.params.byteDepth ∧ 16383 < configA.params.byteDepth) ∧
    (0 < configA.params.symDepth ∧ 131071 < configA.params.symDepth) ∧
    (0 < configA.params.waveDepth ∧ 1048575 < configA.params.waveDepth) ∧
    (configA.mem.byteBuf.find 16383 = none ∧ configA.mem.symBuf.find 131071 = none ∧
      configA.mem.wave0.find 1048575 = none ∧ configA.mem.wave1.find 1048575 = none) := by decide
theorem witness_MagAperture : configA.params.SizesOk ∧ configA.busy = false ∧ 0 < 2 ^ configA.params.log2nMax ∧
    65535 < 2 ^ configA.params.log2nMax := by decide
theorem witness_ReadsChangeOnlyFlags : configA.busy = false := by decide
theorem witness_SoftReset : (7 : Word).getLsbD 0 = true ∧ (6 : Word).getLsbD 0 = false := by decide
theorem witness_SpsRegister : State.reset.symdurDen = 0 ∧
    (configA.symdurDen ≠ 0 ∧ configA.srate.toNat * configA.symdurNum.toNat / configA.symdurDen.toNat < 2 ^ 32) ∧
    (let s := { configA with srate := 0x80000000, symdurNum := 2, symdurDen := 1 }
     s.symdurDen ≠ 0 ∧ 2 ^ 32 ≤ s.srate.toNat * s.symdurNum.toNat / s.symdurDen.toNat) := by decide
theorem witness_B2sResult : byteA.params.SizesOk ∧ Succeeds .b2s byteA ∧ 0 < byteA.byteLen.toNat := by decide
theorem witness_S2bResult : Succeeds .s2b bitsA ∧ 0 < bitsA.symLen.toNat / 8 := by decide
theorem witness_CodecRoundTrip : byteA.params.SizesOk ∧ Succeeds .b2s byteA := by decide
theorem witness_ModResult : symbolsA.params.SizesOk ∧ Succeeds (.mod .wave0) symbolsA ∧
    (((List.range symbolsA.symLen.toNat).map symbolsA.symAt).filter fun c => c == 0x30 || c == 0x31)[1]? = some 0x31 ∧
    7 < symbolsA.sps := by decide
theorem witness_NopResult : configA.busy = false ∧ configA.schedule = [] ∧ { configA with ieDone := true }.ieDone = true := by
  decide
theorem witness_PhaseRestarts : let s := configA.storeSymbols [0x31, 0x78, 0x31]
    Succeeds (.mod .wave0) s ∧ Succeeds (.mod .wave1) symbolsA ∧ s.srate = symbolsA.srate ∧
      s.symdurNum = symbolsA.symdurNum ∧ s.symdurDen = symbolsA.symdurDen ∧ s.fSpace = symbolsA.fSpace ∧
      s.fMark = symbolsA.fMark ∧ s.ampl = symbolsA.ampl ∧ s.validSymbols[0]? = some 0x31 ∧
      symbolsA.validSymbols[1]? = some 0x31 ∧ 7 < s.sps := by
  decide
/-- The first sample of a symbol: y* = 0 is farther from every half-integer than AMPL × EPS_SIN, whatever NUM. -/
theorem witness_ModTolerance : Succeeds (.mod .wave0) symbolsA ∧ symbolsA.validSymbols[1]? = some 0x31 ∧
    0 < symbolsA.sps ∧
    (let y : ℝ := symbolsA.ampl.toNat * Real.sin (2 * Real.pi * (symbolsA.fMark.toNat : ℕ) * (0 : ℕ) / symbolsA.srate.toNat)
     Config.IsRne y 0 ∧ ∀ k : ℤ, (symbolsA.ampl.toNat : ℝ) * (num.epsSin : ℝ) < |y - (k + 1 / 2)|) := by
  refine ⟨by decide, by decide, by decide, ?_⟩
  have hy : (symbolsA.ampl.toNat : ℝ) *
      Real.sin (2 * Real.pi * (symbolsA.fMark.toNat : ℕ) * (0 : ℕ) / symbolsA.srate.toNat) = 0 := by simp
  simp only [hy]
  refine ⟨.inl (by norm_num), fun k => ?_⟩
  have he := epsSin_le num
  have h1 : (symbolsA.ampl.toNat : ℝ) * (num.epsSin : ℝ) < 1 / 4 := by
    rw [show symbolsA.ampl.toNat = 32767 from by decide]
    norm_num at he ⊢
    linarith
  have h2 : (1 : ℝ) / 2 ≤ |0 - ((k : ℝ) + 1 / 2)| := by
    rw [zero_sub, abs_neg]
    rcases le_or_gt 0 k with hk | hk
    · have : (0 : ℝ) ≤ k := by exact_mod_cast hk
      rw [abs_of_nonneg (by linarith)]
      linarith
    · have : (k : ℝ) ≤ -1 := by exact_mod_cast (by omega : k ≤ -1)
      rw [abs_of_nonpos (by linarith)]
      linarith
  linarith
theorem witness_SamplesClipped : (Succeeds (.mod .wave0) symbolsA ∧ 15 < symbolsA.sps * symbolsA.validSymbols.length ∧
      isNext (exec (.mod .wave0) symbolsA) (fun _ => true) = true) ∧
    (let s := { waveA with level := 4 }
     Succeeds (.noise .wave0 .wave1) s ∧ s.level ≠ 0 ∧ 8 < (s.waveLen .wave0).toNat ∧
       isNext (exec (.noise .wave0 .wave1) s) (fun _ => true) = true) := by decide
theorem witness_AnlzResult : let s := { waveA with winOff := 1, winLen := 8 }
    s.params.SizesOk ∧ Succeeds (.anlz .wave0) s ∧ 15 < pow2gt s.winLen.toNat := by decide
theorem witness_TransformSize : let s := { waveA with winLen := 8 }
    s.params.SizesOk ∧ Succeeds (.anlz .wave0) s ∧ s.winLen.toNat < 2 ^ 4 := by decide
/-- Samples 0 and 4 of Z are both 0: two windows of one sample with the same contents. -/
theorem witness_AnalyzerPure : let s := { waveA with winOff := 0, winLen := 1 }
    let s' := { waveA with winOff := 4, winLen := 1 }
    Succeeds (.anlz .wave0) s ∧ Succeeds (.anlz .wave0) s' ∧ s.winLen = s'.winLen ∧
      ∀ n, n < s.winLen.toNat → s.waveAt .wave0 (s.winOff.toNat + n) = s'.waveAt .wave0 (s'.winOff.toNat + n) := by
  decide
theorem witness_SurvivorsLowerHalf : configA.srate ≠ 0 ∧ 1 ≤ 8 ∧ 15 < pow2gt 8 ∧
    configA.survives (pow2gt 8) 2 = true ∧
    (let s := { configA with bandLo := 2500, bandHi := 1000 }
     s.srate ≠ 0 ∧ s.bandHi.toNat < s.bandLo.toNat) := by decide
theorem witness_DemwResult : let s := { waveA with winOff := 1, winLen := 8 }
    s.params.SizesOk ∧ Succeeds (.demw .wave0) s ∧ (∃ k, k < 16 ∧ s.survives 16 k = true) ∧
    ¬∃ k, k < 16 ∧ { s with bandLo := 1300, bandHi := 1700 }.survives 16 k = true := by decide
theorem witness_NoSurvivorBit : let s := { waveA with winLen := 8, bandLo := 2500, bandHi := 1000 }
    Succeeds (.demw .wave0) s ∧ s.bandHi.toNat < s.bandLo.toNat := by decide
/-- Two windows, the last of one sample; and no window at all. -/
theorem witness_DemodResult : waveA.params.SizesOk ∧ Succeeds (.demod .wave0) waveA ∧
    windowCount (waveA.waveLen .wave0).toNat waveA.sps = 2 ∧ Succeeds (.demod .wave1) waveA ∧
    windowCount (waveA.waveLen .wave1).toNat waveA.sps = 0 := by decide
theorem witness_ShortWindowFlag : Succeeds (.demod .wave0) waveA ∧ (waveA.waveLen .wave0).toNat % waveA.sps ≠ 0 := by
  decide
theorem witness_DemodAgreesWithDemw : waveA.params.SizesOk ∧ Succeeds (.demod .wave0) waveA ∧
    1 * waveA.sps < (waveA.waveLen .wave0).toNat ∧ (waveA.waveLen .wave0).toNat ≤ (1 + 1) * waveA.sps := by decide
theorem witness_ModThenDemodCount : symbolsA.params.SizesOk ∧ Succeeds (.mod .wave1) symbolsA ∧
    symbolsA.sps ≤ symbolsA.params.winMax := by decide
theorem witness_NoiseLevelZero : Succeeds (.noise .wave0 .wave1) waveA ∧ Succeeds (.noise .wave0 .wave0) waveA ∧
    waveA.level = 0 := by decide
theorem witness_NoiseResult : let s := { waveA with level := 5 }
    Succeeds (.noise .wave0 .wave1) s ∧ s.level ≠ 0 ∧ s.waveLen .wave0 ≠ 0 := by decide
theorem witness_NoiseEmptyWaveform : let s := { waveA with level := 4 }
    Succeeds (.noise .wave1 .wave0) s ∧ s.level ≠ 0 ∧ s.waveLen .wave1 = 0 := by decide
theorem witness_NoiseDeterminedBySeed : let s := { waveA with level := 3 }
    let s' := { waveA with level := 3, ampl := 0, cmd := 7, winLen := 1 }
    Succeeds (.noise .wave0 .wave1) s ∧ Succeeds (.noise .wave0 .wave0) s' ∧ s.params = s'.params ∧ s.srate = s'.srate ∧
      s.level = s'.level ∧ s.bandLo = s'.bandLo ∧ s.bandHi = s'.bandHi ∧ s.rngState = s'.rngState ∧
      s.waveLen .wave0 = s'.waveLen .wave0 ∧ 3 < (s.waveLen .wave0).toNat ∧ s.waveAt .wave0 3 = s'.waveAt .wave0 3 := by
  refine ⟨by decide, by decide, rfl, rfl, rfl, rfl, rfl, rfl, rfl, by decide, rfl⟩
theorem witness_NoisyPipelineCompletes : let s := { waveA with level := 5 }
    s.params.SizesOk ∧ Succeeds (.noise .wave0 .wave1) s ∧ Succeeds (.demod .wave0) s ∧
      ((s.waveLen .wave0).toNat + (s.sps - 1)) / s.sps / 8 ≤ s.params.byteDepth := by decide
theorem witness_OperandsKept : isNext (exec (.mod .wave0) symbolsA) (fun _ => true) = true := by decide
theorem witness_WhoWritesWhat : isNext (exec .b2s byteA) (fun _ => true) = true ∧ Instr.b2s ≠ .s2b ∧
    (∀ b, Instr.b2s ≠ .demod b) ∧ (∀ d, Instr.b2s ≠ .mod d ∧ ∀ b, Instr.b2s ≠ .noise b d) ∧
    (∀ b, Instr.b2s ≠ .anlz b) ∧ ∀ b, Instr.b2s ≠ .demw b := by
  refine ⟨by decide, by decide, fun b => ?_, fun d => ⟨?_, fun b => ?_⟩, fun b => ?_, fun b => ?_⟩ <;> simp
theorem witness_FlagsSticky : { symbolsA with flags := ⟨true, true, true, true, true⟩ }.flags.invsym = true ∧
    isNext (exec (.mod .wave0) { symbolsA with flags := ⟨true, true, true, true, true⟩ }) (fun t => t.flags.shortwin)
      = true := by decide
theorem witness_GeneratorAdvance : let s := { waveA with level := 3 }
    isNext (exec (.noise .wave0 .wave1) s) (fun _ => true) = true ∧
    (Succeeds (.noise .wave0 .wave1) s ∧ s.level ≠ 0 ∧ s.waveLen .wave0 ≠ 0) ∧
    ¬(Succeeds (.noise .wave0 .wave1) waveA ∧ waveA.level ≠ 0 ∧ waveA.waveLen .wave0 ≠ 0) ∧
    isNext (exec .nop s) (fun _ => true) = true := by decide
theorem witness_IdealProfile : (∃ a b : Config.Numerics, a.Ideal ∧ b.Ideal) ∧
    (∀ t ∈ [(⟨32767, 2200, 9600⟩ : Config.Tone)], 0 < t.q) ∧
    (let seg : List Sample := [100, 100, 100, 100]
     1 ≤ seg.length ∧ seg.length ≤ Config.winMaxLargest ∧ 7 < pow2gt seg.length) :=
  ⟨exists_ideal.imp fun a ha => ⟨a, ha, ha⟩, by decide, by decide⟩
/-- A constant window, an all-zero window, and a window of one sample. -/
theorem witness_AnlzAccuracy :
    ((windowA [100, 100, 100, 100]).params.SizesOk ∧ Succeeds (.anlz .wave0) (windowA [100, 100, 100, 100]) ∧
      ∀ i, i < (windowA [100, 100, 100, 100]).winLen.toNat →
        ((windowA [100, 100, 100, 100]).waveAt .wave0 ((windowA [100, 100, 100, 100]).winOff.toNat + i)).toInt = 100) ∧
    (Succeeds (.anlz .wave0) (windowA [0, 0]) ∧ ∀ i, i < (windowA [0, 0]).winLen.toNat →
        ((windowA [0, 0]).waveAt .wave0 ((windowA [0, 0]).winOff.toNat + i)).toInt = 0) ∧
    (Succeeds (.anlz .wave0) (windowA [-5]) ∧ (windowA [-5]).winLen.toNat = 1) := by decide
/-- At the top level of the reference table the bound is below 1/2, whatever NUM. -/
theorem witness_NoiseTolerance : let s := { waveA with level := 5 }
    Succeeds (.noise .wave0 .wave1) s ∧ s.level ≠ 0 ∧ 8 < (s.waveLen .wave0).toNat ∧
    (let row := s.params.row s.level.toNat
     ((row.hum.toNat + row.bandN.toNat * row.bandA.toNat : ℝ)) * (num.epsSin : ℝ) < 1 / 2) ∧
    (∀ v : ℝ, ∃ m, Config.IsRne v m) ∧ ({ waveA with level := 5 }.params.row 5) ∈ Config.referenceNtab := by
  refine ⟨by decide, by decide, by decide, ?_, exists_isRne, by decide⟩
  have he := epsSin_le num
  have h1 : ({ waveA with level := 5 }.params.row ({ waveA with level := 5 } : State).level.toNat).hum.toNat = 4000 := by
    decide
  have h2 : ({ waveA with level := 5 }.params.row ({ waveA with level := 5 } : State).level.toNat).bandN.toNat = 8 := by
    decide
  have h3 : ({ waveA with level := 5 }.params.row ({ waveA with level := 5 } : State).level.toNat).bandA.toNat = 8000 := by
    decide
  simp only [h1, h2, h3]
  norm_num at he ⊢
  linarith
theorem witness_ModIdealExample : (∃ ideal : Config.Numerics, ideal.Ideal) ∧ symbolsA.params.SizesOk ∧
    16 ≤ symbolsA.params.waveDepth ∧ symbolsA.srate = 9600 ∧ symbolsA.symdurNum = 1 ∧ symbolsA.symdurDen = 1200 ∧
    symbolsA.fSpace = 1200 ∧ symbolsA.fMark = 2200 ∧ symbolsA.symLen = 3 ∧ symbolsA.symAt 0 = 0x30 ∧
    symbolsA.symAt 1 = 0x78 ∧ symbolsA.symAt 2 = 0x31 ∧ symbolsA.ampl = 32767 ∧
    { symbolsA with ampl := 65535 }.ampl = 65535 := ⟨exists_ideal, by decide⟩
theorem witness_AnlzIdealExample : (∃ ideal : Config.Numerics, ideal.Ideal) ∧
    (let s := { waveA with winLen := 8 }
     Succeeds (.anlz .wave0) s ∧ s.winLen = 8 ∧
       (List.range 8).map (fun i => (s.waveAt .wave0 (s.winOff.toNat + i)).toInt) =
         [0, 23170, 32767, 23170, 0, -23170, -32767, -23170]) := ⟨exists_ideal, by decide⟩
theorem witness_SourceScenario : byteA.params.SizesOk ∧ 64 ≤ byteA.params.waveDepth ∧ 4 ≤ byteA.params.log2nMax ∧
    byteA.srate = 9600 ∧ byteA.symdurNum = 1 ∧ byteA.symdurDen = 1200 ∧ byteA.fSpace = 1200 ∧ byteA.fMark = 2200 ∧
    byteA.ampl = 32767 ∧ byteA.bandLo = 1000 ∧ byteA.bandHi = 2500 ∧ byteA.level = 0 ∧ byteA.byteLen = 1 ∧
    byteA.byteAt 0 = 0x41 := by decide

end Sys2Proof.Tests
end

/-! SUPPORT. What the ideal profile fixes: the rounded sums of sines and the magnitudes (00_scope R6). -/

namespace Sys2Proof.Proofs

open Sys2Proof Sys2Proof.Machine

/-- A sum of tones at an ideal profile is rounded from the sum of the exact sines (00_scope R6, R10). -/
theorem ideal_rne_isRne {ideal : Config.Numerics} (h : ideal.Ideal) (c : ℚ) {ts : List Config.Tone}
    (hq : ∀ t ∈ ts, 0 < t.q) :
    Config.IsRne (c + (ts.map fun t => (t.amp : ℝ) * Real.sin (2 * Real.pi * t.p / t.q)).sum) (ideal.rne c ts) := by
  obtain ⟨-, -, hsin, -⟩ := h
  have exact_terms : (ts.map fun t => (t.amp : ℝ) * ideal.sin t.p t.q) =
      ts.map fun t => (t.amp : ℝ) * Real.sin (2 * Real.pi * t.p / t.q) :=
    List.map_congr_left fun t ht => by rw [hsin t.p t.q (hq t ht)]
  rw [← exact_terms]
  exact ideal.rne_spec c ts

/-- A magnitude at an ideal profile, of a window the core can analyse, is rounded once from the exact one, in units of
2^−32 (00_scope R6). -/
theorem ideal_mag_isRne {ideal : Config.Numerics} (h : ideal.Ideal) {seg : List Sample} {k : ℕ} {x : ℝ}
    (h1 : 1 ≤ seg.length) (hl : seg.length ≤ Config.winMaxLargest) (hk : k < pow2gt seg.length)
    (hx : Config.IsMagnitude seg (pow2gt seg.length) k x) : Config.IsRne (x * 2 ^ 32) (ideal.mag seg k).toNat := by
  obtain ⟨-, -, -, hmag⟩ := h
  exact hmag seg _ k x h1 hl (isTransformSize_pow2gt h1) hk hx

/-- Two ideal profiles round every sum of sines alike. -/
theorem ideal_rne_unique {a b : Config.Numerics} (ha : a.Ideal) (hb : b.Ideal) (c : ℚ) {ts : List Config.Tone}
    (hq : ∀ t ∈ ts, 0 < t.q) : a.rne c ts = b.rne c ts :=
  isRne_unique (ideal_rne_isRne ha c hq) (ideal_rne_isRne hb c hq)

/-- Two ideal profiles give the same magnitudes of every window the core can analyse: both are the rne of the same real. -/
theorem ideal_mag_unique {a b : Config.Numerics} (ha : a.Ideal) (hb : b.Ideal) {seg : List Sample} {k : ℕ}
    (h1 : 1 ≤ seg.length) (hl : seg.length ≤ Config.winMaxLargest) (hk : k < pow2gt seg.length) :
    a.mag seg k = b.mag seg k := by
  obtain ⟨x, hx⟩ : ∃ x, Config.IsMagnitude seg (pow2gt seg.length) k x := ⟨_, rfl⟩
  have same : ((a.mag seg k).toNat : ℤ) = (b.mag seg k).toNat :=
    isRne_unique (ideal_mag_isRne ha h1 hl hk hx) (ideal_mag_isRne hb h1 hl hk hx)
  exact BitVec.eq_of_toNat_eq (by exact_mod_cast same)

/-- Settles O55: `exists_ideal` builds an ideal configuration, and in any two both values are the one rne of the same
real. -/
theorem idealProfile : Obligations.IdealProfile :=
  ⟨exists_ideal, fun _ _ ha hb =>
    ⟨fun c _ hq => ideal_rne_unique ha hb c hq, fun _ _ h1 hl hk => ideal_mag_unique ha hb h1 hl hk⟩⟩

end Sys2Proof.Proofs

/-! SUPPORT. What every move keeps of the machine's data, the state after a reset, the register file seen from the bus,
and what each command writes (10_state). -/

namespace Sys2Proof.Proofs

open Sys2Proof Sys2Proof.Machine

/-! ### Completions, taken apart -/

/-- All that a completion can answer: a failure that writes STATUS alone, or the updates of the decoded command. -/
theorem complete_next {s t : State} (h : complete s = .next t) :
    (∃ c, t = s.failWith c) ∨ ∃ i u, runOf i s = .ok u ∧ t = u.succeed := by
  cases hd : decode s.cmd with
  | none => rw [complete_none hd] at h; cases h; exact .inl ⟨_, rfl⟩
  | some i =>
    rw [complete_some hd] at h
    exact (exec_next.mp h).imp (fun ⟨c, _, ht⟩ => ⟨c, ht⟩) fun ⟨u, hu, ht⟩ => ⟨i, u, hu, ht⟩

/-! ### A state right after a reset (10_state R59) -/

/-- A state right after a reset: every field but the parameters and the model's own is that of `State.reset`, and the
free values are those of the reset's number (log 7, log 8). -/
def JustReset (t : State) : Prop :=
  ∃ p sch rep n d, t = { State.reset with
    params := p, schedule := sch, reply := rep, resets := n, draws := d, rngState := Config.freeRng n }

theorem justReset_reset : JustReset State.reset := ⟨_, _, _, _, _, rfl⟩

theorem justReset_resetAgain (s : State) : JustReset s.resetAgain := ⟨_, _, _, _, _, rfl⟩

/-! ### The data part of the invariant -/

/-- The part of the invariant that commands and entry writes touch: the buffers and the result registers. -/
abbrev DataOk (s : State) : Prop := s.mem.wf = true ∧ s.mem.within s.params = true ∧ s.ResultsOk

theorem inv_iff (s : State) : s.Inv ↔ s.params.Valid ∧ s.StatusOk ∧ DataOk s := by
  simp only [State.Inv, DataOk]
  tauto

theorem dataOk_storeBytes {s : State} (h : DataOk s) {vs : List Byte} (hv : vs.length ≤ s.params.byteDepth) :
    DataOk (s.storeBytes vs) := by
  obtain ⟨hwf, hin, hres⟩ := h
  exact ⟨wf_storeBytes hwf vs, within_storeBytes hin hv, hres⟩

theorem dataOk_storeSymbols {s : State} (h : DataOk s) {vs : List Byte} (hv : vs.length ≤ s.params.symDepth) :
    DataOk (s.storeSymbols vs) := by
  obtain ⟨hwf, hin, hres⟩ := h
  exact ⟨wf_storeSymbols hwf vs, within_storeSymbols hin hv, hres⟩

theorem dataOk_storeWave {s : State} (h : DataOk s) (b : Bank) {vs : List Sample}
    (hv : vs.length ≤ s.params.waveDepth) : DataOk (s.storeWave b vs) := by
  obtain ⟨hwf, hin, hres⟩ := h
  refine ⟨wf_storeWave hwf b vs, ?_, by simpa [State.ResultsOk] using hres⟩
  rw [storeWave_params]
  exact within_storeWave hin b hv

/-- LOG2N of a window that fits (10_state R46). -/
theorem log2n_le {p : Config.Params} {len : Nat} (h : len ≤ p.winMax) :
    (BitVec.ofNat 5 (log2gt len)).toNat ≤ p.log2nMax := by
  rw [BitVec.toNat_ofNat]
  exact (Nat.mod_le _ _).trans (window_fits h).1

theorem dataOk_storeSpectrum {s : State} (h : DataOk s) {len : Nat} {vs : List Mag} (hlen : len ≤ s.params.winMax)
    (hv : vs.length = pow2gt len) : DataOk (s.storeSpectrum len vs) := by
  obtain ⟨hwf, hin, -, hres⟩ := h
  exact ⟨wf_storeSpectrum hwf len vs, within_storeSpectrum hin len (hv ▸ (window_fits hlen).2), log2n_le hlen, hres⟩

/-- A classified window whose results fit the registers and MAG of a core with the parameters `p`. -/
structure WindowFits (p : Config.Params) (r : Window) : Prop where
  len_le : r.len ≤ p.winMax
  mag_length : r.mag.length = pow2gt r.len
  peak_lower : 2 * r.peak < pow2gt r.len
  peak_noband : r.noband = true → r.peak = 0

theorem dataOk_storeWindow {s : State} (h : DataOk s) {r : Window} (hr : WindowFits s.params r) :
    DataOk (s.storeWindow r) := by
  obtain ⟨hwf, hin, hlog, -, -, hcounts⟩ := dataOk_storeSpectrum h hr.len_le hr.mag_length
  refine ⟨hwf, hin, hlog, ?_, fun hn => ?_, hcounts⟩
  · have hmod : r.peak % 2 ^ 16 ≤ r.peak := Nat.mod_le _ _
    have hpow := (window_fits hr.len_le).2
    have hlow := hr.peak_lower
    rw [storeWindow_peakBin, BitVec.toNat_ofNat, storeWindow_params]
    omega
  · rw [storeWindow_peakBin, hr.peak_noband hn]
    rfl

/-- Classify gives results that fit (44_demodulator R207, R208 (d)). -/
theorem classify_fits {num : Config.Numerics} {s : State} {seg : List Sample} (hs : s.srate ≠ 0) (h1 : 1 ≤ seg.length)
    (hl : seg.length ≤ s.params.winMax) : WindowFits s.params (s.classify num seg) :=
  ⟨hl, numMag_length num seg, (classify_peak h1 hs).1, (classify_peak h1 hs).2⟩

/-- Every window of a DEMOD has a sample and at most SPS of them (44_demodulator R211). -/
theorem windows_fit {num : Config.Numerics} {s : State} {b : Bank} {r : Window} (hc : s.carriersSet = true)
    (hd : s.durationSet = true) (hm : s.sps ≤ s.params.winMax) (hr : r ∈ s.windows num b) : WindowFits s.params r := by
  obtain ⟨w, hw, rfl⟩ := List.mem_map.mp hr
  have hpos := sps_pos hd
  have hstart := windowCount_mul hpos w (List.mem_range.mp hw)
  refine classify_fits ((carriersSet_iff s).mp hc).1 ?_ ?_ <;> rw [symbolWindow_length] <;> omega

theorem dataOk_storeLast {s : State} (h : DataOk s) {r : Option Window} (hr : ∀ w, r = some w → WindowFits s.params w) :
    DataOk (s.storeLast r) := by
  cases r with
  | none => exact h
  | some w => exact dataOk_storeWindow h (hr w rfl)

@[simp] theorem storeLast_params (r : Option Window) (s : State) : (s.storeLast r).params = s.params := by
  cases r <;> rfl

/-- A counter that is not above SYM_DEPTH keeps within it in its 32 bits. -/
theorem count_le {n d : Nat} (h : n ≤ d) : (BitVec.ofNat 32 n).toNat ≤ d := by
  rw [BitVec.toNat_ofNat]
  exact (Nat.mod_le _ _).trans h

theorem dataOk_setInvsymCnt {s : State} (h : DataOk s) {n : Word} (hn : n.toNat ≤ s.params.symDepth) (f : Flags) :
    DataOk { s with invsymCnt := n, flags := f } := by
  obtain ⟨hwf, hin, hlog, hpeak, hband, -, hcnt⟩ := h
  exact ⟨hwf, hin, hlog, hpeak, hband, hn, hcnt⟩

theorem dataOk_setNobandCnt {s : State} (h : DataOk s) {n : Word} (hn : n.toNat ≤ s.params.symDepth) (f : Flags) :
    DataOk { s with nobandCnt := n, flags := f } := by
  obtain ⟨hwf, hin, hlog, hpeak, hband, hcnt, -⟩ := h
  exact ⟨hwf, hin, hlog, hpeak, hband, hcnt, hn⟩

/-- Every successful run keeps the data part: what it stores was checked to fit (20_memory R86, 10_state R46, R47). -/
theorem runOf_dataOk {i : Instr} {s u : State} (hp : s.params.SizesOk) (h : DataOk s) (hu : runOf i s = .ok u) :
    DataOk u := by
  cases i with
  | nop => cases hu; exact h
  | b2s =>
    obtain ⟨-, hfit, rfl⟩ := runB2s_ok.mp hu
    refine dataOk_storeSymbols h ?_
    rwa [length_flatMap_const _ (fun i => symbolsOfByte_length (s.byteAt i)), List.length_range]
  | s2b =>
    obtain ⟨-, -, hfit, rfl⟩ := runS2b_ok.mp hu
    exact dataOk_storeBytes h (by simpa using hfit)
  | mod d =>
    obtain ⟨-, -, hsym, hfit, rfl⟩ := runMod_ok.mp hu
    have hlen : (s.validSymbols.flatMap (s.symbolWave num)).length ≤ s.params.waveDepth := by
      rwa [length_flatMap_const _ (symbolWave_length num s)]
    refine dataOk_setInvsymCnt (dataOk_storeWave h d hlen) ?_ _
    rw [storeWave_params]
    exact count_le ((Nat.sub_le _ _).trans hsym)
  | anlz b =>
    obtain ⟨hok, rfl⟩ := runAnlz_ok.mp hu
    obtain ⟨-, -, hmax, -⟩ := (windowOk_iff s b).mp hok
    exact dataOk_storeSpectrum h hmax (by simp)
  | demw b =>
    obtain ⟨hcar, hok, rfl⟩ := runDemw_ok.mp hu
    obtain ⟨-, hne, hmax, -⟩ := (windowOk_iff s b).mp hok
    have hfits : WindowFits s.params (s.classify num (s.window b)) :=
      classify_fits ((carriersSet_iff s).mp hcar).1 (by simpa using toNat_pos_of_ne hne) (by simpa using hmax)
    refine dataOk_setNobandCnt (dataOk_storeWindow h hfits) ?_ _
    have hdepth : 1 ≤ s.params.symDepth := by have := hp.2.1.1; omega
    split
    · exact hdepth
    · exact Nat.zero_le _
  | demod b =>
    obtain ⟨hcar, hdur, hmax, -, hfit, rfl⟩ := runDemod_ok.mp hu
    have hsyms : DataOk (s.storeSymbols ((s.windows num b).map fun r => symbolOf r.bit)) :=
      dataOk_storeSymbols h (by simpa using hfit)
    have hlast : DataOk ((s.storeSymbols ((s.windows num b).map fun r => symbolOf r.bit)).storeLast
        (s.windows num b).getLast?) :=
      dataOk_storeLast hsyms fun w hw => windows_fit hcar hdur hmax (List.mem_of_getLast? hw)
    refine dataOk_setNobandCnt hlast ?_ _
    rw [storeLast_params]
    exact count_le (List.countP_le_length.trans (by simpa using hfit))
  | noise b d =>
    obtain ⟨-, hfit, ⟨-, rfl⟩ | ⟨-, -, rfl⟩ | ⟨-, -, rfl⟩⟩ := runNoise_ok.mp hu
    · exact dataOk_storeWave h d (by simpa using hfit)
    · exact dataOk_storeWave h d (Nat.zero_le _)
    · exact dataOk_storeWave h d (by simpa using hfit)

/-! ### Every move keeps the invariant -/

/-- A failure reports a code that is not 0 and at most 5 (30_encoding R114). -/
theorem failWith_inv {s : State} (h : s.Inv) (c : ErrCode) : (s.failWith c).Inv := by
  obtain ⟨hp, -, hdata⟩ := (inv_iff s).mp h
  refine (inv_iff _).mpr ⟨hp, ?_, hdata⟩
  cases c <;> simp [State.StatusOk, ErrCode.code]

/-- A success with ERR clear, as it is while a command is in flight (10_state R29). -/
theorem succeed_inv {u : State} (hp : u.params.Valid) (herr : u.err = false) (hdata : DataOk u) : u.succeed.Inv :=
  (inv_iff _).mpr ⟨hp, by simp [State.StatusOk, herr], hdata⟩

theorem complete_inv {s t : State} (h : s.Inv) (hb : s.busy = true) (hc : complete s = .next t) : t.Inv := by
  obtain ⟨hp, ⟨-, hbusy, -⟩, hdata⟩ := (inv_iff s).mp h
  obtain ⟨c, rfl⟩ | ⟨i, u, hu, rfl⟩ := complete_next hc
  · exact failWith_inv h c
  · obtain ⟨hparams, -, -, -, -, -, herr, -⟩ := runOf_kept hu
    exact succeed_inv (hparams ▸ hp) (herr.trans (hbusy hb).2) (runOf_dataOk hp.1 hdata hu)

theorem coreMove_inv {s t : State} (h : s.Inv) (hc : coreMove s = .next t) : t.Inv := by
  cases hb : s.busy with
  | true => exact complete_inv h hb (coreMove_busy hb ▸ hc)
  | false => rw [coreMove_idle hb] at hc; cases hc; exact h

/-- A reset reaches the invariant whatever it interrupts, under allowed parameters. -/
theorem justReset_inv {t : State} (h : JustReset t) (hp : t.params.Valid) : t.Inv := by
  obtain ⟨p, sch, rep, n, d, rfl⟩ := h
  refine (inv_iff _).mpr ⟨hp, ?_, Memory.wf_blank, Memory.within_blank _, ?_⟩
  · simp [State.StatusOk, State.reset]
  · simp [State.ResultsOk, State.reset]

theorem resetAgain_inv {s : State} (h : s.Inv) : s.resetAgain.Inv := justReset_inv (justReset_resetAgain s) h.1

theorem ackStatus_inv {s : State} (h : s.Inv) (v : Word) : (s.ackStatus v).Inv := by
  obtain ⟨hp, ⟨herr, hbusy, hcode⟩, hdata⟩ := (inv_iff s).mp h
  refine (inv_iff _).mpr ⟨hp, ⟨?_, fun hb => ?_, ?_⟩, hdata⟩
  · cases hv : bitOf v 2 <;> simp [State.ackStatus, hv, herr]
  · obtain ⟨hfin, herr0⟩ := hbusy hb
    simp [State.ackStatus, hfin, herr0]
  · cases hv : bitOf v 2 <;> simp [State.ackStatus, hv, hcode]

theorem accept_inv {s : State} (h : s.Inv) (w : Word) : (s.accept w).Inv := by
  obtain ⟨hp, -, hdata⟩ := (inv_iff s).mp h
  exact (inv_iff _).mpr ⟨hp, by simp [State.StatusOk], hdata⟩

/-- A write to a register: CTRL, CMD and STATUS reach what the invariant speaks of, the others do not. -/
theorem writeReg_inv {s : State} (h : s.Inv) (v : Word) (r : Reg) : (s.writeReg v r).Inv := by
  cases r with
  | ctrl =>
    simp only [State.writeReg, State.writeCtrl]
    split
    · exact resetAgain_inv h
    · exact h
  | cmd => exact accept_inv h v
  | status => exact ackStatus_inv h v
  | _ => exact h

/-- Replacing the memory by one in canonical form and inside the depths keeps the invariant. -/
theorem inv_setMem {s : State} (h : s.Inv) {m : Memory} (hwf : m.wf = true) (hin : m.within s.params = true) :
    State.Inv { s with mem := m } := by
  obtain ⟨hp, -, -, hrest⟩ := h
  exact ⟨hp, hwf, hin, hrest⟩

theorem writeEntry_inv {s : State} (h : s.Inv) (v : Word) {x : Target} (hx : x.exists? s.params = true) :
    (s.writeEntry v x).Inv := by
  have ⟨_, hwf, hin, _⟩ := h
  obtain ⟨rbyte, rsym, rwave, rmag⟩ := (Memory.wf_iff _).mp hwf
  obtain ⟨bbyte, bsym, bwave, bmag⟩ := (Memory.within_iff _ _).mp hin
  cases x with
  | reg r => exact writeReg_inv h v r
  | hole => exact h
  | mag k high => exact h
  | byteBuf i =>
    exact inv_setMem h ((Memory.wf_iff _).mpr ⟨Buf.rising_put rbyte _ _, rsym, rwave, rmag⟩)
      ((Memory.within_iff _ _).mpr ⟨Buf.below_put bbyte (of_decide_eq_true hx) _, bsym, bwave, bmag⟩)
  | symBuf i =>
    exact inv_setMem h ((Memory.wf_iff _).mpr ⟨rbyte, Buf.rising_put rsym _ _, rwave, rmag⟩)
      ((Memory.within_iff _ _).mpr ⟨bbyte, Buf.below_put bsym (of_decide_eq_true hx) _, bwave, bmag⟩)
  | wave b i =>
    exact inv_setMem h (Memory.wf_setWave hwf b (Buf.rising_put (rwave b) _ _))
      (Memory.within_setWave hin b (Buf.below_put (bwave b) (of_decide_eq_true hx) _))

theorem hostRead_inv {s : State} (h : s.Inv) (a : BusAddr) : (s.hostRead a).2.Inv := by
  rcases hostRead_state s a with hr | hr | ⟨-, hr⟩ <;> rw [hr] <;> exact h

theorem hostWrite_inv {s : State} (h : s.Inv) (a : BusAddr) (v : Word) : (s.hostWrite a v).Inv := by
  rcases hostWrite_state s a v with hw | hw | ⟨r, -, -, hw⟩ | ⟨-, hx, -, hw⟩ <;> rw [hw]
  · exact h
  · exact h
  · exact writeReg_inv h v r
  · exact writeEntry_inv h v hx

theorem takeMove_inv {m : Move} {s t : State} (h : s.Inv) (ht : takeMove m s = .next t) : t.Inv := by
  cases m with
  | read a => cases ht; exact hostRead_inv h a
  | write a v => cases ht; exact hostWrite_inv h a v
  | core => exact coreMove_inv h ht
  | reset => cases ht; exact resetAgain_inv h

/-- Settles O3: each kind of move keeps the invariant. A completion starts with ERR clear, and what it stores was checked
to fit. -/
theorem stepKeepsInvariant : Obligations.StepKeepsInvariant := by
  intro s t h ht
  match hs : s.schedule with
  | [] => rw [step_nil hs] at ht; exact coreMove_inv h ht
  | m :: rest => rw [step_cons hs] at ht; exact takeMove_inv (s := { s with schedule := rest }) h ht

theorem defaultParams_valid : Config.defaultParams.Valid := by decide

/-- Settles O2: the reset state is `JustReset`, and the default parameters are allowed. -/
theorem resetMeetsInvariant : Obligations.ResetMeetsInvariant :=
  justReset_inv justReset_reset defaultParams_valid

/-! ### Registers and commands after a reset (10_state R59) -/

/-- CAP as a number (10_state R25). -/
theorem capWord_eq (s : State) :
    s.capWord = BitVec.ofNat 32 (s.params.levelMax % 256 * 256 + s.params.log2nMax % 256) := by
  have hlow : s.params.log2nMax % 256 < 2 ^ 8 := Nat.mod_lt _ (by decide)
  have hhigh : s.params.levelMax % 256 < 256 := Nat.mod_lt _ (by decide)
  apply BitVec.eq_of_toNat_eq
  simp only [State.capWord, BitVec.toNat_cast, BitVec.toNat_append, BitVec.toNat_ofNat]
  norm_num
  rw [← Nat.shiftLeft_add_eq_or_of_lt hlow, Nat.shiftLeft_eq]
  omega

@[simp] theorem bitAt_false (i : Nat) : bitAt false i = 0 := by simp [bitAt]

/-- After a reset every register but the constants, AMPL and the generator's two reads 0. -/
theorem justReset_readReg {t : State} (h : JustReset t) (r : Reg)
    (hr : r ∉ [Reg.id, .cap, .waveDepth, .symDepth, .byteDepth, .ampl, .rngLo, .rngHi]) : t.readReg r = 0 := by
  obtain ⟨p, sch, rep, n, d, rfl⟩ := h
  cases r with
  | id | cap | waveDepth | symDepth | byteDepth | ampl | rngLo | rngHi => simp at hr
  | ctrl => simp [State.readReg, State.ctrlWord, State.reset]
  | status => simp [State.readReg, State.statusWord, State.reset]
  | flags => simp [State.readReg, Flags.word, Flags.clear, State.reset]
  | peakInfo => simp [State.readReg, State.peakInfoWord, State.reset]
  | _ => rfl

/-- A command that no condition of the tables stops, from a state with ERR clear, leaves STATUS = DONE. -/
theorem exec_status_of_succeeds {i : Instr} {s : State} (h : Succeeds i s) (herr : s.err = false) :
    ∃ u, exec i s = .next u ∧ u.statusWord = 0x002 := by
  obtain ⟨u, hu⟩ := runOf_of_succeeds h
  obtain ⟨-, -, -, -, -, -, herru, -⟩ := runOf_kept hu
  refine ⟨_, exec_of_ok hu, ?_⟩
  simp [State.statusWord, herru, herr, bitAt]

/-- A failed command leaves ERR, DONE and the code of its failure in STATUS. -/
theorem exec_status_of_error {i : Instr} {s : State} {c : ErrCode} (h : runOf i s = .error c) :
    ∃ u, exec i s = .next u ∧ u.statusWord = 0x006 ||| c.code.setWidth 32 <<< 8 :=
  ⟨_, exec_of_error h, by simp [State.statusWord, bitAt]⟩

theorem runOf_mod_cfg (d : Bank) {s : State} (h : s.carriersSet = false) : runOf (.mod d) s = .error .cfg := by
  simp [runOf, runUnder, runMod, h]

theorem runOf_demw_cfg (b : Bank) {s : State} (h : s.carriersSet = false) : runOf (.demw b) s = .error .cfg := by
  simp [runOf, runUnder, runDemw, h]

theorem runOf_demod_cfg (b : Bank) {s : State} (h : s.carriersSet = false) : runOf (.demod b) s = .error .cfg := by
  simp [runOf, runUnder, runDemod, h]

theorem runOf_anlz_range (b : Bank) {s : State} (h : s.winLen = 0) : runOf (.anlz b) s = .error .range := by
  simp [runOf, runUnder, runAnlz, State.windowOk, h]

/-- STATUS after the command `i` is run from a reset (90_conflicts C9). -/
def statusFromReset : Instr → Word
  | .nop => 0x002
  | .b2s => 0x002
  | .s2b => 0x002
  | .mod _ => 0x206
  | .anlz _ => 0x306
  | .demw _ => 0x206
  | .demod _ => 0x206
  | .noise _ _ => 0x002

/-- With the operands of a reset, MOD, DEMW and DEMOD have no carriers and ANLZ has an empty window; the others have
nothing to do. -/
theorem justReset_exec {t : State} (h : JustReset t) (i : Instr) :
    ∃ u, exec i (t.accept (encode i)) = .next u ∧ u.statusWord = statusFromReset i := by
  obtain ⟨p, sch, rep, n, d, rfl⟩ := h
  cases i with
  | nop => exact exec_status_of_succeeds (by simp [Succeeds, badSymFails]) rfl
  | b2s => exact exec_status_of_succeeds (by simp [Succeeds, badSymFails, State.reset]) rfl
  | s2b => exact exec_status_of_succeeds (by simp [Succeeds, badSymFails, State.reset]) rfl
  | mod d => exact exec_status_of_error (runOf_mod_cfg d rfl)
  | anlz b => exact exec_status_of_error (runOf_anlz_range b rfl)
  | demw b => exact exec_status_of_error (runOf_demw_cfg b rfl)
  | demod b => exact exec_status_of_error (runOf_demod_cfg b rfl)
  | noise b d =>
    refine exec_status_of_succeeds ?_ rfl
    cases b <;> simp [Succeeds, badSymFails, State.reset, State.waveLen]

/-- Settles O1: both resets reach a `JustReset` state, which fixes every register and the buffers. -/
theorem resetState : Obligations.ResetState := by
  intro t ht
  have h : JustReset t := by
    obtain rfl | ⟨s, rfl⟩ := ht
    · exact justReset_reset
    · exact justReset_resetAgain s
  refine ⟨⟨rfl, rfl, rfl, rfl, capWord_eq t⟩, justReset_readReg h, ?_, ?_, ?_, ?_, justReset_exec h⟩ <;>
    obtain ⟨p, sch, rep, n, d, rfl⟩ := h
  · rfl
  · rfl
  · rfl
  · exact fun k => ⟨rfl, rfl, rfl, rfl, rfl⟩

/-! ### Constant registers (10_state R24 to R26, R58) -/

/-- The constant registers are functions of the parameters. -/
theorem readReg_constant {s t : State} (h : t.params = s.params) {r : Reg}
    (hr : r ∈ [Reg.id, .cap, .waveDepth, .symDepth, .byteDepth]) : t.readReg r = s.readReg r := by
  fin_cases hr <;> simp [State.readReg, State.capWord, h]

/-- Settles O7: no step writes a parameter (`step_kept`). -/
theorem constantsNeverChange : Obligations.ConstantsNeverChange := by
  intro s t h
  obtain ⟨-, hp⟩ := step_kept h
  exact ⟨hp, fun r hr => readReg_constant hp hr⟩

/-! ### The interrupt line (10_state R60) -/

theorem ctrlWord_enables (s : State) : s.ctrlWord.getLsbD 1 = s.ieDone ∧ s.ctrlWord.getLsbD 2 = s.ieErr := by
  simp [State.ctrlWord, bitAt]

theorem statusWord_done_err (s : State) : s.statusWord.getLsbD 1 = s.fin ∧ s.statusWord.getLsbD 2 = s.err := by
  simp [State.statusWord, bitAt]

/-- After a completion DONE is set, and irq is IE_DONE, or IE_ERR with ERR. -/
theorem irq_of_fin {t : State} (h : t.fin = true) : t.irq = (t.ieDone || (t.ieErr && t.err)) := by
  simp [State.irq, h]

/-- A completion from a state with ERR clear keeps the enables and leaves ERR = 1 exactly with a code that is not 0. -/
theorem complete_enables_err {s t : State} (herr : s.err = false) (h : complete s = .next t) :
    t.ieDone = s.ieDone ∧ t.ieErr = s.ieErr ∧ t.err = decide (t.errCode ≠ 0) := by
  obtain ⟨c, rfl⟩ | ⟨i, u, hu, rfl⟩ := complete_next h
  · exact ⟨rfl, rfl, by cases c <;> rfl⟩
  · obtain ⟨-, hdone, herrEn, -, -, -, herru, -⟩ := runOf_kept hu
    exact ⟨hdone, herrEn, by simp [herru, herr]⟩

/-- Settles O16: the words of CTRL and STATUS bit by bit, and what a completion leaves of them. -/
theorem interruptAfterCompletion : Obligations.InterruptAfterCompletion := by
  refine ⟨fun s => ?_, fun s t herr h => ?_⟩
  · have hctrl : s.hostRead (busAddr 0x014) = (s.ctrlWord, s) := hostRead_reg (r := .ctrl) rfl
    have hstatus : s.hostRead (busAddr 0x01C) = (s.statusWord, s) := hostRead_reg (r := .status) rfl
    obtain ⟨c1, c2⟩ := ctrlWord_enables s
    obtain ⟨s1, s2⟩ := statusWord_done_err s
    simp only [hctrl, hstatus, c1, c2, s1, s2]
    rfl
  · obtain ⟨u, hu, -, hfin⟩ := complete_answers s
    cases hu.symm.trans h
    obtain ⟨hdone, herrEn, hcode⟩ := complete_enables_err herr h
    rw [irq_of_fin hfin, hdone, herrEn, hcode]

/-! ### Operand registers (10_state R22, R31) -/

/-- The operand registers and their offsets (10_state R23). -/
def operandMap : List (Reg × Nat) :=
  [(Reg.srate, 0x024), (.symdurNum, 0x028), (.symdurDen, 0x02C), (.fSpace, 0x030), (.fMark, 0x034),
    (.ampl, 0x038), (.bandLo, 0x03C), (.bandHi, 0x040), (.level, 0x044), (.rngLo, 0x048), (.rngHi, 0x04C),
    (.winOff, 0x050), (.winLen, 0x054), (.byteLen, 0x058), (.symLen, 0x05C), (.waveLen0, 0x060),
    (.waveLen1, 0x064)]

/-- The bits an operand register keeps of what is written. -/
def operandMask : Reg → Word
  | .ampl => 0xFFFF
  | .level => 0xFF
  | _ => 0xFFFFFFFF

theorem operandMap_target : ∀ e ∈ operandMap, target (busAddr e.2) = .reg e.1 := by decide

/-- A host write on an idle core is the write of the register. -/
theorem hostWrite_idle {s : State} (hb : s.busy = false) {a : BusAddr} {r : Reg} (h : target a = .reg r) (v : Word) :
    s.hostWrite a v = s.writeReg v r := by
  rw [hostWrite_reg h]
  simp [hb]

/-- A field of `k` bits keeps the low bits of what is written and reads with zeros above them (10_state R22). -/
theorem setWidth_setWidth_eq_and (v : Word) {k : Nat} (hk : k ≤ 32) :
    (v.setWidth k).setWidth 32 = v &&& BitVec.ofNat 32 (2 ^ k - 1) := by
  have hpow : 2 ^ k ≤ 2 ^ 32 := Nat.pow_le_pow_right (by decide) hk
  have hpos : 0 < 2 ^ k := Nat.two_pow_pos k
  apply BitVec.eq_of_toNat_eq
  simp only [BitVec.toNat_setWidth, BitVec.toNat_and]
  rw [ofNat_toNat (by omega), Nat.and_two_pow_sub_one_eq_mod]
  exact Nat.mod_eq_of_lt ((Nat.mod_lt _ hpos).trans_le hpow)

/-- The value an operand register reads after `v` is written to it. -/
def operandField (v : Word) : Reg → Word
  | .ampl => (v.setWidth 16).setWidth 32
  | .level => (v.setWidth 8).setWidth 32
  | _ => v

theorem operandField_eq_and (v : Word) (r : Reg) : operandField v r = v &&& operandMask r := by
  cases r with
  | ampl => exact setWidth_setWidth_eq_and v (k := 16) (by decide)
  | level => exact setWidth_setWidth_eq_and v (k := 8) (by decide)
  | _ => exact BitVec.and_allOnes.symm

/-- The halves of RNG_STATE (10_state R41). -/
@[simp] theorem extractLsb'_append_low (hi lo : Word) : (hi ++ lo).extractLsb' 0 32 = lo :=
  BitVec.extractLsb'_append_eq_right

@[simp] theorem extractLsb'_append_high (hi lo : Word) : (hi ++ lo).extractLsb' 32 32 = hi :=
  BitVec.extractLsb'_append_eq_left

/-- Every register but SPS after a write to an operand register: the two halves of RNG_STATE keep each other. -/
theorem readReg_writeReg_operand {r : Reg} (hr : r ∈ operandMap.map Prod.fst) (s : State) (v : Word) {r' : Reg}
    (hsps : r' ≠ .sps) :
    (s.writeReg v r).readReg r' = if r' = r then operandField v r else s.readReg r' := by
  simp only [operandMap, List.map_cons, List.map_nil] at hr
  cases r' with
  | sps => exact absurd rfl hsps
  | rngLo | rngHi => fin_cases hr <;> simp [State.writeReg, State.readReg, operandField]
  | _ => fin_cases hr <;> rfl

/-- What no write to an operand register touches. -/
theorem writeReg_operand_frame {r : Reg} (hr : r ∈ operandMap.map Prod.fst) (s : State) (v : Word) :
    (s.writeReg v r).mem = s.mem ∧ (s.writeReg v r).busy = s.busy ∧ (s.writeReg v r).schedule = s.schedule ∧
      (s.writeReg v r).params = s.params ∧ (s.writeReg v r).resets = s.resets ∧ (s.writeReg v r).reply = s.reply ∧
      (s.writeReg v r).draws = s.draws := by
  simp only [operandMap, List.map_cons, List.map_nil] at hr
  fin_cases hr <;> exact ⟨rfl, rfl, rfl, rfl, rfl, rfl, rfl⟩

theorem sps_not_operand : Reg.sps ∉ operandMap.map Prod.fst := by decide

/-- Settles O20: on an idle core the write reaches the register (`hostWrite_idle`), which keeps its low bits. -/
theorem operandReadBack : Obligations.OperandReadBack := by
  intro s r offset v hb hmem
  have hat : target (busAddr offset) = .reg r := operandMap_target (r, offset) hmem
  have hr : r ∈ operandMap.map Prod.fst := List.mem_map_of_mem (f := Prod.fst) (a := (r, offset)) hmem
  have hself : (s.writeReg v r).readReg r = v &&& operandMask r := by
    rw [readReg_writeReg_operand hr s v fun h => sps_not_operand (h ▸ hr), if_pos rfl, operandField_eq_and]
  obtain ⟨hm, hbusy, hsch, hp, hres, hrep, hd⟩ := writeReg_operand_frame hr s v
  rw [hostWrite_idle hb hat]
  refine ⟨?_, hself, fun r' hne hsps => ?_, hm, hbusy.trans hb, hsch, hp, hres, hrep, hd⟩
  · rw [hostRead_reg hat, hself]
    rfl
  · rw [readReg_writeReg_operand hr s v hsps, if_neg hne]

/-! ### FLAGS and SPS (10_state R30, R56) -/

/-- Clearing one flag by a one is clearing its bit in the word. -/
theorem bitAt_ack (b : Bool) (v : Word) {i : Nat} (hi : i < 32) : bitAt (b && !bitOf v i) i = bitAt b i &&& ~~~v := by
  ext k hk
  simp only [bitAt_getElem _ _ _ hk, BitVec.getElem_and, BitVec.getElem_not]
  by_cases h : k = i
  · subst h
    simp [bitOf, BitVec.getLsbD_eq_getElem hk]
  · simp [h]

theorem flags_ack_word (f : Flags) (v : Word) : (f.ack v).word = f.word &&& ~~~v := by
  simp only [Flags.word, Flags.ack, bitAt_ack, Nat.reduceLT, BitVec.and_or_distrib_right]

/-- Settles O25: FLAGS is writable while the core is busy, and the write clears bit by bit. -/
theorem flagsAcknowledged : Obligations.FlagsAcknowledged := by
  intro s v
  have hw : s.hostWrite (busAddr 0x020) v = { s with flags := s.flags.ack v } := by
    rw [hostWrite_reg (r := .flags) rfl, Reg.writableBusy, Bool.not_true, Bool.and_false]
    rfl
  rw [hw]
  exact ⟨flags_ack_word s.flags v, rfl⟩

/-- Settles O27: the three cases of `spsWord`. -/
theorem spsRegister : Obligations.SpsRegister := by
  intro s
  have hread : s.hostRead (busAddr 0x07C) = (s.spsWord, s) := hostRead_reg (r := .sps) rfl
  rw [hread]
  refine ⟨fun h0 => ?_, fun hne (hlt : s.sps < 2 ^ 32) => ⟨_, rfl, ?_⟩, fun hne (hge : 2 ^ 32 ≤ s.sps) => ?_⟩
  · rw [State.spsWord, if_pos h0]
  · rw [State.spsWord, if_neg hne, if_pos hlt, ofNat_toNat hlt, State.sps]
  · rw [State.spsWord, if_neg hne, if_neg (Nat.not_lt.mpr hge)]

/-! ### Read-only registers and the register map (10_state R22, R23) -/

/-- The registers no host write changes, and their offsets. -/
def readOnlyMap : List (Reg × Nat) :=
  [(Reg.id, 0x000), (.cap, 0x004), (.waveDepth, 0x008), (.symDepth, 0x00C), (.byteDepth, 0x010), (.log2n, 0x068),
    (.peakBin, 0x06C), (.peakInfo, 0x070), (.invsymCnt, 0x074), (.nobandCnt, 0x078), (.sps, 0x07C)]

theorem readOnlyMap_target : ∀ e ∈ readOnlyMap, target (busAddr e.2) = .reg e.1 := by decide

/-- A write to a read-only register is ignored. -/
theorem writeReg_readOnly {r : Reg} (hr : r ∈ readOnlyMap.map Prod.fst) (s : State) (v : Word) : s.writeReg v r = s := by
  simp only [readOnlyMap, List.map_cons, List.map_nil] at hr
  fin_cases hr <;> rfl

/-- The offset in 10_state R23 of each register is the one `regAddr` gives it. -/
theorem regAddr_eq_busAddr : ∀ e ∈ registerMap.zipIdx, regAddr e.1 = busAddr (4 * e.2) := by decide

/-- Settles O21: an ignored write changes nothing, and a register read has no effect. -/
theorem readOnlyIgnored : Obligations.ReadOnlyIgnored := by
  refine ⟨fun s offset v hb hmem => ?_, fun s r offset hmem => ?_⟩
  · obtain ⟨⟨r, o⟩, he, rfl⟩ : ∃ e ∈ readOnlyMap, e.2 = offset := List.mem_map.mp hmem
    rw [hostWrite_idle hb (readOnlyMap_target _ he)]
    exact writeReg_readOnly (List.mem_map_of_mem (f := Prod.fst) he) s v
  · have hat : regAddr r = busAddr offset := by
      obtain ⟨e, he, heq⟩ : ∃ e ∈ registerMap.zipIdx, (e.1, 4 * e.2) = (r, offset) := List.mem_map.mp hmem
      cases heq
      exact regAddr_eq_busAddr e he
    exact ⟨hat, hostRead_reg (hat ▸ target_regAddr r)⟩

/-! ### What each command writes (10_state R30, R32, R43 to R49, R55) -/

/-- A bank that is not the destination keeps its samples and its length. -/
theorem storeWave_other {b c : Bank} (h : c ≠ b) (vs : List Sample) (s : State) :
    (s.storeWave b vs).mem.wave c = s.mem.wave c ∧ (s.storeWave b vs).waveLen c = s.waveLen c :=
  ⟨by rw [storeWave_mem, setWave_wave_other h], storeWave_waveLen_other h vs s⟩

/-- What storing a waveform leaves of the other buffers and their lengths. -/
theorem storeWave_kept (b : Bank) (vs : List Sample) (s : State) :
    ((s.storeWave b vs).mem.byteBuf = s.mem.byteBuf ∧ (s.storeWave b vs).byteLen = s.byteLen) ∧
    ((s.storeWave b vs).mem.symBuf = s.mem.symBuf ∧ (s.storeWave b vs).symLen = s.symLen) ∧
    ((s.storeWave b vs).mem.mag = s.mem.mag ∧ (s.storeWave b vs).log2n = s.log2n) ∧
    ((s.storeWave b vs).peakBin = s.peakBin ∧ (s.storeWave b vs).peakBit = s.peakBit ∧
      (s.storeWave b vs).peakNoband = s.peakNoband ∧ (s.storeWave b vs).nobandCnt = s.nobandCnt) := by
  simp

/-- A successful NOISE stores a waveform in the destination and leaves a generator state, and does nothing else. -/
theorem runNoise_writes {num : Config.Numerics} {b d : Bank} {s u : State} (hu : runNoise num b d s = .ok u) :
    ∃ vs g, u = { s.storeWave d vs with rngState := g } := by
  obtain ⟨-, -, ⟨-, rfl⟩ | ⟨-, -, rfl⟩ | ⟨-, -, rfl⟩⟩ := runNoise_ok.mp hu <;> exact ⟨_, _, rfl⟩

/-- What storing the last window leaves, window or none. -/
theorem storeLast_kept (r : Option Window) (s : State) :
    ((s.storeLast r).mem.byteBuf = s.mem.byteBuf ∧ (s.storeLast r).byteLen = s.byteLen) ∧
    (∀ d, (s.storeLast r).mem.wave d = s.mem.wave d ∧ (s.storeLast r).waveLen d = s.waveLen d) ∧
    (s.storeLast r).invsymCnt = s.invsymCnt := by
  cases r <;> exact ⟨⟨rfl, rfl⟩, fun _ => ⟨rfl, rfl⟩, rfl⟩

/-- Settles O52: a failure writes STATUS alone; of a successful command each clause either names it (`absurd`) or speaks
of fields its store leaves. -/
theorem whoWritesWhat : Obligations.WhoWritesWhat := by
  intro i s t h
  obtain ⟨c, -, rfl⟩ | ⟨u, hu, rfl⟩ := exec_next.mp h
  · simp
  · cases i with
    | nop => cases hu; simp
    | b2s =>
      obtain ⟨-, -, rfl⟩ := runB2s_ok.mp hu
      exact ⟨fun _ => ⟨rfl, rfl⟩, fun hne => absurd rfl hne, fun _ _ _ => ⟨rfl, rfl⟩, fun _ _ _ => ⟨rfl, rfl⟩,
        fun _ _ => ⟨rfl, rfl, rfl, rfl⟩, fun _ => rfl⟩
    | s2b =>
      obtain ⟨-, -, -, rfl⟩ := runS2b_ok.mp hu
      exact ⟨fun hne => absurd rfl hne, fun _ _ => ⟨rfl, rfl⟩, fun _ _ _ => ⟨rfl, rfl⟩, fun _ _ _ => ⟨rfl, rfl⟩,
        fun _ _ => ⟨rfl, rfl, rfl, rfl⟩, fun _ => rfl⟩
    | mod d =>
      obtain ⟨-, -, -, -, rfl⟩ := runMod_ok.mp hu
      obtain ⟨hbyte, hsym, hmag, hpeak⟩ := storeWave_kept d (s.validSymbols.flatMap (s.symbolWave num)) s
      exact ⟨fun _ => hbyte, fun _ _ => hsym, fun c hne _ => storeWave_other (c := c) (fun hc => hne (by rw [hc])) _ _,
        fun _ _ _ => hmag, fun _ _ => hpeak, fun hne => absurd rfl (hne d)⟩
    | anlz b =>
      obtain ⟨-, rfl⟩ := runAnlz_ok.mp hu
      exact ⟨fun _ => ⟨rfl, rfl⟩, fun _ _ => ⟨rfl, rfl⟩, fun _ _ _ => ⟨rfl, rfl⟩, fun hne => absurd rfl (hne b),
        fun _ _ => ⟨rfl, rfl, rfl, rfl⟩, fun _ => rfl⟩
    | demw b =>
      obtain ⟨-, -, rfl⟩ := runDemw_ok.mp hu
      exact ⟨fun _ => ⟨rfl, rfl⟩, fun _ _ => ⟨rfl, rfl⟩, fun _ _ _ => ⟨rfl, rfl⟩, fun _ hne => absurd rfl (hne b),
        fun hne => absurd rfl (hne b), fun _ => rfl⟩
    | demod b =>
      obtain ⟨-, -, -, -, -, rfl⟩ := runDemod_ok.mp hu
      obtain ⟨hbyte, hwave, hinvsym⟩ := storeLast_kept (s.windows num b).getLast?
        (s.storeSymbols ((s.windows num b).map fun r => symbolOf r.bit))
      exact ⟨fun _ => hbyte, fun _ hne => absurd rfl (hne b), fun d _ _ => hwave d,
        fun _ _ hne => absurd rfl (hne b), fun _ hne => absurd rfl (hne b), fun _ => hinvsym⟩
    | noise b d =>
      obtain ⟨vs, g, rfl⟩ := runNoise_writes hu
      obtain ⟨hbyte, hsym, hmag, hpeak⟩ := storeWave_kept d vs s
      exact ⟨fun _ => hbyte, fun _ _ => hsym, fun c _ hne => storeWave_other (c := c) (fun hc => hne b (by rw [hc])) _ _,
        fun _ _ _ => hmag, fun _ _ => hpeak, fun _ => storeWave_invsymCnt d vs s⟩

/-- Settles O53: a failure leaves FLAGS, and a run changes it, if at all, by the `note…` updates of its own command. -/
theorem flagsSticky : Obligations.FlagsSticky := by
  intro i s t h
  obtain ⟨c, -, rfl⟩ | ⟨u, hu, rfl⟩ := exec_next.mp h
  · simp
  · cases i with
    | nop => cases hu; simp
    | b2s => obtain ⟨-, -, rfl⟩ := runB2s_ok.mp hu; simp
    | s2b => obtain ⟨-, -, -, rfl⟩ := runS2b_ok.mp hu; simp
    | mod d => obtain ⟨-, -, -, -, rfl⟩ := runMod_ok.mp hu; simp +contextual
    | anlz b => obtain ⟨-, rfl⟩ := runAnlz_ok.mp hu; simp
    | demw b => obtain ⟨-, -, rfl⟩ := runDemw_ok.mp hu; simp +contextual
    | demod b => obtain ⟨-, -, -, -, -, rfl⟩ := runDemod_ok.mp hu; simp +contextual
    | noise b d => obtain ⟨vs, g, rfl⟩ := runNoise_writes hu; simp

end Sys2Proof.Proofs

/-! SUPPORT. The host's transactions on an idle and on a busy core (20_memory): what each answers by the kind of address,
entries read back, reserved addresses, and a transaction taken while a command is in flight. -/

namespace Sys2Proof.Proofs

open Sys2Proof Sys2Proof.Machine

/-! ### Transactions on an idle and on a busy core (20_memory R77 to R79) -/

/-- An aperture address names neither a register nor the hole. -/
theorem target_aperture_ne {a : BusAddr} (h : 0x100000 ≤ byteAddr a) :
    (∀ r, target a ≠ .reg r) ∧ target a ≠ .hole := by
  rcases target_aperture h with ⟨k, b, ht⟩ | ⟨i, ht⟩ | ⟨i, ht⟩ | ⟨b, i, ht⟩ <;> simp [ht]

/-- A read on an idle core, of whatever the address names (20_memory R77, R79). -/
theorem hostRead_of_idle {s : State} (hb : s.busy = false) (a : BusAddr) :
    s.hostRead a = if (target a).exists? s.params then (s.readEntry (target a), s) else (0, s.noteBadaddr) := by
  cases ht : target a with
  | reg r => exact hostRead_reg ht
  | hole => exact hostRead_hole ht
  | _ => simp [State.hostRead, ht, hb]

/-- A write on an idle core, to whatever the address names (20_memory R77, R79). -/
theorem hostWrite_of_idle {s : State} (hb : s.busy = false) (a : BusAddr) (v : Word) :
    s.hostWrite a v = if (target a).exists? s.params then s.writeEntry v (target a) else s.noteBadaddr := by
  cases ht : target a with
  | reg r => exact hostWrite_idle hb ht v
  | hole => exact hostWrite_hole ht v
  | _ => simp [State.hostWrite, ht, hb]

/-- Every access to an aperture of a busy core is refused. -/
theorem aperture_of_busy {s : State} (hb : s.busy = true) {a : BusAddr} (h : 0x100000 ≤ byteAddr a) (v : Word) :
    s.hostRead a = s.refuseRead ∧ s.hostWrite a v = s.noteBusyacc := by
  obtain ⟨hreg, hhole⟩ := target_aperture_ne h
  rw [hostRead_entry hreg hhole, hostWrite_entry hreg hhole, if_pos hb, if_pos hb]
  exact ⟨rfl, rfl⟩

/-- A write to a register of a busy core (20_memory R78). -/
theorem hostWrite_of_busy {s : State} (hb : s.busy = true) {a : BusAddr} {r : Reg} (h : target a = .reg r)
    (v : Word) : s.hostWrite a v = if r.writableBusy then s.writeReg v r else s.noteBusyacc := by
  rw [hostWrite_reg h, hb]
  cases r.writableBusy <;> rfl

theorem writableBusy_cases {r : Reg} (h : r.writableBusy = true) : r = .ctrl ∨ r = .status ∨ r = .flags := by
  cases r <;> simp [Reg.writableBusy] at h ⊢

/-- STATUS while a command is in flight (10_state R29). -/
theorem status_of_busy {s : State} (h : s.StatusOk) (hb : s.busy = true) :
    s.fin = false ∧ s.err = false ∧ s.errCode = 0 := by
  obtain ⟨herr, hbusy, -⟩ := h
  obtain ⟨hfin, herr0⟩ := hbusy hb
  refine ⟨hfin, herr0, ?_⟩
  by_contra hc
  simp [herr.mpr hc] at herr0

/-- Settles O18: a register address names a register, which only CTRL, STATUS and FLAGS let a busy core's host write; an
aperture refuses every access. -/
theorem busyAccesses : Obligations.BusyAccesses := by
  intro s a v
  refine ⟨fun h => ?_, fun hb => ⟨?_, ?_, ?_, fun h hctrl hstatus hflags => ?_, fun h => ?_, fun hok => ?_⟩⟩
  · obtain ⟨r, hr, -⟩ := target_of_lt h
    exact ⟨r, hr, hostRead_reg hr⟩
  · rintro rfl
    exact hostWrite_of_busy hb (r := .ctrl) rfl v
  · rintro rfl
    exact hostWrite_of_busy hb (r := .status) rfl v
  · rintro rfl
    exact hostWrite_of_busy hb (r := .flags) rfl v
  · obtain ⟨r, hr, rfl⟩ := target_of_lt h
    rw [hostWrite_of_busy hb hr, if_neg]
    · rfl
    · intro hw
      rcases writableBusy_cases hw with rfl | rfl | rfl
      · exact hctrl rfl
      · exact hstatus rfl
      · exact hflags rfl
  · exact (aperture_of_busy hb h v).symm
  · obtain ⟨hfin, herr, hcode⟩ := status_of_busy hok hb
    simp [State.readReg, State.statusWord, hb, hfin, herr, hcode, bitAt]

/-! ### Reserved addresses (20_memory R79) -/

/-- The byte address `n` lies in an aperture, at an entry index at or above the buffer's depth. -/
def BeyondDepth (p : Config.Params) (n : Nat) : Prop :=
  (0x100000 ≤ n ∧ n < 0x200000 ∧ 2 ^ p.log2nMax ≤ (n - 0x100000) / 8) ∨
  (0x200000 ≤ n ∧ n < 0x400000 ∧ p.byteDepth ≤ (n - 0x200000) / 4) ∨
  (0x400000 ≤ n ∧ n < 0x800000 ∧ p.symDepth ≤ (n - 0x400000) / 4) ∨
  (0x800000 ≤ n ∧ n < 0xC00000 ∧ p.waveDepth ≤ (n - 0x800000) / 4) ∨
  (0xC00000 ≤ n ∧ p.waveDepth ≤ (n - 0xC00000) / 4)

theorem aperture_of_beyond {p : Config.Params} {n : Nat} (h : BeyondDepth p n) : 0x100000 ≤ n := by
  unfold BeyondDepth at h
  omega

/-- Past a buffer's depth there is no entry. -/
theorem not_exists_of_beyond {p : Config.Params} {a : BusAddr} (h : BeyondDepth p (byteAddr a)) :
    (target a).exists? p = false := by
  rcases h with ⟨h1, h2, hk⟩ | ⟨h1, h2, hk⟩ | ⟨h1, h2, hk⟩ | ⟨h1, h2, hk⟩ | ⟨h1, hk⟩
  · rw [target_mag h1 h2]
    exact decide_eq_false (Nat.not_lt.mpr hk)
  · rw [target_byteBuf h1 h2]
    exact decide_eq_false (Nat.not_lt.mpr hk)
  · rw [target_symBuf h1 h2]
    exact decide_eq_false (Nat.not_lt.mpr hk)
  · rw [target_wave0 h1 h2]
    exact decide_eq_false (Nat.not_lt.mpr hk)
  · rw [target_wave1 h1]
    exact decide_eq_false (Nat.not_lt.mpr hk)

/-- Settles O19: the hole answers alike busy or idle; past a depth no entry exists, unless the core is busy and refuses
first. -/
theorem reservedAddresses : Obligations.ReservedAddresses := by
  intro s a v n beyond
  refine ⟨?_, fun hb hbeyond => ?_⟩
  · rintro (⟨h1, h2⟩ | ⟨hb, hbeyond⟩)
    · have hhole : target a = .hole := target_hole h1 h2
      exact ⟨hostRead_hole hhole, hostWrite_hole hhole v⟩
    · have hex : (target a).exists? s.params = false := not_exists_of_beyond hbeyond
      rw [hostRead_of_idle hb, hostWrite_of_idle hb, hex]
      exact ⟨rfl, rfl⟩
  · obtain ⟨hr, hw⟩ := aperture_of_busy hb (aperture_of_beyond hbeyond) v
    rw [hr, hw]
    exact ⟨rfl, rfl⟩

/-! ### Entries of the buffers (20_memory R77, R80, R81) -/

/-- The bus address of each entry names it, for every index R5's sizes allow (20_memory R71). -/
theorem target_busAddr_byteBuf {i : Nat} (h : i < 2 ^ 19) : target (busAddr (0x200000 + 4 * i)) = .byteBuf i := by
  have hn : byteAddr (busAddr (0x200000 + 4 * i)) = 0x200000 + 4 * i := byteAddr_busAddr (by omega) (by omega)
  rw [target_byteBuf (by omega) (by omega), hn, Nat.add_sub_cancel_left, Nat.mul_div_cancel_left i (by decide)]

theorem target_busAddr_symBuf {i : Nat} (h : i < 2 ^ 20) : target (busAddr (0x400000 + 4 * i)) = .symBuf i := by
  have hn : byteAddr (busAddr (0x400000 + 4 * i)) = 0x400000 + 4 * i := byteAddr_busAddr (by omega) (by omega)
  rw [target_symBuf (by omega) (by omega), hn, Nat.add_sub_cancel_left, Nat.mul_div_cancel_left i (by decide)]

theorem target_busAddr_wave0 {i : Nat} (h : i < 2 ^ 20) : target (busAddr (0x800000 + 4 * i)) = .wave .wave0 i := by
  have hn : byteAddr (busAddr (0x800000 + 4 * i)) = 0x800000 + 4 * i := byteAddr_busAddr (by omega) (by omega)
  rw [target_wave0 (by omega) (by omega), hn, Nat.add_sub_cancel_left, Nat.mul_div_cancel_left i (by decide)]

theorem target_busAddr_wave1 {i : Nat} (h : i < 2 ^ 20) : target (busAddr (0xC00000 + 4 * i)) = .wave .wave1 i := by
  have hn : byteAddr (busAddr (0xC00000 + 4 * i)) = 0xC00000 + 4 * i := byteAddr_busAddr (by omega) (by omega)
  rw [target_wave1 (by omega), hn, Nat.add_sub_cancel_left, Nat.mul_div_cancel_left i (by decide)]

/-- The two words of MAG[k]. -/
theorem target_busAddr_mag {k : Nat} (h : k < 2 ^ 16) :
    target (busAddr (0x100000 + 8 * k)) = .mag k false ∧ target (busAddr (0x100004 + 8 * k)) = .mag k true := by
  have hlow : byteAddr (busAddr (0x100000 + 8 * k)) = 0x100000 + 8 * k := byteAddr_busAddr (by omega) (by omega)
  have hhigh : byteAddr (busAddr (0x100004 + 8 * k)) = 0x100004 + 8 * k := byteAddr_busAddr (by omega) (by omega)
  constructor
  · rw [target_mag (by omega) (by omega), hlow, Target.mag.injEq, decide_eq_false_iff_not]
    omega
  · rw [target_mag (by omega) (by omega), hhigh, Target.mag.injEq, decide_eq_true_eq]
    omega

/-- A buffer with one entry written, read with any default. -/
theorem getD_find_put {w : Nat} (b : Buf w) (i k : Nat) (v d : BitVec w) :
    ((b.put i v).find k).getD d = if k = i then v else (b.find k).getD d := by
  by_cases hk : k = i
  · subst hk
    rw [Buf.find_put_same, if_pos rfl, Option.getD_some]
  · rw [Buf.find_put_other b hk, if_neg hk]

theorem byteAt_writeEntry (v : Word) (s : State) (i k : Nat) :
    (s.writeEntry v (.byteBuf i)).byteAt k = if k = i then v.setWidth 8 else s.byteAt k := getD_find_put ..

theorem symAt_writeEntry (v : Word) (s : State) (i k : Nat) :
    (s.writeEntry v (.symBuf i)).symAt k = if k = i then v.setWidth 8 else s.symAt k := getD_find_put ..

theorem waveAt_writeEntry (v : Word) (s : State) (b : Bank) (i k : Nat) :
    (s.writeEntry v (.wave b i)).waveAt b k = if k = i then v.setWidth 16 else s.waveAt b k := by
  simpa [State.writeEntry] using waveAt_put s b b i k (v.setWidth 16)

/-- A byte entry reads zero-extended (20_memory R77). -/
theorem setWidth_byte (v : Word) : (v.setWidth 8).setWidth 32 = v &&& 0xFF :=
  setWidth_setWidth_eq_and v (k := 8) (by decide)

/-- A read of an existing entry of an idle core. -/
theorem hostRead_idle_entry {s : State} (hb : s.busy = false) {a : BusAddr} {x : Target} (ha : target a = x)
    (hx : x.exists? s.params = true) : s.hostRead a = (s.readEntry x, s) := by
  rw [hostRead_of_idle hb, ha, if_pos hx]

/-- A write to an existing entry of an idle core. -/
theorem hostWrite_idle_entry {s : State} (hb : s.busy = false) {a : BusAddr} {x : Target} (ha : target a = x)
    (hx : x.exists? s.params = true) (v : Word) : s.hostWrite a v = s.writeEntry v x := by
  rw [hostWrite_of_idle hb, ha, if_pos hx]

/-- Settles O23: both words name the same entry, and no write reaches MAG. -/
theorem magAperture : Obligations.MagAperture := by
  intro s k v hp hb hk
  obtain ⟨-, -, -, ⟨-, hlog⟩, -⟩ := hp
  have hk16 : k < 2 ^ 16 := hk.trans_le (Nat.pow_le_pow_right (by decide) hlog)
  obtain ⟨hlow, hhigh⟩ := target_busAddr_mag hk16
  have hx (high : Bool) : (Target.mag k high).exists? s.params = true := decide_eq_true hk
  exact ⟨hostRead_idle_entry hb hlow (hx false), hostRead_idle_entry hb hhigh (hx true),
    hostWrite_idle_entry hb hlow (hx false) v, hostWrite_idle_entry hb hhigh (hx true) v⟩

/-- A byte written to BYTEBUF of an idle core reads back, and no other entry changes. -/
theorem byteBuf_readBack {s : State} (hb : s.busy = false) {a : BusAddr} {i : Nat} (ha : target a = .byteBuf i)
    (hi : i < s.params.byteDepth) (v : Word) :
    let t := s.hostWrite a v
    t.hostRead a = (v &&& 0xFF, t) ∧ t.byteAt i = v.setWidth 8 ∧ (∀ k, k ≠ i → t.byteAt k = s.byteAt k) ∧
      t = { s with mem := { s.mem with byteBuf := t.mem.byteBuf } } := by
  have hx : (Target.byteBuf i).exists? s.params = true := decide_eq_true hi
  have hat := byteAt_writeEntry v s i
  rw [hostWrite_idle_entry hb ha hx]
  refine ⟨?_, (hat i).trans (if_pos rfl), fun k hk => (hat k).trans (if_neg hk), rfl⟩
  rw [hostRead_idle_entry (s := s.writeEntry v (.byteBuf i)) hb ha hx, State.readEntry, hat, if_pos rfl,
    setWidth_byte]

/-- A byte written to SYMBUF of an idle core reads back, and no other entry changes. -/
theorem symBuf_readBack {s : State} (hb : s.busy = false) {a : BusAddr} {i : Nat} (ha : target a = .symBuf i)
    (hi : i < s.params.symDepth) (v : Word) :
    let t := s.hostWrite a v
    t.hostRead a = (v &&& 0xFF, t) ∧ t.symAt i = v.setWidth 8 ∧ (∀ k, k ≠ i → t.symAt k = s.symAt k) ∧
      t = { s with mem := { s.mem with symBuf := t.mem.symBuf } } := by
  have hx : (Target.symBuf i).exists? s.params = true := decide_eq_true hi
  have hat := symAt_writeEntry v s i
  rw [hostWrite_idle_entry hb ha hx]
  refine ⟨?_, (hat i).trans (if_pos rfl), fun k hk => (hat k).trans (if_neg hk), rfl⟩
  rw [hostRead_idle_entry (s := s.writeEntry v (.symBuf i)) hb ha hx, State.readEntry, hat, if_pos rfl,
    setWidth_byte]

/-- A sample written to a bank of an idle core reads back sign-extended, and no other entry changes. -/
theorem wave_readBack {s : State} (hb : s.busy = false) {a : BusAddr} {b : Bank} {i : Nat}
    (ha : target a = .wave b i) (hi : i < s.params.waveDepth) (v : Word) :
    let t := s.hostWrite a v
    t.hostRead a = ((v.setWidth 16).signExtend 32, t) ∧ t.waveAt b i = v.setWidth 16 ∧
      (∀ k, k ≠ i → t.waveAt b k = s.waveAt b k) ∧ t = { s with mem := s.mem.setWave b (t.mem.wave b) } := by
  have hx : (Target.wave b i).exists? s.params = true := decide_eq_true hi
  have hat := waveAt_writeEntry v s b i
  rw [hostWrite_idle_entry hb ha hx]
  refine ⟨?_, (hat i).trans (if_pos rfl), fun k hk => (hat k).trans (if_neg hk), ?_⟩
  · rw [hostRead_idle_entry (s := s.writeEntry v (.wave b i)) hb ha hx, State.readEntry, hat, if_pos rfl]
  · rw [State.writeEntry, setWave_wave_same]

/-- Settles O22: R5's sizes keep each buffer inside its aperture, so the address names the entry, which exists. -/
theorem entryReadBack : Obligations.EntryReadBack := by
  intro s i v hp hb
  obtain ⟨⟨-, hwave⟩, ⟨-, hsym⟩, ⟨-, hbyte⟩, -⟩ := hp
  have abyte (h : i < s.params.byteDepth) := target_busAddr_byteBuf (h.trans_le hbyte)
  have asym (h : i < s.params.symDepth) := target_busAddr_symBuf (h.trans_le hsym)
  have awave0 (h : i < s.params.waveDepth) := target_busAddr_wave0 (h.trans_le hwave)
  have awave1 (h : i < s.params.waveDepth) := target_busAddr_wave1 (h.trans_le hwave)
  have free {w : Nat} {o : Option (BitVec w)} {d : BitVec w} (h : o = none) : o.getD d = d := by rw [h]; rfl
  exact ⟨fun h => hostRead_idle_entry hb (abyte h) (decide_eq_true h),
    fun h => hostRead_idle_entry hb (asym h) (decide_eq_true h),
    fun h => ⟨hostRead_idle_entry hb (awave0 h) (decide_eq_true h),
      hostRead_idle_entry hb (awave1 h) (decide_eq_true h)⟩,
    free, free, free, free, fun h => byteBuf_readBack hb (abyte h) h v, fun h => symBuf_readBack hb (asym h) h v,
    fun h => wave_readBack hb (awave0 h) h v, fun h => wave_readBack hb (awave1 h) h v⟩

/-! ### Reads (20_memory R73) and the words of the status registers (10_state R29, R30, R48) -/

/-- A word placed above another adds its shifted value. -/
theorem toNat_or_shiftLeft {x y : Word} {i : Nat} (hx : x.toNat < 2 ^ i) (hy : y.toNat * 2 ^ i < 2 ^ 32) :
    (x ||| y <<< i).toNat = x.toNat + 2 ^ i * y.toNat := by
  rw [BitVec.toNat_or, BitVec.toNat_shiftLeft, Nat.shiftLeft_eq, Nat.mod_eq_of_lt hy, Nat.or_comm, Nat.mul_comm,
    ← Nat.two_pow_add_eq_or_of_lt hx]
  omega

theorem toNat_ofBool (b : Bool) : ((BitVec.ofBool b).setWidth 32).toNat = b.toNat := by cases b <;> rfl

theorem toNat_bitAt_zero (b : Bool) : (bitAt b 0).toNat = b.toNat ∧ (bitAt b 0).toNat < 2 ^ 1 := by
  cases b <;> decide

/-- One more bit above those a word has. -/
theorem toNat_or_bitAt {x : Word} (i : Nat) (hx : x.toNat < 2 ^ i) (hi : i < 32) (b : Bool) :
    (x ||| bitAt b i).toNat = x.toNat + 2 ^ i * b.toNat ∧ (x ||| bitAt b i).toNat < 2 ^ (i + 1) := by
  have hpow : 2 ^ (i + 1) ≤ 2 ^ 32 := Nat.pow_le_pow_right (by decide) hi
  have hbit : 2 ^ i * b.toNat ≤ 2 ^ i := mul_le_of_le_one_right (Nat.zero_le _) (Bool.toNat_le b)
  have hsum : (x ||| bitAt b i).toNat = x.toNat + 2 ^ i * b.toNat := by
    rw [← toNat_ofBool b] at hbit ⊢
    exact toNat_or_shiftLeft hx (by rw [Nat.pow_succ] at hpow; rw [Nat.mul_comm]; omega)
  exact ⟨hsum, by rw [hsum, Nat.pow_succ]; omega⟩

theorem statusWord_toNat (s : State) :
    s.statusWord.toNat = s.busy.toNat + 2 * s.fin.toNat + 4 * s.err.toNat + 256 * s.errCode.toNat := by
  have hcode : (s.errCode.setWidth 32).toNat = s.errCode.toNat := BitVec.toNat_setWidth_of_le (by decide)
  have hlt := s.errCode.isLt
  obtain ⟨busy, h0⟩ := toNat_bitAt_zero s.busy
  obtain ⟨fin, h1⟩ := toNat_or_bitAt 1 h0 (by decide) s.fin
  obtain ⟨err, h2⟩ := toNat_or_bitAt 2 h1 (by decide) s.err
  rw [State.statusWord, toNat_or_shiftLeft (by omega) (by omega)]
  omega

theorem peakInfoWord_toNat (s : State) : s.peakInfoWord.toNat = s.peakBit.toNat + 2 * s.peakNoband.toNat := by
  obtain ⟨bit, h0⟩ := toNat_bitAt_zero s.peakBit
  obtain ⟨noband, -⟩ := toNat_or_bitAt 1 h0 (by decide) s.peakNoband
  rw [State.peakInfoWord]
  omega

theorem flagsWord_toNat (f : Flags) :
    f.word.toNat = f.invsym.toNat + 2 * f.shortwin.toNat + 4 * f.noband.toNat + 8 * f.busyacc.toNat +
      16 * f.badaddr.toNat := by
  obtain ⟨invsym, h0⟩ := toNat_bitAt_zero f.invsym
  obtain ⟨shortwin, h1⟩ := toNat_or_bitAt 1 h0 (by decide) f.shortwin
  obtain ⟨noband, h2⟩ := toNat_or_bitAt 2 h1 (by decide) f.noband
  obtain ⟨busyacc, h3⟩ := toNat_or_bitAt 3 h2 (by decide) f.busyacc
  obtain ⟨badaddr, -⟩ := toNat_or_bitAt 4 h3 (by decide) f.badaddr
  rw [Flags.word]
  omega

/-- A read sets at most BUSYACC and BADADDR, and counts a refusal. -/
theorem hostRead_flags (s : State) (a : BusAddr) : ∃ b c : Bool, (s.hostRead a).2 =
    { s with flags := { s.flags with busyacc := s.flags.busyacc || b, badaddr := s.flags.badaddr || c },
             draws := (s.hostRead a).2.draws } := by
  rcases hostRead_state s a with h | h | ⟨-, h⟩ <;> rw [h]
  · exact ⟨false, false, by simp⟩
  · exact ⟨false, true, by simp [State.noteBadaddr]⟩
  · exact ⟨true, false, by simp [State.noteBusyacc]⟩

/-- A read of an idle core counts no refusal, and done again it returns the same word. -/
theorem hostRead_idle_again {s : State} (hb : s.busy = false) (a : BusAddr) :
    (s.hostRead a).2.draws = s.draws ∧ ((s.hostRead a).2.hostRead a).1 = (s.hostRead a).1 := by
  cases hx : (target a).exists? s.params with
  | true =>
    have h : s.hostRead a = (s.readEntry (target a), s) := hostRead_idle_entry hb rfl hx
    rw [h]
    exact ⟨rfl, congrArg Prod.fst h⟩
  | false =>
    have reserved {t : State} (hbt : t.busy = false) (hp : t.params = s.params) :
        t.hostRead a = (0, t.noteBadaddr) := by
      rw [hostRead_of_idle hbt, hp, hx]
      rfl
    rw [reserved hb rfl, reserved (t := s.noteBadaddr) hb rfl]
    exact ⟨rfl, rfl⟩

/-- Settles O24: what a read leaves (`hostRead_state`), and the words of the registers bit by bit. -/
theorem readsChangeOnlyFlags : Obligations.ReadsChangeOnlyFlags := by
  intro s a
  refine ⟨hostRead_flags s a, hostRead_idle_again (a := a), hostRead_reg (r := .cmd) rfl,
    ⟨_, hostRead_reg (r := .status) rfl, statusWord_toNat s⟩,
    ⟨_, hostRead_reg (r := .flags) rfl, flagsWord_toNat s.flags⟩,
    ⟨_, hostRead_reg (r := .log2n) rfl, ?_⟩, ⟨_, hostRead_reg (r := .peakBin) rfl, ?_⟩,
    ⟨_, hostRead_reg (r := .peakInfo) rfl, peakInfoWord_toNat s⟩, hostRead_reg (r := .invsymCnt) rfl,
    hostRead_reg (r := .nobandCnt) rfl⟩
  · exact BitVec.toNat_setWidth_of_le (by decide)
  · exact BitVec.toNat_setWidth_of_le (by decide)

/-! ### What no command writes (20_memory R86) -/

/-- Settles O51: a failure writes STATUS alone, and `runOf_kept` lists what no run writes. -/
theorem operandsKept : Obligations.OperandsKept := by
  intro i s t h
  obtain ⟨c, -, rfl⟩ | ⟨u, hu, rfl⟩ := exec_next.mp h
  · simp
  · simp [runOf_kept hu]

/-! ### A command in flight and the host's transactions (20_memory R83) -/

/-- The flags `f` with those set besides that a command asks for (10_state R30). -/
def raise (invsym shortwin noband : Bool) (f : Flags) : Flags :=
  ((f.noteInvsym invsym).noteShortwin shortwin).noteNoband noband

@[simp] theorem noteInvsym_false (f : Flags) : f.noteInvsym false = f := by simp [Flags.noteInvsym]

@[simp] theorem noteShortwin_false (f : Flags) : f.noteShortwin false = f := by simp [Flags.noteShortwin]

@[simp] theorem noteNoband_false (f : Flags) : f.noteNoband false = f := by simp [Flags.noteNoband]

@[simp] theorem raise_none (f : Flags) : raise false false false f = f := by simp [raise]

/-- The state `s` with the flags `f` and with the other fields that a transaction can reach on a busy core, soft reset
apart, taken from `t`. -/
def withHostSide (t : State) (f : Flags) (s : State) : State :=
  { s with ieDone := t.ieDone, ieErr := t.ieErr, flags := f, reply := t.reply, draws := t.draws }

/-- A run neither reads the host's side nor writes it, but for the flags it raises. -/
theorem runOf_withHostSide (i : Instr) (s : State) : ∃ b c d, ∀ t f,
    runOf i (withHostSide t f s) = (runOf i s).map (withHostSide t (raise b c d f)) := by
  cases i with
  | nop | b2s | s2b | anlz b =>
    refine ⟨false, false, false, fun t f => ?_⟩
    simp only [raise_none, runOf, runUnder, runB2s, runS2b, runAnlz, apply_ite (Except.map _)]
    rfl
  | mod d =>
    refine ⟨decide (0 < s.symLen.toNat - s.validSymbols.length), false, false, fun t f => ?_⟩
    simp only [raise, noteShortwin_false, noteNoband_false, runOf, runUnder, runMod, apply_ite (Except.map _)]
    cases d <;> rfl
  | demw b =>
    refine ⟨false, false, (s.classify num (s.window b)).noband, fun t f => ?_⟩
    simp only [raise, noteInvsym_false, noteShortwin_false, runOf, runUnder, runDemw, apply_ite (Except.map _)]
    rfl
  | demod b =>
    refine ⟨false, lastShort s.sps (s.windows num b).getLast?, (s.windows num b).any fun r => r.noband, fun t f => ?_⟩
    have hw : (withHostSide t f s).windows num b = s.windows num b := rfl
    simp only [raise, noteInvsym_false, runOf, runUnder, runDemod, hw, apply_ite (Except.map _)]
    cases (s.windows num b).getLast? <;> rfl
  | noise b d =>
    refine ⟨false, false, false, fun t f => ?_⟩
    simp only [raise_none, runOf, runUnder, runNoise, apply_ite (Except.map _)]
    cases d <;> rfl

/-- The same of a completion, which decodes its word from CMD. -/
theorem complete_withHostSide {s u : State} (h : complete s = .next u) : ∃ b c d, ∀ t f,
    complete (withHostSide t f s) = .next (withHostSide t (raise b c d f) u) := by
  cases hd : decode s.cmd with
  | none =>
    rw [complete_none hd] at h
    cases h
    exact ⟨false, false, false, fun t f => by rw [raise_none]; exact complete_none hd⟩
  | some i =>
    have hexec (t : State) (f : Flags) :
        complete (withHostSide t f s) = conclude (withHostSide t f s) (runOf i (withHostSide t f s)) :=
      (complete_some (s := withHostSide t f s) hd).trans (exec_eq_conclude i _)
    obtain ⟨b, c, d, hrun⟩ := runOf_withHostSide i s
    rw [complete_some hd] at h
    obtain ⟨e, he, rfl⟩ | ⟨w, hw, rfl⟩ := exec_next.mp h
    · exact ⟨false, false, false, fun t f => by rw [hexec, hrun, he, raise_none]; rfl⟩
    · exact ⟨b, c, d, fun t f => by rw [hexec, hrun, hw]; rfl⟩

/-- An address that names a register is that register's. -/
theorem eq_regAddr_of_target {a : BusAddr} {r : Reg} (h : target a = .reg r) : a = regAddr r := by
  by_cases h1 : byteAddr a < 0x80
  · obtain ⟨r', hr', rfl⟩ := target_of_lt h1
    cases hr'.symm.trans h
    rfl
  · by_cases h2 : byteAddr a < 0x100000
    · cases (target_hole (by omega) h2).symm.trans h
    · exact absurd h ((target_aperture_ne (by omega)).1 r)

/-- A transaction other than a soft reset, on a busy core, reaches the host's side of the state alone: STATUS has nothing
to acknowledge. -/
theorem takeMove_busy {s t : State} {m : Move} (hok : s.StatusOk) (hb : s.busy = true)
    (hm : (∃ a, m = .read a) ∨ ∃ a v, m = .write a v ∧ ¬(a = busAddr 0x014 ∧ v.getLsbD 0 = true))
    (h : takeMove m s = .next t) : t = withHostSide t t.flags s := by
  obtain ⟨a, rfl⟩ | ⟨a, v, rfl, hv⟩ := hm
  · cases h
    rcases hostRead_state s a with hr | hr | ⟨-, hr⟩ <;> rw [hr] <;> rfl
  · cases h
    rcases hostWrite_state s a v with hw | hw | ⟨r, hr, hwritable, hw⟩ | ⟨hidle, -⟩
    · rw [hw]
      rfl
    · rw [hw]
      rfl
    · rw [hw]
      rcases writableBusy_cases (hwritable hb) with rfl | rfl | rfl
      · have hsrst : ¬bitOf v 0 = true := fun h0 => hv ⟨eq_regAddr_of_target hr, h0⟩
        rw [State.writeReg, State.writeCtrl, if_neg hsrst]
        rfl
      · obtain ⟨hfin, herr, hcode⟩ := status_of_busy hok hb
        simp [State.writeReg, State.ackStatus, withHostSide, hfin, herr, hcode]
      · rfl
    · rw [hb] at hidle
      cases hidle

/-- Settles O15: the transaction reaches the host's side alone (`takeMove_busy`), which the completion does not read
(`complete_withHostSide`). -/
theorem resultFixedAtAcceptance : Obligations.ResultFixedAtAcceptance := by
  intro s t u m hok hb hm ht hu
  obtain ⟨b, c, d, hside⟩ := complete_withHostSide hu
  have hafter : complete t = .next (withHostSide t (raise b c d t.flags) u) :=
    (congrArg complete (takeMove_busy hok hb hm ht)).trans (hside t t.flags)
  have hflags : u.flags = raise b c d s.flags := by
    have hself : complete s = .next (withHostSide s (raise b c d s.flags) u) := hside s s.flags
    exact congrArg State.flags (Host.Outcome.next.inj (hu.symm.trans hself))
  exact ⟨_, _, hafter, hside s Flags.clear, rfl, hflags, rfl⟩

end Sys2Proof.Proofs

/-! SUPPORT. Decoding and encoding agree, which words are illegal and what one does, and the range of the samples that
MOD and NOISE write (30_encoding). -/

namespace Sys2Proof.Proofs

open Sys2Proof Sys2Proof.Machine

/-! ### The command table against the encoder (30_encoding R103, R104) -/

/-- What a decoded command tells: a row of the table matches, and the banks are those of bits 8 and 9. -/
theorem decode_some {w : Word} {i : Instr} (h : decode w = some i) : ∃ r ∈ commandTable,
    w &&& r.mask = r.pattern ∧ r.build (bankOfBit (w.getLsbD 8)) (bankOfBit (w.getLsbD 9)) = i := by
  obtain ⟨r, hfind, hbuild⟩ := Option.map_eq_some_iff.mp h
  have hhits : Row.hits w r = true := List.find?_some hfind
  exact ⟨r, List.mem_of_find?_eq_some hfind, beq_iff_eq.mp hhits, hbuild⟩

/-- The bits of a packed word, by field (30_encoding R100). -/
theorem getElem_packFields (opc : BitVec 8) (s d : Bool) {k : Nat} (hk : k < 32) : (packFields opc s d)[k] =
    if h : k < 8 then opc[k] else if k = 8 then s else if k = 9 then d else false := by
  simp only [packFields, BitVec.getElem_cast, BitVec.getElem_append, BitVec.getElem_zero, BitVec.getElem_ofBool]
  split
  · rfl
  · grind

/-- The S and D bits of a word, alone. -/
theorem packFields_zero (w : Word) : packFields 0 (w.getLsbD 8) (w.getLsbD 9) = w &&& 0x300 := by
  have mask : (0x300 : Word) = packFields 0 true true := by decide
  rw [mask]
  ext k hk
  simp only [BitVec.getElem_and, getElem_packFields _ _ _ hk]
  grind

/-- The only bits a row's mask leaves free are S and D. -/
theorem bank_bits_of_not_mask : ∀ r ∈ commandTable, 0x300 &&& ~~~r.mask = ~~~r.mask := by decide

/-- The encoding of a row's command: the row's pattern, and its banks in the bits the mask leaves free. -/
theorem encode_build : ∀ r ∈ commandTable, ∀ s d,
    encode (r.build (bankOfBit s) (bankOfBit d)) = r.pattern ||| (packFields 0 s d &&& ~~~r.mask) := by decide

/-- A word is its encoding: the row's match fixes the bits under the mask, and the banks fix the others. -/
theorem encode_of_decode {w : Word} {i : Instr} (h : decode w = some i) : encode i = w := by
  obtain ⟨r, hr, hmatch, rfl⟩ := decode_some h
  calc encode (r.build (bankOfBit (w.getLsbD 8)) (bankOfBit (w.getLsbD 9)))
      = r.pattern ||| (w &&& 0x300 &&& ~~~r.mask) := by rw [encode_build r hr, packFields_zero]
    _ = (w &&& r.mask) ||| (w &&& ~~~r.mask) := by rw [hmatch, BitVec.and_assoc, bank_bits_of_not_mask r hr]
    _ = w := by rw [← BitVec.and_or_distrib_left, BitVec.or_not_self, BitVec.and_allOnes]

@[simp] theorem decode_encode (i : Instr) : decode (encode i) = some i := by
  cases i with
  | nop | b2s | s2b => decide
  | mod b | anlz b | demw b | demod b => cases b <;> decide
  | noise b d => cases b <;> cases d <;> decide

/-- Settles O8: each direction is one of the two round trips. -/
theorem decodeEncodeAgree : Obligations.DecodeEncodeAgree :=
  fun _ i => ⟨encode_of_decode, fun h => h ▸ decode_encode i⟩

theorem encode_injective : Function.Injective encode := fun i j h => by
  simpa using congrArg decode h

theorem decode_ne_none_iff (w : Word) : decode w ≠ none ↔ ∃ i, encode i = w := by
  simp only [Option.ne_none_iff_exists', decodeEncodeAgree w]

/-! ### Illegal words (30_encoding R105) -/

/-- A word whose upper bits are 0 is packed from its other fields. -/
theorem packFields_ofWord {w : Word} (h : (Fields.ofWord w).zero = 0) :
    packFields (Fields.ofWord w).opc (Fields.ofWord w).s (Fields.ofWord w).d = w := by
  ext k hk
  rw [getElem_packFields _ _ _ hk]
  have hupper : 10 ≤ k → w[k] = false := fun h10 => by
    have hbit := congrArg (·.getLsbD (k - 10)) h
    simpa [Fields.ofWord, Nat.add_sub_cancel' h10, BitVec.getLsbD_eq_getElem hk, show k - 10 < 22 by omega] using hbit
  simp only [Fields.ofWord, BitVec.getElem_extractLsb']
  grind

/-- Legal fields with upper bits 0 are those of a command. -/
theorem decode_packFields : ∀ n < 8, ∀ s d, (Fields.mk (BitVec.ofNat 8 n) s d 0).wellFormed = true →
    decode (packFields (BitVec.ofNat 8 n) s d) ≠ none := by decide

theorem wellFormed_encode (i : Instr) : (Fields.ofWord (encode i)).wellFormed = true := by
  cases i with
  | nop => exact Laws.LegalWord.nop.1
  | b2s => exact Laws.LegalWord.b2s.1
  | s2b => exact Laws.LegalWord.s2b.1
  | mod d => exact (Laws.LegalWord.mod d).1
  | anlz b => exact (Laws.LegalWord.anlz b).1
  | demw b => exact (Laws.LegalWord.demw b).1
  | demod b => exact (Laws.LegalWord.demod b).1
  | noise b d => exact (Laws.LegalWord.noise b d).1

theorem wellFormed_iff (f : Fields) : f.wellFormed = true ↔
    f.opc.toNat < 8 ∧ f.zero = 0 ∧ ¬(f.s = true ∧ f.opc.toNat ∈ [0, 1, 2, 3]) ∧
      ¬(f.d = true ∧ f.opc.toNat ∈ [0, 1, 2, 4, 5, 6]) := by
  simp only [Fields.wellFormed, Fields.opcOk, Fields.zeroOk, Fields.sOk, Fields.dOk, Bool.and_eq_true,
    decide_eq_true_eq, beq_iff_eq, Bool.not_eq_true', ← Bool.not_eq_true, List.contains_iff_mem, and_assoc]

/-- The mask table decodes a word exactly when its fields are legal. -/
theorem decode_ne_none_iff_wellFormed (w : Word) : decode w ≠ none ↔ (Fields.ofWord w).wellFormed = true := by
  constructor
  · rw [decode_ne_none_iff]
    rintro ⟨i, rfl⟩
    exact wellFormed_encode i
  · intro h
    obtain ⟨hopc, hzero, -⟩ := (wellFormed_iff _).mp h
    have hfields := decode_packFields _ hopc (Fields.ofWord w).s (Fields.ofWord w).d
    rw [BitVec.ofNat_toNat, BitVec.setWidth_eq, packFields_ofWord hzero, ← hzero] at hfields
    exact hfields h

theorem decode_eq_none_iff (w : Word) : decode w = none ↔
    8 ≤ (w.extractLsb' 0 8).toNat ∨ w.extractLsb' 10 22 ≠ 0 ∨
    (w.getLsbD 8 = true ∧ (w.extractLsb' 0 8).toNat ∈ [0, 1, 2, 3]) ∨
    (w.getLsbD 9 = true ∧ (w.extractLsb' 0 8).toNat ∈ [0, 1, 2, 4, 5, 6]) := by
  rw [← not_iff_not, ← ne_eq, decode_ne_none_iff_wellFormed, wellFormed_iff]
  simp only [Fields.ofWord, not_or, not_le, ne_eq, not_not]

/-! ### The legal words -/

/-- Each command with each choice of its banks. -/
def allCommands : List Instr :=
  [.nop, .b2s, .s2b] ++ [Instr.mod, .anlz, .demw, .demod].flatMap (fun c => [c .wave0, c .wave1]) ++
  [.noise .wave0 .wave0, .noise .wave0 .wave1, .noise .wave1 .wave0, .noise .wave1 .wave1]

theorem allCommands_nodup : allCommands.Nodup := by decide

theorem mem_allCommands (i : Instr) : i ∈ allCommands := by
  cases i with
  | nop | b2s | s2b => decide
  | mod b | anlz b | demw b | demod b => cases b <;> decide
  | noise b d => cases b <;> cases d <;> decide

/-- The words of all commands. -/
def legalWords : List Word := allCommands.map encode

theorem legalWords_nodup : legalWords.Nodup := allCommands_nodup.map encode_injective

theorem mem_legalWords (w : Word) : w ∈ legalWords ↔ decode w ≠ none := by
  simp only [legalWords, List.mem_map, mem_allCommands, true_and, decode_ne_none_iff]

/-- Each command has one legal word. -/
theorem legalWords_filter_length (i : Instr) : (legalWords.filter fun w => decode w == some i).length = 1 := by
  have one : allCommands.count i = 1 := List.count_eq_one_of_mem allCommands_nodup (mem_allCommands i)
  rw [List.count_eq_length_filter] at one
  simpa [legalWords, List.filter_map, Function.comp_def] using one

/-- An illegal word on an idle core: accepted, then failed by the core's next turn with nothing else changed
(40_command R131, R134; 60_exceptions R262, R263). -/
theorem illegalWord_completes {s : State} {w : Word} (hb : s.busy = false) (hs : s.schedule = [])
    (hw : decode w = none) : (s.hostWrite (busAddr 0x018) w).busy = true ∧
      step (s.hostWrite (busAddr 0x018) w) =
        .next { s with cmd := w, busy := false, fin := true, err := true, errCode := 1 } := by
  have haccept : s.hostWrite (busAddr 0x018) w = s.accept w := hostWrite_idle hb (r := .cmd) rfl w
  rw [haccept]
  refine ⟨rfl, ?_⟩
  rw [step_nil (s := s.accept w) hs, coreMove_busy rfl, complete_none (s := s.accept w) hw]
  rfl

/-- Settles O9: the field rules and the mask table name the same words, and `legalWords` lists them. -/
theorem illegalWords : Obligations.IllegalWords :=
  ⟨decode_eq_none_iff,
    ⟨legalWords, legalWords_nodup, rfl, fun w => (mem_legalWords w).symm, legalWords_filter_length⟩,
    fun _ _ hb hs hw => illegalWord_completes hb hs hw⟩

/-- Settles O10: the table is searched for each of the twelve words. -/
theorem decodedWords : Obligations.DecodedWords := by
  unfold Obligations.DecodedWords
  decide

/-! ### The range of written samples (30_encoding R110) -/

/-- The state after a command that no condition stops is its run's, with STATUS written. -/
theorem exec_of_succeeds {i : Instr} {s t : State} (h : Succeeds i s) (ht : exec i s = .next t) :
    ∃ u, runOf i s = .ok u ∧ t = u.succeed := by
  obtain ⟨u, hu⟩ := runOf_of_succeeds h
  rw [exec_of_ok hu] at ht
  cases ht
  exact ⟨u, hu, rfl⟩

/-- Every sample below `sps` times the symbols lies in the wave of one of them. -/
theorem runMod_sample_clipped {num : Config.Numerics} {d : Bank} {s u : State} (hu : runMod num d s = .ok u) {i : Nat}
    (hi : i < s.sps * s.validSymbols.length) : ∃ v, (u.waveAt d i).toInt = clip v := by
  have hsps : 0 < s.sps := Nat.pos_of_ne_zero fun h => by simp [h] at hi
  have hj : i / s.sps < s.validSymbols.length := Nat.div_lt_of_lt_mul hi
  have hsample := runMod_sample hu (List.getElem?_eq_getElem hj) (Nat.mod_lt i hsps)
  rw [Nat.div_add_mod'] at hsample
  exact ⟨_, hsample⟩

/-- Settles O35: each sample either command writes is a clipped number (`clip_bounds`). -/
theorem samplesClipped : Obligations.SamplesClipped := by
  intro s t b d i
  constructor
  · intro hsucc ht hi
    obtain ⟨u, hu, rfl⟩ := exec_of_succeeds hsucc ht
    obtain ⟨v, hv⟩ := runMod_sample_clipped hu hi
    rw [succeed_waveAt, hv]
    exact clip_bounds v
  · intro hsucc hl ht hi
    obtain ⟨u, hu, rfl⟩ := exec_of_succeeds hsucc ht
    rw [succeed_waveAt, runNoise_sample hu hl hi]
    exact clip_bounds _

end Sys2Proof.Proofs

/-! SUPPORT. The life of a command (40_command): acceptance, completion, and the schedule up to it. -/

namespace Sys2Proof.Proofs

open Sys2Proof Sys2Proof.Machine

/-! ### Every move answers, and the schedule runs out (40_command R133, R136) -/

/-- A move answers; the core's turn ends the command in flight. -/
theorem takeMove_answers (m : Move) (s : State) :
    ∃ t, takeMove m s = .next t ∧ (m = .core → t.busy = false ∧ (s.busy = true → t.fin = true)) := by
  cases m with
  | core =>
    obtain ⟨t, ht, hend⟩ := coreMove_answers s
    exact ⟨t, ht, fun _ => hend⟩
  | read a => exact ⟨_, rfl, nofun⟩
  | write a v => exact ⟨_, rfl, nofun⟩
  | reset => exact ⟨_, rfl, nofun⟩

theorem step_answers (s : State) : ∃ t, step s = .next t ∧
    (s.schedule = [] ∨ s.schedule.head? = some .core → t.busy = false ∧ (s.busy = true → t.fin = true)) := by
  match hs : s.schedule with
  | [] =>
    obtain ⟨t, ht, hend⟩ := coreMove_answers s
    exact ⟨t, (step_nil hs).trans ht, fun _ => hend⟩
  | m :: rest =>
    obtain ⟨t, ht, hend⟩ := takeMove_answers m { s with schedule := rest }
    exact ⟨t, (step_cons hs).trans ht, fun hcore => hend (by simpa using hcore)⟩

/-- Settles O4: the moves other than the core's answer by their definitions, the core's by `coreMove_answers`. -/
theorem everyStepAnswers : Obligations.EveryStepAnswers := by
  intro s
  obtain ⟨t, ht, hend⟩ := step_answers s
  refine ⟨t, ht, fun hb hcore => ?_⟩
  obtain ⟨hidle, hfin⟩ := hend hcore
  exact ⟨hidle, hfin hb⟩

/-- One step more than there are moves: the moves are taken, and then it is the core's turn, which leaves it idle. -/
theorem run_schedule_idle (moves : List Move) : ∀ s : State, s.schedule = moves →
    ∃ t, Host.Core.run core (moves.length + 1) s = .next t ∧ t.busy = false := by
  induction moves with
  | nil =>
    intro s hs
    obtain ⟨t, ht, hend⟩ := step_answers s
    exact ⟨t, run_succ ht 0, (hend (.inl hs)).1⟩
  | cons m rest ih =>
    intro s hs
    obtain ⟨t, ht, -⟩ := step_answers s
    have hrest : t.schedule = rest := by rw [(step_kept ht).1, hs, List.tail_cons]
    obtain ⟨u, hu, hidle⟩ := ih t hrest
    exact ⟨u, (run_succ ht _).trans hu, hidle⟩

/-- Settles O5: the host's moves are finitely many, and a step takes one of them away (`run_schedule_idle`). -/
theorem commandEnds : Obligations.CommandEnds := by
  intro s _
  obtain ⟨t, ht, hidle⟩ := run_schedule_idle s.schedule s rfl
  exact ⟨_, t, le_rfl, ht, hidle⟩

/-! ### Which move a step takes (40_command R133, 20_memory R82) -/

/-- The core's turn with a legal word in flight. -/
theorem coreMove_legal {s : State} {i : Instr} (hb : s.busy = true) (hd : decode s.cmd = some i) :
    coreMove s = exec i s := (coreMove_busy hb).trans (complete_some hd)

/-- The core's turn with an illegal word in flight. -/
theorem coreMove_illegal {s : State} (hb : s.busy = true) (hd : decode s.cmd = none) :
    coreMove s = .next (s.failWith .illCmd) := (coreMove_busy hb).trans (complete_none hd)

/-- Settles O6: a step is the move `step_nil` or `step_cons` names, and the core's turn is the completion of the decoded
word on a busy core and nothing on an idle one. -/
theorem stepRunsDecoded : Obligations.StepRunsDecoded := by
  intro s
  refine ⟨fun i hb hd hs => ?_, fun i rest hb hd hs => ?_, fun hb hd hs => ?_, fun rest hb hd hs => ?_,
    fun hb hs => ?_, fun rest hb hs => ?_, fun a rest hs => step_cons hs, fun a v rest hs => step_cons hs,
    fun rest hs => step_cons hs⟩
  · exact (step_nil hs).trans (coreMove_legal hb hd)
  · exact (step_cons hs).trans (coreMove_legal (s := { s with schedule := rest }) hb hd)
  · exact (step_nil hs).trans (coreMove_illegal hb hd)
  · exact (step_cons hs).trans (coreMove_illegal (s := { s with schedule := rest }) hb hd)
  · exact (step_nil hs).trans (coreMove_idle hb)
  · exact (step_cons hs).trans (coreMove_idle (s := { s with schedule := rest }) hb)

/-! ### Acceptance (40_command R131, R132) -/

theorem accept_irq (w : Word) (s : State) : (s.accept w).irq = false := by simp [State.irq]

/-- A write to CMD of an idle core is an acceptance. -/
theorem hostWrite_cmd_idle {s : State} (hb : s.busy = false) (w : Word) :
    s.hostWrite (busAddr 0x018) w = s.accept w := hostWrite_idle hb (r := .cmd) rfl w

/-- Settles O11: the write is an acceptance, which clears both STATUS bits that irq reads. -/
theorem acceptance : Obligations.Acceptance := by
  intro s w hb
  rw [hostWrite_cmd_idle hb]
  exact ⟨rfl, accept_irq w s⟩

/-- Settles O12: CMD is not among the registers a busy core lets the host write. -/
theorem issueWhileBusy : Obligations.IssueWhileBusy :=
  fun _ w hb => hostWrite_of_busy hb (r := .cmd) rfl w

/-! ### Completion (40_command R135, R137) -/

theorem errCode_code_ne_zero (c : ErrCode) : c.code ≠ 0 := by cases c <;> decide

/-- Settles O14: a completion that leaves ERR = 1 is a failure, since a success keeps ERR as it was, and a failure writes
STATUS alone. -/
theorem allOrNothing : Obligations.AllOrNothing := by
  intro s t herr ht hterr
  obtain ⟨c, rfl⟩ | ⟨i, u, hu, rfl⟩ := complete_next ht
  · exact ⟨rfl, errCode_code_ne_zero c⟩
  · have hkept : u.succeed.err = s.err := by simp [runOf_kept hu]
    rw [hkept, herr] at hterr
    cases hterr

/-- A word accepted by a core with nothing scheduled is completed by the next step. -/
theorem step_accept {s : State} (hs : s.schedule = []) (w : Word) : step (s.accept w) = complete (s.accept w) :=
  (step_nil (s := s.accept w) hs).trans (coreMove_busy rfl)

theorem exec_nop (s : State) : exec .nop s = .next s.succeed := exec_of_ok rfl

/-- Settles O28: NOP's run stores nothing, so its completion writes STATUS alone, on top of what acceptance cleared. -/
theorem nopResult : Obligations.NopResult := by
  have hdecode : decode 0 = some .nop := decode_encode .nop
  refine ⟨hdecode, exec_nop, fun s hb hs => ⟨?_, fun hie => ?_⟩⟩
  · rw [hostWrite_cmd_idle hb, step_accept hs, complete_some (s := s.accept 0) hdecode, exec_nop]
    rfl
  · simp [State.irq, hie]

end Sys2Proof.Proofs

/-! SUPPORT. The byte/bit codec (41_codec): a byte and its eight symbols, what B2S and S2B store, and the two in turn. -/

namespace Sys2Proof.Proofs

open Sys2Proof Sys2Proof.Machine

/-! ### A byte and its symbols (30_encoding R111, R112) -/

theorem symbolOf_eq_add (b : Bool) : symbolOf b = 0x30 + (if b then 1 else 0) := by cases b <;> rfl

theorem symbolOf_valid (b : Bool) : symbolOf b = 0x30 ∨ symbolOf b = 0x31 := by cases b <;> simp [symbolOf]

theorem symbolsOfByte_getElem? (b : Byte) {j : Nat} (hj : j < 8) :
    (symbolsOfByte b)[j]? = some (symbolOf (b.getLsbD (7 - j))) := by
  simp [symbolsOfByte, hj]

/-- One symbol more doubles the value and adds the symbol's bit. -/
theorem byteOfSymbols_range_succ (f : Nat → Byte) (n : Nat) :
    byteOfSymbols ((List.range (n + 1)).map f) = 2 * byteOfSymbols ((List.range n).map f) + (f n - 0x30) := by
  simp [byteOfSymbols, List.range_succ]

/-- Up to eight valid symbols are a number of as many bits, the first symbol its most significant bit
(41_codec R156). -/
theorem byteOfSymbols_toNat {f : Nat → Byte} {n : Nat} (hn : n ≤ 8) (hf : ∀ j < n, f j = 0x30 ∨ f j = 0x31) :
    (byteOfSymbols ((List.range n).map f)).toNat = ∑ j ∈ Finset.range n, ((f j).toNat - 0x30) * 2 ^ (n - 1 - j) ∧
      (byteOfSymbols ((List.range n).map f)).toNat < 2 ^ n := by
  induction n with
  | zero => exact ⟨rfl, Nat.one_pos⟩
  | succ n ih =>
    obtain ⟨hsum, hlt⟩ := ih (by omega) fun j hj => hf j (by omega)
    have hpow : 2 ^ (n + 1) ≤ 2 ^ 8 := Nat.pow_le_pow_right (by decide) hn
    have hstep : (byteOfSymbols ((List.range (n + 1)).map f)).toNat =
        2 * (byteOfSymbols ((List.range n).map f)).toNat + ((f n).toNat - 0x30) := by
      rw [byteOfSymbols_range_succ]
      rcases hf n n.lt_succ_self with h | h <;> rw [h] <;> simp <;> omega
    have hbit : (f n).toNat - 0x30 ≤ 1 := by rcases hf n n.lt_succ_self with h | h <;> simp [h]
    refine ⟨?_, by omega⟩
    rw [hstep, hsum, Finset.sum_range_succ, Finset.mul_sum]
    congr 1
    · refine Finset.sum_congr rfl fun j hj => ?_
      have hexp : n + 1 - 1 - j = n - 1 - j + 1 := by have := Finset.mem_range.mp hj; omega
      rw [hexp, pow_succ]
      ring
    · simp

/-- A byte is its upper bits, doubled, and its lowest bit. -/
theorem double_half_add (b : Byte) : (2 : Byte) * (b >>> 1) + (symbolOf (b.getLsbD 0) - 0x30) = b := by
  have hbit : symbolOf (b.getLsbD 0) - 0x30 = BitVec.ofNat 8 (b.toNat % 2) := by
    rw [BitVec.getLsbD, Nat.testBit_zero]
    rcases Nat.mod_two_eq_zero_or_one b.toNat with h | h <;> rw [h] <;> rfl
  rw [hbit]
  bv_omega

/-- The first `n` symbols of a byte are its `n` highest bits. -/
theorem byteOfSymbols_highest (b : Byte) {n : Nat} (hn : n ≤ 8) :
    byteOfSymbols ((List.range n).map fun j => symbolOf (b.getLsbD (7 - j))) = b >>> (8 - n) := by
  induction n with
  | zero => exact (BitVec.ushiftRight_eq_zero le_rfl).symm
  | succ n ih =>
    obtain ⟨hlow, hhigh⟩ : 8 - (n + 1) = 7 - n ∧ 8 - n = 7 - n + 1 := by omega
    have hbit : b.getLsbD (7 - n) = (b >>> (7 - n)).getLsbD 0 := by rw [BitVec.getLsbD_ushiftRight, Nat.add_zero]
    rw [byteOfSymbols_range_succ, ih (by omega), hlow, hhigh, BitVec.shiftRight_add, hbit]
    exact double_half_add _

/-- The symbols of a byte give the byte back (41_codec R159 (a)). -/
theorem byteOfSymbols_symbolsOfByte (b : Byte) : byteOfSymbols (symbolsOfByte b) = b := by
  rw [symbolsOfByte, byteOfSymbols_highest b le_rfl]
  exact BitVec.ushiftRight_zero b

/-! ### What B2S stores (41_codec R151) -/

/-- The symbols a successful B2S leaves in SYMBUF, and their count. -/
theorem runB2s_symbols {s u : State} (hp : s.params.SizesOk) (hu : runB2s s = .ok u) :
    (∀ i j, i < s.byteLen.toNat → j < 8 → u.symAt (8 * i + j) = symbolOf ((s.byteAt i).getLsbD (7 - j))) ∧
      u.symLen.toNat = 8 * s.byteLen.toNat ∧ ∀ k, 8 * s.byteLen.toNat ≤ k → u.symAt k = s.symAt k := by
  obtain ⟨-, hfit, rfl⟩ := runB2s_ok.mp hu
  obtain ⟨-, ⟨-, hdepth⟩, -⟩ := hp
  have hlen : ((List.range s.byteLen.toNat).flatMap fun i => symbolsOfByte (s.byteAt i)).length =
      8 * s.byteLen.toNat := by
    rw [length_flatMap_const _ fun i => symbolsOfByte_length (s.byteAt i), List.length_range]
  refine ⟨fun i j hi hj => ?_, ?_, fun k hk => ?_⟩
  · rw [symAt_storeSymbols, Nat.mul_comm 8 i,
      getElem?_flatMap_const _ (fun i => symbolsOfByte_length (s.byteAt i)) _ _ _ hj, List.getElem?_range hi,
      Option.bind_some, symbolsOfByte_getElem? _ hj, Option.getD_some]
  · rw [storeSymbols_symLen, hlen, ofNat_toNat (by omega)]
  · rw [symAt_storeSymbols, List.getElem?_eq_none (hlen.trans_le hk), Option.getD_none]

/-- Settles O29: the run stores the symbols (`runB2s_symbols`), and completion writes STATUS alone. -/
theorem b2sResult : Obligations.B2sResult := by
  intro s hp hs
  obtain ⟨u, hu⟩ := runOf_of_succeeds hs
  obtain ⟨hsym, hlen, hrest⟩ := runB2s_symbols hp hu
  refine ⟨u.succeed, exec_of_ok hu, fun i j hi hj => ?_, hlen, hrest, ?_⟩
  · rw [← symbolOf_eq_add]
    exact hsym i j hi hj
  · obtain ⟨-, -, rfl⟩ := runB2s_ok.mp hu
    rfl

/-! ### What S2B stores (41_codec R156, R157) -/

/-- The bytes a successful S2B leaves in BYTEBUF, and their count. -/
theorem runS2b_bytes {s u : State} (hu : runS2b s = .ok u) :
    (∀ i, i < s.symLen.toNat / 8 → u.byteAt i = byteOfSymbols (s.chunk i)) ∧
      u.byteLen.toNat = s.symLen.toNat / 8 ∧ ∀ k, s.symLen.toNat / 8 ≤ k → u.byteAt k = s.byteAt k := by
  obtain ⟨-, -, -, rfl⟩ := runS2b_ok.mp hu
  refine ⟨fun i hi => ?_, ?_, fun k hk => ?_⟩
  · rw [byteAt_storeBytes, List.getElem?_map, List.getElem?_range hi, Option.map_some, Option.getD_some]
  · rw [storeBytes_byteLen, List.length_map, List.length_range, ofNat_toNat (by omega)]
  · rw [byteAt_storeBytes, List.getElem?_eq_none (by simpa using hk), Option.getD_none]

/-- Settles O30: every complete chunk is valid, so its byte is the sum (`byteOfSymbols_toNat`). -/
theorem s2bResult : Obligations.S2bResult := by
  intro s hs
  obtain ⟨u, hu⟩ := runOf_of_succeeds hs
  obtain ⟨hbyte, hlen, hrest⟩ := runS2b_bytes hu
  obtain ⟨-, hvalid, -, hstore⟩ := runS2b_ok.mp hu
  refine ⟨u.succeed, exec_of_ok hu, fun i hi => ?_, hlen, hrest, ?_⟩
  · rw [succeed_byteAt, hbyte i hi]
    exact (byteOfSymbols_toNat le_rfl fun j hj => hvalid (8 * i + j) (by omega)).1
  · rw [hstore]
    rfl

/-! ### B2S, then S2B (41_codec R159 (a)) -/

/-- S2B succeeds where SYMBUF holds the symbols of BYTEBUF, and leaves BYTEBUF and BYTE_LEN as they are. -/
theorem runS2b_of_symbols {s : State} (hbytes : s.byteLen.toNat ≤ s.params.byteDepth)
    (hsyms : s.symLen.toNat ≤ s.params.symDepth) (hlen : s.symLen.toNat = 8 * s.byteLen.toNat)
    (hsym : ∀ i j, i < s.byteLen.toNat → j < 8 → s.symAt (8 * i + j) = symbolOf ((s.byteAt i).getLsbD (7 - j))) :
    ∃ u, runS2b s = .ok u ∧ u.err = s.err ∧ u.byteLen = s.byteLen ∧ ∀ k, u.byteAt k = s.byteAt k := by
  have hcount : s.symLen.toNat / 8 = s.byteLen.toNat := by omega
  have hvalid : ∀ k, k < 8 * (s.symLen.toNat / 8) → s.symAt k = 0x30 ∨ s.symAt k = 0x31 := fun k hk => by
    rw [← Nat.div_add_mod k 8, hsym _ _ (by omega) (by omega)]
    exact symbolOf_valid _
  obtain ⟨u, hu⟩ : ∃ u, runS2b s = .ok u := ⟨_, runS2b_ok.mpr ⟨hsyms, hvalid, hcount.trans_le hbytes, rfl⟩⟩
  obtain ⟨-, -, -, hstore⟩ := runS2b_ok.mp hu
  obtain ⟨hbyte, hbl, hrest⟩ := runS2b_bytes hu
  rw [hcount] at hbyte hbl hrest
  have hchunk : ∀ i, i < s.byteLen.toNat → s.chunk i = symbolsOfByte (s.byteAt i) := fun i hi =>
    List.map_congr_left fun j hj => hsym i j hi (List.mem_range.mp hj)
  refine ⟨u, hu, hstore ▸ rfl, BitVec.eq_of_toNat_eq hbl, fun k => ?_⟩
  rcases Nat.lt_or_ge k s.byteLen.toNat with hk | hk
  · rw [hbyte k hk, hchunk k hk, byteOfSymbols_symbolsOfByte]
  · exact hrest k hk

/-- Settles O31: B2S leaves SYMBUF as `runS2b_of_symbols` asks, and leaves BYTEBUF and BYTE_LEN. -/
theorem codecRoundTrip : Obligations.CodecRoundTrip := by
  intro s hp hs
  obtain ⟨t, ht⟩ := runOf_of_succeeds hs
  obtain ⟨hsym, hlen, -⟩ := runB2s_symbols hp ht
  obtain ⟨hbytes, hfit, rfl⟩ := runB2s_ok.mp ht
  obtain ⟨u, hu, herr, hbl, hbyte⟩ := runS2b_of_symbols
    (s := (State.succeed (s.storeSymbols _)).accept (encode .s2b)) hbytes (hlen.trans_le hfit) hlen hsym
  exact ⟨_, u.succeed, exec_of_ok ht, exec_of_ok hu, herr, hbl, hbyte⟩

end Sys2Proof.Proofs

/-! SUPPORT. The modulator (42_modulator): what a successful MOD leaves, what NUM may change of a sample, and the ideal
profile's samples of the example. -/

namespace Sys2Proof.Proofs

open Sys2Proof Sys2Proof.Machine

/-! ### What MOD leaves (42_modulator R168, R171, R172) -/

/-- The lengths and the counter after a successful MOD fit their registers. -/
theorem runMod_counts {num : Config.Numerics} {d : Bank} {s u : State} (hp : s.params.SizesOk)
    (hu : runMod num d s = .ok u) :
    (u.waveLen d).toNat = s.sps * s.validSymbols.length ∧
      u.invsymCnt.toNat = s.symLen.toNat - s.validSymbols.length := by
  obtain ⟨-, -, -, hfit, rfl⟩ := runMod_ok.mp hu
  obtain ⟨⟨-, hdepth⟩, -⟩ := hp
  constructor
  · change ((s.storeWave d _).waveLen d).toNat = _
    rw [storeWave_waveLen_same, length_flatMap_const _ (symbolWave_length num s), ofNat_toNat (by omega)]
  · exact ofNat_toNat (by omega)

/-- Entries at and above the new length keep their values. -/
theorem runMod_above {num : Config.Numerics} {d : Bank} {s u : State} (hu : runMod num d s = .ok u) {k : Nat}
    (hk : s.sps * s.validSymbols.length ≤ k) : u.waveAt d k = s.waveAt d k := by
  obtain ⟨-, -, -, -, rfl⟩ := runMod_ok.mp hu
  have hlen : (s.validSymbols.flatMap (s.symbolWave num)).length ≤ k := by
    rwa [length_flatMap_const _ (symbolWave_length num s)]
  change (s.storeWave d _).waveAt d k = _
  rw [waveAt_storeWave_same, List.getElem?_eq_none hlen, Option.getD_none]

/-- The bank that is not the destination keeps its length and its samples. -/
theorem runMod_other {num : Config.Numerics} {d b : Bank} {s u : State} (hu : runMod num d s = .ok u) (hb : b ≠ d) :
    u.waveLen b = s.waveLen b ∧ ∀ k, u.waveAt b k = s.waveAt b k := by
  obtain ⟨-, -, -, -, rfl⟩ := runMod_ok.mp hu
  exact ⟨storeWave_waveLen_other hb _ s, waveAt_storeWave_other hb _ s⟩

/-- MOD writes no register but WAVE_LEN, INVSYM_CNT and FLAGS, and no buffer but the waveform banks. -/
theorem runMod_frame {num : Config.Numerics} {d : Bank} {s u : State} (hu : runMod num d s = .ok u) :
    u = { s with mem := { s.mem with wave0 := u.mem.wave0, wave1 := u.mem.wave1 },
                 waveLen0 := u.waveLen0, waveLen1 := u.waveLen1, invsymCnt := u.invsymCnt, flags := u.flags } := by
  obtain ⟨-, -, -, -, rfl⟩ := runMod_ok.mp hu
  cases d <;> rfl

/-- INVSYM is set when a symbol was skipped, and no flag is cleared. -/
theorem runMod_flags {num : Config.Numerics} {d : Bank} {s u : State} (hu : runMod num d s = .ok u) :
    u.flags = s.flags.noteInvsym (decide (0 < s.symLen.toNat - s.validSymbols.length)) := by
  obtain ⟨-, -, -, -, rfl⟩ := runMod_ok.mp hu
  rfl

/-- Settles O32: the sample is the clip of one rne of the exact product (`runMod_sample`, `rne_single`); the other
clauses are those of the run. -/
theorem modResult : Obligations.ModResult := by
  intro d s hp hs v
  obtain ⟨u, hu⟩ := runOf_of_succeeds hs
  obtain ⟨hlen, hcnt⟩ := runMod_counts hp hu
  have hflags := runMod_flags hu
  have hframe := runMod_frame hu
  exact ⟨u.succeed, exec_of_ok hu, fun _ _ _ hj hn => ⟨_, rne_single num _ _ _, runMod_sample hu hj hn⟩, hlen, hcnt,
    hflags, fun _ hk => (runMod_above hu hk :), fun _ hb => (runMod_other hu hb :), congrArg State.succeed hframe⟩

/-- Settles O33: a sample is a function of the tone (`runMod_sample`), and that of the registers, the symbol and n. -/
theorem phaseRestarts : Obligations.PhaseRestarts := by
  intro d d' s s' j j' n c hs hs' hsrate hnum hden hspace hmark hampl hj hj' hn
  obtain ⟨u, hu⟩ := runOf_of_succeeds hs
  obtain ⟨u', hu'⟩ := runOf_of_succeeds hs'
  have hsps : s.sps = s'.sps := by simp only [State.sps, hsrate, hnum, hden]
  have htone : s.carrierTone c n = s'.carrierTone c n := by
    simp only [State.carrierTone, State.carrier, hsrate, hspace, hmark, hampl]
  refine ⟨_, _, exec_of_ok hu, exec_of_ok hu', BitVec.eq_of_toInt_eq ?_⟩
  calc (u.waveAt d (j * s.sps + n)).toInt = clip (num.rne 0 [s.carrierTone c n]) := runMod_sample hu hj hn
    _ = clip (num.rne 0 [s'.carrierTone c n]) := by rw [htone]
    _ = (u'.waveAt d' (j' * s.sps + n)).toInt := by rw [hsps, runMod_sample hu' hj' (hsps ▸ hn)]

/-! ### Tolerance under any NUM (42_modulator R174) -/

/-- A real near `y` has the rne of `y` when `y` is farther from every half-integer: the two lie between the same two. -/
theorem isRne_eq_of_far {x y e : ℝ} {a m : ℤ} (ha : Config.IsRne x a) (hm : Config.IsRne y m) (hxy : |x - y| ≤ e)
    (hfar : ∀ k : ℤ, e < |y - (k + 1 / 2)|) : a = m := by
  obtain ⟨hlo, hhi⟩ := abs_le.mp (isRne_abs_le hm)
  obtain ⟨hxlo, hxhi⟩ := abs_le.mp hxy
  have habove : e < (m + 1 / 2) - y := by
    have h := hfar m
    rwa [abs_of_nonpos (by linarith), neg_sub] at h
  have hbelow : e < y - (m - 1 / 2) := by
    have h := hfar (m - 1)
    rw [abs_of_nonneg (by push_cast; linarith)] at h
    push_cast at h
    linarith
  exact isRne_unique ha (.inl (abs_lt.mpr ⟨by linarith, by linarith⟩))

/-- AMPL × NUM.sin is within AMPL × EPS_SIN of AMPL times the exact sine (00_scope R6 (a)). -/
theorem scaledSine_near (num : Config.Numerics) (a p : Nat) {q : Nat} (hq : 0 < q) :
    |(a : ℝ) * num.sin p q - a * Real.sin (2 * Real.pi * p / q)| ≤ a * (num.epsSin : ℝ) := by
  rw [← mul_sub, abs_mul, Nat.abs_cast]
  exact mul_le_mul_of_nonneg_left (num.sin_accurate p q hq) a.cast_nonneg

/-- AMPL × EPS_SIN is at most 65535 / 2^18 (00_scope R6 (d)). -/
theorem ampl_mul_epsSin_lt (num : Config.Numerics) (a : BitVec 16) : (a.toNat : ℝ) * (num.epsSin : ℝ) < 1 / 4 := by
  have ha : (a.toNat : ℝ) ≤ 65535 := by exact_mod_cast Nat.le_of_lt_succ a.isLt
  calc (a.toNat : ℝ) * (num.epsSin : ℝ) ≤ a.toNat * (1 / 2 ^ 18) :=
        mul_le_mul_of_nonneg_left (epsSin_le num) a.toNat.cast_nonneg
    _ < 1 / 4 := by linarith

/-- Settles O34: the two products are less than 1/4 apart (`scaledSine_near`), so their rnes are at most 1 apart and
agree away from the half-integers (`isRne_eq_of_far`). -/
theorem modTolerance : Obligations.ModTolerance := by
  intro d s j n c m hs hj hn f yStar hm
  obtain ⟨u, hu⟩ := runOf_of_succeeds hs
  obtain ⟨hcar, -⟩ := runMod_ok.mp hu
  have hq : 0 < s.srate.toNat := toNat_pos_of_ne ((carriersSet_iff s).mp hcar).1
  have hnear : |(s.ampl.toNat : ℝ) * num.sin (f * n) s.srate.toNat - yStar| ≤ s.ampl.toNat * (num.epsSin : ℝ) := by
    have h := scaledSine_near num s.ampl.toNat (f * n) hq
    rwa [Nat.cast_mul, ← mul_assoc (2 * Real.pi)] at h
  have hsmall := ampl_mul_epsSin_lt num s.ampl
  have hrne : Config.IsRne ((s.ampl.toNat : ℝ) * num.sin (f * n) s.srate.toNat) (num.rne 0 [s.carrierTone c n]) :=
    rne_single num _ _ _
  refine ⟨hnear, hsmall, u.succeed, exec_of_ok hu, ?_, fun hfar => ?_⟩ <;> rw [succeed_waveAt, runMod_sample hu hj hn]
  · exact clip_close (isRne_close hrne hm (by linarith))
  · rw [isRne_eq_of_far hrne hm hnear hfar]

/-! ### rne of scaled sines -/

/-- An integer is its own rne. -/
theorem isRne_intCast (m : ℤ) : Config.IsRne (m : ℝ) m := .inl (by norm_num)

/-- rne is odd: a tie goes to the even neighbour on either side of 0. -/
theorem isRne_neg {x : ℝ} {m : ℤ} (h : Config.IsRne x m) : Config.IsRne (-x) (-m) := by
  have hdist : |-x - ((-m : ℤ) : ℝ)| = |x - m| := by rw [Int.cast_neg, neg_sub_neg, abs_sub_comm]
  rw [Config.IsRne, hdist]
  exact h.imp_right (And.imp_right Even.neg)

section Reflections

variable {a θ φ : ℝ} {m : ℤ}

theorem isRne_sin_zero : Config.IsRne (a * Real.sin 0) 0 := by simpa using isRne_intCast 0

theorem isRne_sin_congr (h : Config.IsRne (a * Real.sin θ) m) (hφ : φ = θ) : Config.IsRne (a * Real.sin φ) m := hφ ▸ h

theorem isRne_sin_pi_sub (h : Config.IsRne (a * Real.sin θ) m) : Config.IsRne (a * Real.sin (Real.pi - θ)) m := by
  rwa [Real.sin_pi_sub]

theorem isRne_sin_add_pi (h : Config.IsRne (a * Real.sin θ) m) : Config.IsRne (a * Real.sin (θ + Real.pi)) (-m) := by
  rw [Real.sin_add_pi, mul_neg]
  exact isRne_neg h

theorem isRne_sin_add_two_pi (h : Config.IsRne (a * Real.sin θ) m) :
    Config.IsRne (a * Real.sin (θ + 2 * Real.pi)) m := by
  rwa [Real.sin_add_two_pi]

end Reflections

/-- The rne of a · sin θ can be read off cos 2θ, since (a · sin θ)² = a² (1 − cos 2θ) / 2: it is m when that square lies
between those of m − 1/2 and m + 1/2. -/
theorem isRne_mul_sin {a m : ℕ} {θ : ℝ} (hm : 0 < m) (hsin : 0 ≤ Real.sin θ)
    (hlo : (2 * (m : ℝ) - 1) ^ 2 < 2 * (a : ℝ) ^ 2 * (1 - Real.cos (2 * θ)))
    (hhi : 2 * (a : ℝ) ^ 2 * (1 - Real.cos (2 * θ)) < (2 * (m : ℝ) + 1) ^ 2) :
    Config.IsRne (a * Real.sin θ) (m : ℤ) := by
  have hm1 : (1 : ℝ) ≤ m := by exact_mod_cast hm
  have hsq : 2 * (a : ℝ) ^ 2 * (1 - Real.cos (2 * θ)) = (2 * (a * Real.sin θ)) ^ 2 := by
    rw [mul_pow, mul_pow, Real.sin_sq_eq_half_sub]
    ring
  rw [hsq] at hlo hhi
  have hlt := lt_of_pow_lt_pow_left₀ 2 (by positivity) hlo
  have hgt := lt_of_pow_lt_pow_left₀ 2 (by positivity) hhi
  exact .inl (by rw [Int.cast_natCast, abs_lt]; constructor <;> linarith)

/-- `ms` are the rounded samples of a tone of amplitude `a` and frequency `f` at `q` samples a second, with the exact
sine (42_modulator R168, before the clip). -/
abbrev RoundedTone (a f q : ℕ) (ms : List ℤ) : Prop :=
  List.Forall₂ (fun (n : ℕ) m => Config.IsRne (a * Real.sin (2 * Real.pi * (f * n : ℕ) / (q : ℕ))) m)
    (List.range ms.length) ms

/-- On an ideal core the samples of a symbol are its rounded tone, clipped. -/
theorem runMod_ideal_samples {ideal : Config.Numerics} (h : ideal.Ideal) {d : Bank} {s u : State}
    (hu : runMod ideal d s = .ok u) {j : Nat} {c : Byte} (hj : s.validSymbols[j]? = some c) {ms : List ℤ}
    (hlen : ms.length = s.sps) (hms : RoundedTone s.ampl.toNat (s.carrier c) s.srate.toNat ms) :
    (List.range s.sps).map (fun n => (u.waveAt d (j * s.sps + n)).toInt) = ms.map clip := by
  obtain ⟨hcar, -⟩ := runMod_ok.mp hu
  have hq : 0 < s.srate.toNat := toNat_pos_of_ne ((carriersSet_iff s).mp hcar).1
  obtain ⟨-, -, hsin, -⟩ := h
  have hrne : ∀ n m, Config.IsRne (s.ampl.toNat * Real.sin (2 * Real.pi * (s.carrier c * n : ℕ) / s.srate.toNat)) m →
      clip (ideal.rne 0 [s.carrierTone c n]) = clip m := fun n m hm => by
    rw [← hsin _ _ hq] at hm
    exact congrArg clip (isRne_unique (rne_single ideal _ _ _) hm)
  have hrange : (List.range s.sps).map (fun n => clip (ideal.rne 0 [s.carrierTone c n])) = ms.map clip := by
    rw [← hlen, ← List.forall₂_eq_eq_eq, List.forall₂_map_left_iff, List.forall₂_map_right_iff]
    exact hms.imp hrne
  rw [← hrange]
  exact List.map_congr_left fun n hn => runMod_sample hu hj (List.mem_range.mp hn)

/-! ### The two tones of the example (42_modulator R175) -/

/-- At π / 4 the double angle's cosine is 0. -/
theorem isRne_sin_pi_div_four {a m : ℕ} (hm : 0 < m) (hlo : (2 * (m : ℝ) - 1) ^ 2 < 2 * (a : ℝ) ^ 2)
    (hhi : 2 * (a : ℝ) ^ 2 < (2 * (m : ℝ) + 1) ^ 2) : Config.IsRne (a * Real.sin (Real.pi / 4)) (m : ℤ) := by
  have hcos : Real.cos (2 * (Real.pi / 4)) = 0 := by
    rw [← Real.cos_pi_div_two]
    congr 1
    ring
  refine isRne_mul_sin hm (by rw [Real.sin_pi_div_four]; positivity) ?_ ?_ <;> rwa [hcos, sub_zero, mul_one]

/-- The tone of symbol 0, eighth turns of the sine: its second half mirrors its first. -/
theorem roundedTone_space {a : ℕ} {r : ℤ} (hr : Config.IsRne (a * Real.sin (Real.pi / 4)) r) :
    RoundedTone a 1200 9600 [0, r, a, r, 0, -r, -a, -r] := by
  have hpeak : Config.IsRne (a * Real.sin (Real.pi / 2)) a := by
    rw [Real.sin_pi_div_two, mul_one]
    exact isRne_intCast a
  change List.Forall₂ _ [0, 1, 2, 3, 4, 5, 6, 7] _
  refine .cons (isRne_sin_congr isRne_sin_zero ?_) <| .cons (isRne_sin_congr hr ?_) <|
    .cons (isRne_sin_congr hpeak ?_) <| .cons (isRne_sin_congr (isRne_sin_pi_sub hr) ?_) <|
    .cons (isRne_sin_congr (isRne_sin_add_pi isRne_sin_zero) ?_) <|
    .cons (isRne_sin_congr (isRne_sin_add_pi hr) ?_) <| .cons (isRne_sin_congr (isRne_sin_add_pi hpeak) ?_) <|
    .cons (isRne_sin_congr (isRne_sin_add_pi (isRne_sin_pi_sub hr)) ?_) .nil
  all_goals push_cast; ring

/-- Bounds of a number that is not negative from bounds of its square. -/
theorem bounds_of_sq {x lo hi : ℝ} (hx : 0 ≤ x) (hhi : 0 ≤ hi) (h : lo ^ 2 < x ^ 2 ∧ x ^ 2 < hi ^ 2) :
    lo < x ∧ x < hi :=
  ⟨lt_of_pow_lt_pow_left₀ 2 hx h.1, lt_of_pow_lt_pow_left₀ 2 hhi h.2⟩

theorem half_sqrt_two_bounds : 0.707106 < √2 / 2 ∧ √2 / 2 < (0.707107 : ℝ) :=
  bounds_of_sq (by positivity) (by norm_num) (by rw [div_pow, Real.sq_sqrt (by norm_num)]; norm_num)

theorem half_sqrt_three_bounds : 0.866025 < √3 / 2 ∧ √3 / 2 < (0.866026 : ℝ) :=
  bounds_of_sq (by positivity) (by norm_num) (by rw [div_pow, Real.sq_sqrt (by norm_num)]; norm_num)

theorem cos_two_mul_pi_div_twelve : Real.cos (2 * (Real.pi / 12)) = √3 / 2 := by
  rw [← Real.cos_pi_div_six]
  congr 1
  ring

theorem cos_pi_div_twelve_bounds : 0.965925 < Real.cos (Real.pi / 12) ∧ Real.cos (Real.pi / 12) < 0.965927 := by
  obtain ⟨hlo, hhi⟩ := half_sqrt_three_bounds
  have hpos : 0 ≤ Real.cos (Real.pi / 12) :=
    Real.cos_nonneg_of_mem_Icc ⟨by linarith [Real.pi_pos], by linarith [Real.pi_pos]⟩
  refine bounds_of_sq hpos (by norm_num) ?_
  rw [Real.cos_sq, cos_two_mul_pi_div_twelve]
  constructor <;> linarith

theorem sin_pi_div_twelve_bounds : 0.258818 < Real.sin (Real.pi / 12) ∧ Real.sin (Real.pi / 12) < 0.258820 := by
  obtain ⟨hlo, hhi⟩ := half_sqrt_three_bounds
  have hpos : 0 ≤ Real.sin (Real.pi / 12) :=
    Real.sin_nonneg_of_nonneg_of_le_pi (by positivity) (by linarith [Real.pi_pos])
  refine bounds_of_sq hpos (by norm_num) ?_
  rw [Real.sin_sq_eq_half_sub, cos_two_mul_pi_div_twelve]
  constructor <;> linarith

/-- `isRne_mul_sin` at amplitude 32767 and the angle k · π / 24, whose double is k · π / 12. -/
theorem isRne_sin_twentyFourth (k m : ℕ) {c : ℝ} (hc : Real.cos (k * (Real.pi / 12)) = c)
    (hlo : (2 * (m : ℝ) - 1) ^ 2 < 2 * 32767 ^ 2 * (1 - c)) (hhi : 2 * 32767 ^ 2 * (1 - c) < (2 * (m : ℝ) + 1) ^ 2)
    (hk : k ≤ 24 := by decide) (hm : 0 < m := by decide) :
    Config.IsRne ((32767 : ℕ) * Real.sin (k * (Real.pi / 24))) (m : ℤ) := by
  have hle : (k : ℝ) ≤ 24 := by exact_mod_cast hk
  have hsin : 0 ≤ Real.sin (k * (Real.pi / 24)) :=
    Real.sin_nonneg_of_nonneg_of_le_pi (by positivity) (by nlinarith [Real.pi_pos])
  have hdouble : Real.cos (2 * (k * (Real.pi / 24))) = c := by
    rw [← hc]
    congr 1
    ring
  refine isRne_mul_sin hm hsin ?_ ?_ <;> rw [hdouble]
  · exact_mod_cast hlo
  · exact_mod_cast hhi

/-- The cosines of the double angles that `roundedTone_mark` meets. -/
theorem cos_twelfths :
    Real.cos ((2 : ℕ) * (Real.pi / 12)) = √3 / 2 ∧ Real.cos ((5 : ℕ) * (Real.pi / 12)) = Real.sin (Real.pi / 12) ∧
    Real.cos ((6 : ℕ) * (Real.pi / 12)) = 0 ∧ Real.cos ((7 : ℕ) * (Real.pi / 12)) = -Real.sin (Real.pi / 12) ∧
    Real.cos ((9 : ℕ) * (Real.pi / 12)) = -(√2 / 2) ∧
    Real.cos ((11 : ℕ) * (Real.pi / 12)) = -Real.cos (Real.pi / 12) := by
  refine ⟨cos_two_mul_pi_div_twelve, ?_, ?_, ?_, ?_, ?_⟩
  · rw [show ((5 : ℕ) : ℝ) * (Real.pi / 12) = Real.pi / 2 - Real.pi / 12 by push_cast; ring, Real.cos_pi_div_two_sub]
  · rw [show ((6 : ℕ) : ℝ) * (Real.pi / 12) = Real.pi / 2 by push_cast; ring, Real.cos_pi_div_two]
  · rw [show ((7 : ℕ) : ℝ) * (Real.pi / 12) = Real.pi / 12 + Real.pi / 2 by push_cast; ring, Real.cos_add_pi_div_two]
  · rw [show ((9 : ℕ) : ℝ) * (Real.pi / 12) = Real.pi - Real.pi / 4 by push_cast; ring, Real.cos_pi_sub,
      Real.cos_pi_div_four]
  · rw [show ((11 : ℕ) : ℝ) * (Real.pi / 12) = Real.pi - Real.pi / 12 by push_cast; ring, Real.cos_pi_sub]

/-- The rounded sines at amplitude 32767 that `roundedTone_mark` meets: bounds of the double angles' cosines decide each
but the tie 16383.5. -/
theorem isRne_twentyFourths :
    Config.IsRne ((32767 : ℕ) * Real.sin ((2 : ℕ) * (Real.pi / 24))) 8481 ∧
    Config.IsRne ((32767 : ℕ) * Real.sin ((4 : ℕ) * (Real.pi / 24))) 16384 ∧
    Config.IsRne ((32767 : ℕ) * Real.sin ((5 : ℕ) * (Real.pi / 24))) 19947 ∧
    Config.IsRne ((32767 : ℕ) * Real.sin ((6 : ℕ) * (Real.pi / 24))) 23170 ∧
    Config.IsRne ((32767 : ℕ) * Real.sin ((7 : ℕ) * (Real.pi / 24))) 25996 ∧
    Config.IsRne ((32767 : ℕ) * Real.sin ((9 : ℕ) * (Real.pi / 24))) 30273 ∧
    Config.IsRne ((32767 : ℕ) * Real.sin ((11 : ℕ) * (Real.pi / 24))) 32487 := by
  obtain ⟨two, five, six, seven, nine, eleven⟩ := cos_twelfths
  obtain ⟨hlo2, hhi2⟩ := half_sqrt_two_bounds
  obtain ⟨hlo3, hhi3⟩ := half_sqrt_three_bounds
  obtain ⟨hlos, hhis⟩ := sin_pi_div_twelve_bounds
  obtain ⟨hloc, hhic⟩ := cos_pi_div_twelve_bounds
  have tie : Config.IsRne ((32767 : ℕ) * Real.sin ((4 : ℕ) * (Real.pi / 24))) 16384 := by
    rw [show ((4 : ℕ) : ℝ) * (Real.pi / 24) = Real.pi / 6 by push_cast; ring, Real.sin_pi_div_six]
    exact .inr ⟨by norm_num [abs_of_neg], by decide⟩
  refine ⟨isRne_sin_twentyFourth 2 8481 two ?_ ?_, tie, isRne_sin_twentyFourth 5 19947 five ?_ ?_,
    isRne_sin_twentyFourth 6 23170 six ?_ ?_, isRne_sin_twentyFourth 7 25996 seven ?_ ?_,
    isRne_sin_twentyFourth 9 30273 nine ?_ ?_, isRne_sin_twentyFourth 11 32487 eleven ?_ ?_⟩ <;>
    norm_num <;> linarith

/-- The tone of symbol 1, steps of 11/48 turn: each angle is reflected to one of `isRne_twentyFourths`. -/
theorem roundedTone_mark :
    RoundedTone 32767 2200 9600 [0, 32487, 8481, -30273, -16384, 25996, 23170, -19947] := by
  obtain ⟨two, four, five, six, seven, nine, eleven⟩ := isRne_twentyFourths
  change List.Forall₂ _ [0, 1, 2, 3, 4, 5, 6, 7] _
  refine .cons (isRne_sin_congr isRne_sin_zero ?_) <| .cons (isRne_sin_congr eleven ?_) <|
    .cons (isRne_sin_congr (isRne_sin_pi_sub two) ?_) <| .cons (isRne_sin_congr (isRne_sin_add_pi nine) ?_) <|
    .cons (isRne_sin_congr (isRne_sin_add_pi (isRne_sin_pi_sub four)) ?_) <|
    .cons (isRne_sin_congr (isRne_sin_add_two_pi seven) ?_) <|
    .cons (isRne_sin_congr (isRne_sin_add_two_pi (isRne_sin_pi_sub six)) ?_) <|
    .cons (isRne_sin_congr (isRne_sin_add_two_pi (isRne_sin_add_pi five)) ?_) .nil
  all_goals push_cast; ring

/-! ### The example (42_modulator R175) -/

/-- The valid symbols of the example: the code 0x78 in the middle is skipped (42_modulator R167). -/
theorem validSymbols_of_example {s : State} (hlen : s.symLen = 3) (h0 : s.symAt 0 = 0x30) (h1 : s.symAt 1 = 0x78)
    (h2 : s.symAt 2 = 0x31) : s.validSymbols = [0x30, 0x31] := by
  rw [State.validSymbols, hlen]
  change [s.symAt 0, s.symAt 1, s.symAt 2].filter isSymbol = _
  rw [h0, h1, h2]
  rfl

/-- Two symbols of eight samples, read together. -/
theorem map_range_sixteen (f : Nat → ℤ) : (List.range 16).map f =
    (List.range 8).map (fun n => f (0 * 8 + n)) ++ (List.range 8).map (fun n => f (1 * 8 + n)) := rfl

/-- Settles O58: on an ideal core each symbol's samples are its rounded tone, clipped (`runMod_ideal_samples`), and the
two tones are `roundedTone_space` and `roundedTone_mark`. -/
theorem modIdealExample : Obligations.ModIdealExample := by
  intro ideal d s hi hp hdepth hsrate hnum hden hspace hmark hlen h0 h1 h2
  have hsps : s.sps = 8 := by rw [State.sps, hsrate, hnum, hden]; rfl
  have hvalid := validSymbols_of_example hlen h0 h1 h2
  have hsucc : Succeeds (.mod d) s := by
    obtain ⟨-, ⟨hsym, -⟩, -⟩ := hp
    have hrange : s.symLen.toNat ≤ s.params.symDepth := by rw [hlen]; exact Nat.le_trans (by decide) hsym
    exact ⟨by simp [hsrate, hden, hsps, hspace, hmark], hrange.not_gt, by simp, by simpa [hsps, hvalid] using hdepth⟩
  obtain ⟨u, hu⟩ := runUnder_of_succeeds ideal hsucc
  obtain ⟨hwl, hcnt⟩ := runMod_counts hp hu
  have hflags := runMod_flags hu
  rw [hvalid, hlen] at hcnt hflags
  rw [hvalid, hsps] at hwl
  have space {ms : List ℤ} := runMod_ideal_samples hi hu (j := 0) (c := 0x30) (ms := ms) (by rw [hvalid]; rfl)
  have mark {ms : List ℤ} := runMod_ideal_samples hi hu (j := 1) (c := 0x31) (ms := ms) (by rw [hvalid]; rfl)
  simp only [hsps, State.carrier, hsrate, hspace, hmark] at space mark
  refine ⟨u.succeed, execUnder_of_ok hu, BitVec.eq_of_toNat_eq hwl, BitVec.eq_of_toNat_eq hcnt,
    (congrArg Flags.invsym hflags).trans (Bool.or_true _), fun ha => ?_, fun ha => ?_⟩ <;> rw [ha] at space mark
  · have hr : Config.IsRne ((32767 : ℕ) * Real.sin (Real.pi / 4)) (23170 : ℕ) :=
      isRne_sin_pi_div_four (by decide) (by norm_num) (by norm_num)
    rw [map_range_sixteen]
    exact (congrArg₂ (· ++ ·) (space rfl (roundedTone_space hr)) (mark rfl roundedTone_mark)).trans (by decide)
  · have hr : Config.IsRne ((65535 : ℕ) * Real.sin (Real.pi / 4)) (46340 : ℕ) :=
      isRne_sin_pi_div_four (by decide) (by norm_num) (by norm_num)
    have samples := space rfl (roundedTone_space hr)
    simp only [Nat.zero_mul, Nat.zero_add] at samples
    exact samples.trans (by decide)

end Sys2Proof.Proofs

/-! SUPPORT. ANLZ (43_analyzer): what it leaves, the magnitudes of special windows, and the example's spectrum in the ideal
profile. -/

namespace Sys2Proof.Proofs

open Sys2Proof Sys2Proof.Machine

/-! ### The store of a spectrum -/

/-- Below the transform size MAG holds the magnitudes stored. -/
theorem magAt_storeSpectrum_below (num : Config.Numerics) (len : Nat) (seg : List Sample) (s : State) {k : Nat}
    (hk : k < pow2gt seg.length) : (s.storeSpectrum len (numMag num seg)).magAt k = num.mag seg k := by
  rw [magAt_storeSpectrum, numMag_getElem?, if_pos hk, Option.getD_some]

/-- From the transform size on MAG is as it was. -/
theorem magAt_storeSpectrum_above (num : Config.Numerics) (len : Nat) (seg : List Sample) (s : State) {k : Nat}
    (hk : pow2gt seg.length ≤ k) : (s.storeSpectrum len (numMag num seg)).magAt k = s.magAt k := by
  rw [magAt_storeSpectrum, numMag_getElem?, if_neg hk.not_gt, Option.getD_none]

/-- The exponent of the transform of a window the core analyses fits LOG2N (10_state R46). -/
theorem toNat_log2n {p : Config.Params} (hp : p.SizesOk) {len : Nat} (hl : len ≤ p.winMax) :
    (BitVec.ofNat 5 (log2gt len)).toNat = log2gt len := by
  obtain ⟨-, -, -, ⟨-, hmax⟩, -⟩ := hp
  have hfit := (window_fits hl).1
  exact ofNat_toNat (by omega)

/-! ### What ANLZ leaves (43_analyzer R190) -/

section RunAnlz

variable {num : Config.Numerics} {b : Bank} {s u : State} (hu : runAnlz num b s = .ok u)
include hu

/-- A window that is analysed has a sample, and at most WIN_MAX of them (43_analyzer R186). -/
theorem runAnlz_winLen : 1 ≤ s.winLen.toNat ∧ s.winLen.toNat ≤ s.params.winMax := by
  obtain ⟨hok, -⟩ := runAnlz_ok.mp hu
  obtain ⟨-, hne, hmax, -⟩ := (windowOk_iff s b).mp hok
  exact ⟨toNat_pos_of_ne hne, hmax⟩

theorem runAnlz_mag {k : Nat} (hk : k < pow2gt s.winLen.toNat) : u.magAt k = num.mag (s.window b) k := by
  obtain ⟨-, rfl⟩ := runAnlz_ok.mp hu
  exact magAt_storeSpectrum_below num _ _ s (by rwa [window_length])

theorem runAnlz_mag_above {k : Nat} (hk : pow2gt s.winLen.toNat ≤ k) : u.magAt k = s.magAt k := by
  obtain ⟨-, rfl⟩ := runAnlz_ok.mp hu
  exact magAt_storeSpectrum_above num _ _ s (by rwa [window_length])

theorem runAnlz_log2n : u.log2n = BitVec.ofNat 5 (log2gt s.winLen.toNat) := by
  obtain ⟨-, rfl⟩ := runAnlz_ok.mp hu
  rfl

theorem runAnlz_log2n_toNat (hp : s.params.SizesOk) : u.log2n.toNat = log2gt s.winLen.toNat := by
  rw [runAnlz_log2n hu, toNat_log2n hp (runAnlz_winLen hu).2]

/-- ANLZ writes MAG and LOG2N alone. -/
theorem runAnlz_frame : u = { s with mem := { s.mem with mag := u.mem.mag }, log2n := u.log2n } := by
  obtain ⟨-, rfl⟩ := runAnlz_ok.mp hu
  rfl

end RunAnlz

theorem runAnlz_of_succeeds (num : Config.Numerics) {b : Bank} {s : State} (h : Succeeds (.anlz b) s) :
    ∃ u, runAnlz num b s = .ok u := runUnder_of_succeeds num h

/-- Settles O36: the clauses are those of the run. -/
theorem anlzResult : Obligations.AnlzResult := by
  intro b s hp hs
  obtain ⟨u, hu⟩ := runAnlz_of_succeeds num hs
  have hlog := runAnlz_log2n_toNat hu hp
  have hframe := runAnlz_frame hu
  exact ⟨u.succeed, exec_of_ok hu, fun _ hk => (runAnlz_mag hu hk :), by rw [succeed_log2n, hlog, pow2gt],
    fun _ hk => (runAnlz_mag_above hu hk :), congrArg State.succeed hframe⟩

/-- Settles O37: LOG2N is the exponent of pow2gt, which is above the length and at most twice it, and no smaller exponent
will do (`log2gt_le`). -/
theorem transformSize : Obligations.TransformSize := by
  intro b s hp hs
  obtain ⟨u, hu⟩ := runAnlz_of_succeeds num hs
  obtain ⟨hpos, -⟩ := runAnlz_winLen hu
  refine ⟨u.succeed, exec_of_ok hu, ?_⟩
  rw [succeed_log2n, runAnlz_log2n_toNat hu hp]
  exact ⟨lt_pow2gt _, pow2gt_le hpos, fun _ => log2gt_le⟩

/-- Settles O38: the two windows are the same list, of which MAG and LOG2N are functions (`runAnlz_mag`,
`runAnlz_log2n`). -/
theorem analyzerPure : Obligations.AnalyzerPure := by
  intro b b' s s' hs hs' hlen hsamples
  obtain ⟨u, hu⟩ := runAnlz_of_succeeds num hs
  obtain ⟨u', hu'⟩ := runAnlz_of_succeeds num hs'
  have hwindow : s.window b = s'.window b' := by
    rw [State.window, State.window, State.segment, State.segment, ← hlen]
    exact List.map_congr_left fun n hn => hsamples n (List.mem_range.mp hn)
  refine ⟨u.succeed, u'.succeed, exec_of_ok hu, exec_of_ok hu', ?_, fun k hk => ?_⟩
  · rw [succeed_log2n, succeed_log2n, runAnlz_log2n hu, runAnlz_log2n hu', hlen]
  · rw [succeed_magAt, succeed_magAt, runAnlz_mag hu hk, runAnlz_mag hu' (hlen ▸ hk), hwindow]

/-! ### Magnitudes of special windows (43_analyzer R194) -/

section Magnitude

variable {seg : List Sample} {n k : ℕ} {x : ℝ}

/-- A magnitude is at most the length times a bound of the samples: the triangle inequality. -/
theorem magnitude_le_of_abs_le (h : Config.IsMagnitude seg n k x) {c : ℝ}
    (hc : ∀ i < seg.length, |((seg.getD i 0).toInt : ℝ)| ≤ c) : x ≤ seg.length * c := by
  rw [norm_spectrumPoint h rfl]
  refine (norm_sum_le_of_le _ (n := fun _ => c) fun i hi => ?_).trans_eq (by simp)
  rw [norm_mul, Complex.norm_exp_ofReal_mul_I, mul_one, Complex.norm_intCast]
  exact hc i (Finset.mem_range.mp hi)

/-- Bin 0 is the sum of the samples, here all equal. -/
theorem magnitude_zero_of_const (h : Config.IsMagnitude seg n 0 x) {c : ℤ}
    (hc : ∀ i < seg.length, (seg.getD i 0).toInt = c) : x = seg.length * |(c : ℝ)| := by
  have hsum : ∑ i ∈ Finset.range seg.length, ((seg.getD i 0).toInt : ℝ) = seg.length * c := by
    rw [Finset.sum_congr rfl fun i hi => by rw [hc i (Finset.mem_range.mp hi)], Finset.sum_const, Finset.card_range,
      nsmul_eq_mul]
  have habs : x = |∑ i ∈ Finset.range seg.length, ((seg.getD i 0).toInt : ℝ)| := by
    simpa [Config.IsMagnitude, Real.sqrt_sq_eq_abs] using h
  rw [habs, hsum, abs_mul, Nat.abs_cast]

/-- A single sample has the same modulus in every bin. -/
theorem magnitude_single (h : Config.IsMagnitude seg n k x) (hl : seg.length = 1) :
    x = |((seg.getD 0 0).toInt : ℝ)| := by
  simpa [Config.IsMagnitude, hl, Real.sqrt_sq_eq_abs] using h

/-- Bins k and n − k are complex conjugates, since the samples are real. -/
theorem magnitude_mirror (h : Config.IsMagnitude seg n k x) (hn : 0 < n) (hk : k ≤ n) :
    Config.IsMagnitude seg n (n - k) x := by
  have hangle : ∀ i : ℕ, 2 * Real.pi * ((n - k : ℕ) : ℝ) * i / n = i * (2 * Real.pi) - 2 * Real.pi * k * i / n := by
    intro i
    have : (n : ℝ) ≠ 0 := by exact_mod_cast hn.ne'
    rw [Nat.cast_sub hk]
    field_simp
  simpa only [Config.IsMagnitude, hangle, Real.cos_nat_mul_two_pi_sub, Real.sin_nat_mul_two_pi_sub, mul_neg,
    Finset.sum_neg_distrib, neg_sq] using h

end Magnitude

/-! ### MAG against the exact magnitudes (00_scope R6 (b)) -/

section MagNear

variable (num : Config.Numerics) {seg : List Sample} {k : ℕ} (h1 : 1 ≤ seg.length)
  (hl : seg.length ≤ Config.winMaxLargest)
include h1 hl

/-- A magnitude is below 2^31, and so below 2^63 in units of 2^−32 (43_analyzer R194 (g)). -/
theorem mag_lt (hk : k < pow2gt seg.length) : (num.mag seg k).toNat < 2 ^ 63 := by
  obtain ⟨x, hx⟩ : ∃ x, Config.IsMagnitude seg (pow2gt seg.length) k x := ⟨_, rfl⟩
  obtain ⟨-, hle⟩ := abs_le.mp (mag_near num h1 hl hk hx)
  have heps : (num.epsMag : ℝ) ≤ 1 := by
    exact_mod_cast num.epsMag_bounds.2.trans (by norm_num)
  have hlen : (seg.length : ℝ) ≤ 65535 := by exact_mod_cast hl
  have hx31 : x ≤ 32768 * 65535 := (magnitude_le hx).2.trans (by linarith)
  have : ((num.mag seg k).toNat : ℝ) < 2 ^ 63 := by
    rw [show (2 : ℝ) ^ 63 = 2 ^ 31 * 2 ^ 32 by norm_num, ← div_lt_iff₀ (by norm_num)]
    linarith
  exact_mod_cast this

/-- No bin of a constant window exceeds L × |c| by more than EPS_MAG. -/
theorem mag_le_of_const (hk : k < pow2gt seg.length) {c : ℤ} (hc : ∀ i < seg.length, (seg.getD i 0).toInt = c) :
    ((num.mag seg k).toNat : ℝ) / 2 ^ 32 ≤ seg.length * |(c : ℝ)| + (num.epsMag : ℝ) := by
  obtain ⟨x, hx⟩ : ∃ x, Config.IsMagnitude seg (pow2gt seg.length) k x := ⟨_, rfl⟩
  obtain ⟨-, hle⟩ := abs_le.mp (mag_near num h1 hl hk hx)
  have hmodulus := magnitude_le_of_abs_le hx fun i hi => by rw [hc i hi]
  linarith

/-- Bin 0 of a constant window is L × |c|, within EPS_MAG. -/
theorem mag_zero_near_of_const {c : ℤ} (hc : ∀ i < seg.length, (seg.getD i 0).toInt = c) :
    |((num.mag seg 0).toNat : ℝ) / 2 ^ 32 - seg.length * (|(c : ℝ)|)| ≤ (num.epsMag : ℝ) := by
  obtain ⟨x, hx⟩ : ∃ x, Config.IsMagnitude seg (pow2gt seg.length) 0 x := ⟨_, rfl⟩
  rw [← magnitude_zero_of_const hx hc]
  exact mag_near num h1 hl (pow2gt_pos _) hx

end MagNear

/-- Every bin of a single sample is its absolute value, within EPS_MAG. -/
theorem mag_near_of_single (num : Config.Numerics) {seg : List Sample} {k : ℕ} (hone : seg.length = 1)
    (hk : k < pow2gt seg.length) :
    |((num.mag seg k).toNat : ℝ) / 2 ^ 32 - (|((seg.getD 0 0).toInt : ℝ)|)| ≤ (num.epsMag : ℝ) := by
  obtain ⟨x, hx⟩ : ∃ x, Config.IsMagnitude seg (pow2gt seg.length) k x := ⟨_, rfl⟩
  rw [← magnitude_single hx hone]
  exact mag_near num hone.ge (by rw [hone]; decide) hk hx

theorem window_getD (s : State) (b : Bank) {i : Nat} (hi : i < s.winLen.toNat) :
    (s.window b).getD i 0 = s.waveAt b (s.winOff.toNat + i) := by
  simp [State.window, State.segment, hi]

/-- Settles O56: R6 (b) at the window (`mag_near`), its bound (`mag_lt`) and its special windows, of which the all-zero
one is a constant one. -/
theorem anlzAccuracy : Obligations.AnlzAccuracy := by
  intro b s hp hs len seg n
  obtain ⟨u, hu⟩ := runAnlz_of_succeeds num hs
  obtain ⟨h1, hmax⟩ : 1 ≤ len ∧ len ≤ s.params.winMax := runAnlz_winLen hu
  have hl := hmax.trans (winMax_le_largest hp)
  have hmag {k : ℕ} (hk : k < n) : u.succeed.magAt k = num.mag seg k := runAnlz_mag hu hk
  have hsample {i : ℕ} (hi : i < len) : seg.getD i 0 = s.waveAt b (s.winOff.toNat + i) := window_getD s b hi
  have hconst {c : ℤ} (hc : ∀ i, i < len → (s.waveAt b (s.winOff.toNat + i)).toInt = c) :
      ∀ i < len, (seg.getD i 0).toInt = c := fun i hi => by rw [hsample hi, hc i hi]
  have hlen : seg.length = len := window_length s b
  clear_value seg len
  subst hlen
  refine ⟨u.succeed, exec_of_ok hu, fun k hk => ?_, fun k hk => ?_, fun hzero k hk => ?_,
    fun hone => ⟨?_, fun k hk => ?_⟩, fun c hc => ⟨?_, fun k hk => ?_⟩⟩
  · rw [hmag hk]
    exact mag_near num h1 hl hk rfl
  · rw [hmag hk]
    exact mag_lt num h1 hl hk
  · have hle := mag_le_of_const num h1 hl hk (hconst hzero)
    rwa [Int.cast_zero, abs_zero, mul_zero, zero_add, div_le_iff₀ (by norm_num), ← hmag hk] at hle
  · exact congrArg pow2gt hone
  · have hk : k < n := hk.trans_eq (congrArg pow2gt hone).symm
    rw [hmag hk, ← Nat.add_zero s.winOff.toNat, ← hsample h1]
    exact mag_near_of_single num hone hk
  · rw [hmag (pow2gt_pos _)]
    exact mag_zero_near_of_const num h1 hl (hconst hc)
  · rw [hmag hk]
    exact mag_le_of_const num h1 hl hk (hconst hc)

/-! ### The magnitudes on an ideal core -/

/-- An ideal core's magnitude is the rne of the exact one. -/
theorem ideal_mag_eq {ideal : Config.Numerics} (h : ideal.Ideal) {seg : List Sample} {k : ℕ} {x : ℝ} {m : Mag}
    (h1 : 1 ≤ seg.length) (hl : seg.length ≤ Config.winMaxLargest) (hk : k < pow2gt seg.length)
    (hx : Config.IsMagnitude seg (pow2gt seg.length) k x) (hm : Config.IsRne (x * 2 ^ 32) m.toNat) :
    ideal.mag seg k = m :=
  BitVec.eq_of_toNat_eq (by exact_mod_cast isRne_unique (ideal_mag_isRne h h1 hl hk hx) hm)

/-- On an ideal core bins k and N − k are equal. -/
theorem ideal_mag_mirror {ideal : Config.Numerics} (h : ideal.Ideal) {seg : List Sample} {k : ℕ}
    (h1 : 1 ≤ seg.length) (hl : seg.length ≤ Config.winMaxLargest) (h0 : 0 < k) (hk : k < pow2gt seg.length) :
    ideal.mag seg k = ideal.mag seg (pow2gt seg.length - k) := by
  obtain ⟨x, hx⟩ : ∃ x, Config.IsMagnitude seg (pow2gt seg.length) (pow2gt seg.length - k) x := ⟨_, rfl⟩
  have hmirror := magnitude_mirror hx (pow2gt_pos _) (Nat.sub_le _ _)
  rw [Nat.sub_sub_self hk.le] at hmirror
  exact ideal_mag_eq h h1 hl hk hmirror (ideal_mag_isRne h h1 hl (by omega) hx)

/-! ### The example (43_analyzer R195, vector AV1) -/

/-- The window of the example, a space symbol of MOD. -/
def exampleWindow : List Sample := [0, 23170, 32767, 23170, 0, -23170, -32767, -23170]

/-- MAG[0 .. 8] of the example, as AV1 gives it. -/
def exampleSpectrum : List Mag :=
  [0, 0x0001A185A9E113AE, 0x0001FFFCA80F18F4, 0x000116FA9025F2EA, 0, 0x0000530C822E3403, 0x00000000A80F18F4,
    0x0000377E978CECC1, 0]

theorem eq_exampleWindow {seg : List Sample}
    (h : seg.map BitVec.toInt = [0, 23170, 32767, 23170, 0, -23170, -32767, -23170]) : seg = exampleWindow :=
  List.map_injective_iff.mpr (fun _ _ => BitVec.toInt_inj.mp) (h.trans (by decide))

/-- The sines that the pairs of samples about the window's middle give. -/
noncomputable def exampleSines (θ : ℝ) : ℝ :=
  23170 * (Real.sin θ + Real.sin (3 * θ)) + 32767 * Real.sin (2 * θ)

/-- The window is odd about sample 4, so a function adds up to its differences about 4. -/
theorem sum_exampleWindow {f : ℝ → ℝ} {θ w : ℝ}
    (pair : ∀ j, f ((4 - j) * θ) - f ((4 + j) * θ) = w * Real.sin (j * θ)) :
    ∑ i ∈ Finset.range exampleWindow.length, ((exampleWindow.getD i 0).toInt : ℝ) * f (i * θ) = w * exampleSines θ := by
  have outer := pair 3
  have middle := pair 2
  have inner := pair 1
  norm_num at outer middle inner
  simp [exampleWindow, Finset.sum_range_succ, exampleSines]
  linear_combination 23170 * outer + 32767 * middle + 23170 * inner

theorem sum_cos_exampleWindow (θ : ℝ) :
    ∑ i ∈ Finset.range exampleWindow.length, ((exampleWindow.getD i 0).toInt : ℝ) * Real.cos (i * θ) =
      2 * Real.sin (4 * θ) * exampleSines θ := by
  refine sum_exampleWindow fun j => ?_
  rw [sub_mul, add_mul, Real.cos_sub, Real.cos_add]
  ring

theorem sum_sin_exampleWindow (θ : ℝ) :
    ∑ i ∈ Finset.range exampleWindow.length, ((exampleWindow.getD i 0).toInt : ℝ) * Real.sin (i * θ) =
      -2 * Real.cos (4 * θ) * exampleSines θ := by
  refine sum_exampleWindow fun j => ?_
  rw [sub_mul, add_mul, Real.sin_sub, Real.sin_add]
  ring

/-- With s = sin θ and C = cos θ the sines add up to 2 s C (46340 C + 32767). -/
theorem exampleSines_eq (θ : ℝ) :
    exampleSines θ = 2 * Real.sin θ * Real.cos θ * (46340 * Real.cos θ + 32767) := by
  rw [exampleSines, Real.sin_three_mul, Real.sin_two_mul]
  linear_combination (-4 * 23170 * Real.sin θ) * Real.sin_sq θ

/-- The square of a bin of the example is a polynomial in the cosine of the bin's angle. -/
theorem sq_magnitude_exampleWindow {k : ℕ} {x : ℝ} (h : Config.IsMagnitude exampleWindow 16 k x) {C : ℝ}
    (hC : Real.cos (k * (Real.pi / 8)) = C) : x ^ 2 = 4 * (4 * C ^ 2 * (1 - C ^ 2)) * (46340 * C + 32767) ^ 2 := by
  have hangle (i : ℕ) : 2 * Real.pi * k * i / (16 : ℕ) = i * (k * (Real.pi / 8)) := by
    push_cast
    ring
  simp only [Config.IsMagnitude, hangle, sum_cos_exampleWindow, sum_sin_exampleWindow, exampleSines_eq, hC] at h
  generalize (k : ℝ) * (Real.pi / 8) = θ at h hC
  have turned := Real.sin_sq_add_cos_sq (4 * θ)
  have sine := Real.sin_sq θ
  rw [hC] at sine
  rw [h, Real.sq_sqrt (by positivity)]
  linear_combination (16 * Real.sin θ ^ 2 * C ^ 2 * (46340 * C + 32767) ^ 2) * turned +
    (16 * C ^ 2 * (46340 * C + 32767) ^ 2) * sine

/-- The rne of a magnitude can be read off its square, in units of 2^−33. -/
theorem isRne_of_sq {x : ℝ} {m : ℕ} (hx : 0 ≤ x) (hm : 0 < m) (hlo : (2 * (m : ℝ) - 1) ^ 2 < 2 ^ 66 * x ^ 2)
    (hhi : 2 ^ 66 * x ^ 2 < (2 * (m : ℝ) + 1) ^ 2) : Config.IsRne (x * 2 ^ 32) m := by
  have hm1 : (1 : ℝ) ≤ m := by exact_mod_cast hm
  have hsq : 2 ^ 66 * x ^ 2 = (2 ^ 33 * x) ^ 2 := by ring
  obtain ⟨hl, hh⟩ := bounds_of_sq (by positivity) (by positivity) ⟨hsq ▸ hlo, hsq ▸ hhi⟩
  exact .inl (by rw [Int.cast_natCast, abs_lt]; constructor <;> linarith)

/-- A bin of the example from the cosine C of its angle: p is C² and w is the square of the sine of twice the angle. -/
theorem isRne_exampleBin {k : ℕ} (m : ℕ) {x C : ℝ} (p w : ℝ) (h : Config.IsMagnitude exampleWindow 16 k x)
    (hC : Real.cos (k * (Real.pi / 8)) = C) (hp : C ^ 2 = p) (hw : 4 * p * (1 - p) = w)
    (hlo : (2 * (m : ℝ) - 1) ^ 2 < 2 ^ 68 * w * (46340 ^ 2 * p + 2 * 46340 * 32767 * C + 32767 ^ 2))
    (hhi : 2 ^ 68 * w * (46340 ^ 2 * p + 2 * 46340 * 32767 * C + 32767 ^ 2) < (2 * (m : ℝ) + 1) ^ 2)
    (hm : 0 < m := by decide) : Config.IsRne (x * 2 ^ 32) m := by
  have hsq : 2 ^ 66 * x ^ 2 = 2 ^ 68 * w * (46340 ^ 2 * p + 2 * 46340 * 32767 * C + 32767 ^ 2) := by
    rw [sq_magnitude_exampleWindow h hC, ← hw, ← hp]
    ring
  exact isRne_of_sq (magnitude_le h).1 hm (by rwa [hsq]) (by rwa [hsq])

/-- A bin at a quarter turn is empty. -/
theorem isRne_exampleBin_zero {k : ℕ} {x C : ℝ} (h : Config.IsMagnitude exampleWindow 16 k x)
    (hC : Real.cos (k * (Real.pi / 8)) = C) (hw : 4 * C ^ 2 * (1 - C ^ 2) = 0) : Config.IsRne (x * 2 ^ 32) 0 := by
  have hsq := sq_magnitude_exampleWindow h hC
  rw [hw, mul_zero, zero_mul, sq_eq_zero_iff] at hsq
  rw [hsq, zero_mul]
  exact_mod_cast isRne_intCast 0

/-- The cosines of the eighths of a half turn. -/
theorem cos_eighths :
    Real.cos ((1 : ℕ) * (Real.pi / 8)) = √(2 + √2) / 2 ∧ Real.cos ((2 : ℕ) * (Real.pi / 8)) = √2 / 2 ∧
    Real.cos ((3 : ℕ) * (Real.pi / 8)) = √(2 - √2) / 2 ∧ Real.cos ((4 : ℕ) * (Real.pi / 8)) = 0 ∧
    Real.cos ((5 : ℕ) * (Real.pi / 8)) = -(√(2 - √2) / 2) ∧ Real.cos ((6 : ℕ) * (Real.pi / 8)) = -(√2 / 2) ∧
    Real.cos ((7 : ℕ) * (Real.pi / 8)) = -(√(2 + √2) / 2) := by
  rw [← Real.cos_pi_div_eight, ← Real.sin_pi_div_eight, ← Real.cos_pi_div_four, ← Real.cos_pi_div_two_sub,
    ← Real.cos_pi_div_two, ← Real.cos_pi_sub, ← Real.cos_pi_sub, ← Real.cos_pi_sub]
  refine ⟨?_, ?_, ?_, ?_, ?_, ?_, ?_⟩ <;> congr 1 <;> push_cast <;> ring

theorem sqrt_two_bounds : 1.41421356237309504880168872420 < √2 ∧ √2 < (1.41421356237309504880168872421 : ℝ) :=
  bounds_of_sq (by positivity) (by norm_num) (by rw [Real.sq_sqrt (by norm_num)]; norm_num)

/-- The squares of the cosines at odd eighths. -/
theorem sq_cos_odd_eighths : (√(2 + √2) / 2) ^ 2 = (2 + √2) / 4 ∧ (√(2 - √2) / 2) ^ 2 = (2 - √2) / 4 := by
  obtain ⟨-, hhi⟩ := sqrt_two_bounds
  constructor <;> rw [div_pow, Real.sq_sqrt (by linarith [Real.sqrt_nonneg 2])] <;> norm_num

theorem cos_odd_eighths_bounds :
    (0.92387953251128675612818318 < √(2 + √2) / 2 ∧ √(2 + √2) / 2 < (0.92387953251128675612818319 : ℝ)) ∧
    0.38268343236508977172845998 < √(2 - √2) / 2 ∧ √(2 - √2) / 2 < (0.38268343236508977172845999 : ℝ) := by
  obtain ⟨hlo, hhi⟩ := sqrt_two_bounds
  obtain ⟨hadd, hsub⟩ := sq_cos_odd_eighths
  refine ⟨bounds_of_sq (by positivity) (by norm_num) ?_, bounds_of_sq (by positivity) (by norm_num) ?_⟩
  · rw [hadd]
    constructor <;> norm_num <;> linarith
  · rw [hsub]
    constructor <;> norm_num <;> linarith

/-- Each bin of the example is rounded to AV1's value: bounds of the cosine of its angle decide it. -/
theorem isRne_exampleSpectrum {k : ℕ} (hk : k < 9) {x : ℝ} (h : Config.IsMagnitude exampleWindow 16 k x) :
    Config.IsRne (x * 2 ^ 32) (exampleSpectrum.getD k 0).toNat := by
  obtain ⟨one, two, three, four, five, six, seven⟩ := cos_eighths
  obtain ⟨hadd, hsub⟩ := sq_cos_odd_eighths
  obtain ⟨hlo2, hhi2⟩ := sqrt_two_bounds
  obtain ⟨⟨hlo1, hhi1⟩, hlo3, hhi3⟩ := cos_odd_eighths_bounds
  have h2 : √2 ^ 2 = (2 : ℝ) := Real.sq_sqrt (by norm_num)
  have htwo : (√2 / 2) ^ 2 = (1 / 2 : ℝ) := by rw [div_pow, h2]; norm_num
  have wtwo : 4 * (1 / 2) * (1 - 1 / 2) = (1 : ℝ) := by norm_num
  have wadd : 4 * ((2 + √2) / 4) * (1 - (2 + √2) / 4) = (1 / 2 : ℝ) := by linear_combination (-1 / 4) * h2
  have wsub : 4 * ((2 - √2) / 4) * (1 - (2 - √2) / 4) = (1 / 2 : ℝ) := by linear_combination (-1 / 4) * h2
  interval_cases k
  · exact isRne_exampleBin_zero h (C := 1) (by simp) (by norm_num)
  · refine isRne_exampleBin 0x0001A185A9E113AE _ _ h one hadd wadd ?_ ?_ <;> norm_num <;> linarith
  · refine isRne_exampleBin 0x0001FFFCA80F18F4 _ _ h two htwo wtwo ?_ ?_ <;> norm_num <;> linarith
  · refine isRne_exampleBin 0x000116FA9025F2EA _ _ h three hsub wsub ?_ ?_ <;> norm_num <;> linarith
  · exact isRne_exampleBin_zero h four (by norm_num)
  · refine isRne_exampleBin 0x0000530C822E3403 _ _ h five ((neg_sq _).trans hsub) wsub ?_ ?_ <;> norm_num <;> linarith
  · refine isRne_exampleBin 0x00000000A80F18F4 _ _ h six ((neg_sq _).trans htwo) wtwo ?_ ?_ <;> norm_num <;> linarith
  · refine isRne_exampleBin 0x0000377E978CECC1 _ _ h seven ((neg_sq _).trans hadd) wadd ?_ ?_ <;> norm_num <;> linarith
  · exact isRne_exampleBin_zero h (C := -1) (by rw [← Real.cos_pi]; congr 1; push_cast; ring) (by norm_num)

/-- On an ideal core the example's bins are those of AV1. -/
theorem ideal_mag_exampleWindow {ideal : Config.Numerics} (h : ideal.Ideal) {k : ℕ} (hk : k < 9) :
    ideal.mag exampleWindow k = exampleSpectrum.getD k 0 := by
  obtain ⟨x, hx⟩ : ∃ x, Config.IsMagnitude exampleWindow 16 k x := ⟨_, rfl⟩
  exact ideal_mag_eq h (by decide) (by decide) (hk.trans (by decide)) hx (isRne_exampleSpectrum hk hx)

/-- Settles O59: bins 0 to 8 are the rne of the closed form (`isRne_exampleSpectrum`), and the others mirror them. -/
theorem anlzIdealExample : Obligations.AnlzIdealExample := by
  intro ideal b s hi hs hlen hsamples
  obtain ⟨u, hu⟩ := runAnlz_of_succeeds ideal hs
  have hwindow : s.window b = exampleWindow := eq_exampleWindow <| by
    rw [State.window, State.segment, List.map_map, hlen]
    exact hsamples
  have hmag {k : ℕ} (hk : k < 16) : u.succeed.magAt k = ideal.mag exampleWindow k := by
    rw [succeed_magAt, runAnlz_mag hu (by rwa [hlen]), hwindow]
  have hlow {k : ℕ} (hk : k < 9) : u.succeed.magAt k = exampleSpectrum.getD k 0 := by
    rw [hmag (by omega), ideal_mag_exampleWindow hi hk]
  have hmirror {k : ℕ} (h0 : 0 < k) (hk : k < 16) : u.succeed.magAt k = u.succeed.magAt (16 - k) := by
    rw [hmag hk, hmag (by omega)]
    exact ideal_mag_mirror hi (by decide) (by decide) h0 hk
  have hle {k : ℕ} (hk : k < 9) : (u.succeed.magAt k).toNat ≤ (u.succeed.magAt 2).toNat := by
    rw [hlow hk, hlow (by decide)]
    revert k
    decide
  refine ⟨u.succeed, execUnder_of_ok hu, ?_, ?_, fun k h9 hk => hmirror (by omega) hk, fun k hk => ?_⟩
  · rw [succeed_log2n, runAnlz_log2n hu, hlen]
    rfl
  · exact (List.map_congr_left fun k hk => hlow (List.mem_range.mp hk)).trans (by decide)
  · by_cases h9 : k < 9
    · exact hle h9
    · rw [hmirror (by omega) hk]
      exact hle (by omega)

end Sys2Proof.Proofs

/-! SUPPORT. The demodulator (44_demodulator): the band filter, what Classify gives, what DEMW and DEMOD leave, and that
the two agree. -/

namespace Sys2Proof.Proofs

open Sys2Proof Sys2Proof.Machine

/-! ### The band filter (44_demodulator R202, R203) -/

theorem survives_iff (s : State) (n k : Nat) : s.survives n k = true ↔
    (s.bandLo.toNat : Int) * n ≤ signedBin n k * s.srate.toNat ∧
      signedBin n k * s.srate.toNat ≤ (s.bandHi.toNat : Int) * n := by
  simp [State.survives]

/-- A bin of the upper half stands for a negative frequency, which no band holds. -/
theorem survives_lower {s : State} {n k : Nat} (hs : s.srate ≠ 0) (hk : k < n) (h : s.survives n k = true) :
    k < n / 2 := by
  by_contra hc
  obtain ⟨hlo, -⟩ := (survives_iff s n k).mp h
  have hsrate : (0 : Int) < s.srate.toNat := by exact_mod_cast toNat_pos_of_ne hs
  have hband : (0 : Int) ≤ s.bandLo.toNat * n := by positivity
  have hneg : signedBin n k * s.srate.toNat < 0 := by
    rw [signedBin, if_neg hc]
    exact mul_neg_of_neg_of_pos (by omega) hsrate
  omega

/-- Bin 0 stands for 0 Hz. -/
theorem survives_zero (s : State) {n : Nat} (hn : 2 ≤ n) : s.survives n 0 = true ↔ s.bandLo = 0 := by
  have hband : (0 : Int) ≤ s.bandHi.toNat * n := by positivity
  have hdc : signedBin n 0 = 0 := if_pos (by omega)
  rw [survives_iff, hdc, zero_mul, and_iff_left hband, ← toNat_eq_zero_iff]
  norm_cast
  rw [Nat.le_zero, Nat.mul_eq_zero, or_iff_left (by omega)]

/-- No frequency lies in an empty band. -/
theorem survives_of_empty_band {s : State} (h : s.bandHi.toNat < s.bandLo.toNat) {n : Nat} (hn : 0 < n) (k : Nat) :
    s.survives n k = false := by
  rw [← Bool.not_eq_true, survives_iff]
  rintro ⟨hlo, hhi⟩
  have hlt : (s.bandHi.toNat : Int) * n < s.bandLo.toNat * n := by exact_mod_cast Nat.mul_lt_mul_of_pos_right h hn
  omega

/-- Settles O39: upper bins have negative frequencies, bin 0 is 0 Hz, and an empty band holds nothing. -/
theorem survivorsLowerHalf : Obligations.SurvivorsLowerHalf := by
  intro s len k hs hlen hk
  have hn := lt_pow2gt len
  exact ⟨survives_lower hs hk, survives_zero s (by omega), fun hband => survives_of_empty_band hband (by omega) k⟩

theorem survivors_of_empty_band {s : State} (h : s.bandHi.toNat < s.bandLo.toNat) {n : Nat} (hn : 0 < n) :
    s.survivors n = [] :=
  List.filter_eq_nil_iff.mpr fun k _ => by simp [survives_of_empty_band h hn]

/-! ### Classify (44_demodulator R204 to R207) -/

section Classify

variable (num : Config.Numerics) (s : State) (seg : List Sample)

theorem classify_noband_iff : (s.classify num seg).noband = true ↔ s.survivors (pow2gt seg.length) = [] :=
  List.isEmpty_iff

/-- The peak is the least survivor of the largest magnitude. -/
theorem classify_peak_of_survivors (h : s.survivors (pow2gt seg.length) ≠ []) :
    (s.classify num seg).peak ∈ s.survivors (pow2gt seg.length) ∧
      ∀ k ∈ s.survivors (pow2gt seg.length), (num.mag seg k).toNat ≤ (num.mag seg (s.classify num seg).peak).toNat ∧
        (num.mag seg k = num.mag seg (s.classify num seg).peak → (s.classify num seg).peak ≤ k) := by
  obtain ⟨p, hp⟩ := Option.ne_none_iff_exists'.mp (mt (peakOf_eq_none (m := fun k => (num.mag seg k).toNat)).mp h)
  have hpeak : (s.classify num seg).peak = p := by rw [State.classify]; exact congrArg (Option.getD · 0) hp
  obtain ⟨hmem, hmax⟩ := peakOf_spec (survivors_rising s _) hp
  rw [hpeak]
  exact ⟨hmem, fun k hk => ⟨(hmax k hk).1, fun he => (hmax k hk).2 (congrArg BitVec.toNat he)⟩⟩

/-- With no survivor the peak defaults to 0 Hz (44_demodulator R205). -/
theorem classify_peak_of_no_survivor (h : s.survivors (pow2gt seg.length) = []) : (s.classify num seg).peak = 0 := by
  rw [State.classify, h]
  rfl

/-- The decision is for the space carrier when the peak is strictly nearer to it (44_demodulator R206). -/
theorem decide01_eq_false_iff (n k : Nat) : s.decide01 n k = false ↔
    |(k : Int) * s.srate.toNat - s.fSpace.toNat * n| < |(k : Int) * s.srate.toNat - s.fMark.toNat * n| := by
  rw [State.decide01, Bool.not_eq_false', decide_eq_true_iff, Int.abs_eq_natAbs, Int.abs_eq_natAbs, Nat.cast_lt]

theorem classify_bit_eq_false_iff : (s.classify num seg).bit = false ↔
    |((s.classify num seg).peak : Int) * s.srate.toNat - s.fSpace.toNat * pow2gt seg.length| <
      |((s.classify num seg).peak : Int) * s.srate.toNat - s.fMark.toNat * pow2gt seg.length| :=
  decide01_eq_false_iff ..

end Classify

/-! ### The registers a window is stored in -/

/-- The peak of a window that fits is below 2^16 (10_state R47). -/
theorem toNat_peakBin {p : Config.Params} (hp : p.SizesOk) {r : Window} (hr : WindowFits p r) :
    (BitVec.ofNat 16 r.peak).toNat = r.peak := by
  obtain ⟨-, -, -, ⟨-, hmax⟩, -⟩ := hp
  have hpow : 2 ^ p.log2nMax ≤ 2 ^ 16 := Nat.pow_le_pow_right (by decide) hmax
  have hfit := (window_fits hr.len_le).2
  have hpeak := hr.peak_lower
  exact ofNat_toNat (by omega)

/-- Two states hold the same MAG, LOG2N, PEAK_BIN and PEAK_INFO. -/
structure SameAnalysis (t u : State) : Prop where
  mag : ∀ k, t.magAt k = u.magAt k
  log2n : t.log2n = u.log2n
  peakBin : t.peakBin = u.peakBin
  peakBit : t.peakBit = u.peakBit
  peakNoband : t.peakNoband = u.peakNoband

/-- What a state holds of the last window classified. -/
theorem sameAnalysis_storeWindow {num : Config.Numerics} {s t u : State} {seg : List Sample} (hp : s.params.SizesOk)
    (hfit : WindowFits s.params (s.classify num seg)) (h : SameAnalysis t (u.storeWindow (s.classify num seg))) :
    (∀ k, k < pow2gt seg.length → t.magAt k = num.mag seg k) ∧
    (∀ k, pow2gt seg.length ≤ k → t.magAt k = u.magAt k) ∧ 2 ^ t.log2n.toNat = pow2gt seg.length ∧
    t.peakBin.toNat = (s.classify num seg).peak ∧ t.peakBit = (s.classify num seg).bit ∧
    t.peakNoband = (s.classify num seg).noband := by
  obtain ⟨hmag, hlog, hbin, hbit, hband⟩ := h
  refine ⟨fun k hk => ?_, fun k hk => ?_, ?_, ?_, hbit, hband⟩
  · exact (hmag k).trans (magAt_storeSpectrum_below num seg.length seg u hk)
  · exact (hmag k).trans (magAt_storeSpectrum_above num seg.length seg u hk)
  · rw [hlog, storeWindow_log2n, toNat_log2n hp hfit.len_le, classify_len, pow2gt]
  · rw [hbin, storeWindow_peakBin, toNat_peakBin hp hfit]

/-! ### DEMW (44_demodulator R207) -/

section RunDemw

variable {num : Config.Numerics} {b : Bank} {s u : State} (hu : runDemw num b s = .ok u)
include hu

theorem runDemw_fits : WindowFits s.params (s.classify num (s.window b)) := by
  obtain ⟨hcar, hok, -⟩ := runDemw_ok.mp hu
  obtain ⟨-, hne, hmax, -⟩ := (windowOk_iff s b).mp hok
  exact classify_fits ((carriersSet_iff s).mp hcar).1 (by simpa using toNat_pos_of_ne hne) (by simpa using hmax)

theorem runDemw_analysis : SameAnalysis u (s.storeWindow (s.classify num (s.window b))) := by
  obtain ⟨-, -, rfl⟩ := runDemw_ok.mp hu
  exact ⟨fun _ => rfl, rfl, rfl, rfl, rfl⟩

/-- NOBAND_CNT and FLAGS.NOBAND report a window without survivor. -/
theorem runDemw_noband : u.nobandCnt = (if u.peakNoband then 1 else 0) ∧ u.flags = s.flags.noteNoband u.peakNoband := by
  obtain ⟨-, -, rfl⟩ := runDemw_ok.mp hu
  exact ⟨rfl, rfl⟩

/-- DEMW writes no register but the results of 44_demodulator R207, and no buffer but MAG. -/
theorem runDemw_frame :
    u = { s with mem := { s.mem with mag := u.mem.mag }, log2n := u.log2n, peakBin := u.peakBin,
                 peakBit := u.peakBit, peakNoband := u.peakNoband, nobandCnt := u.nobandCnt, flags := u.flags } := by
  obtain ⟨-, -, rfl⟩ := runDemw_ok.mp hu
  rfl

end RunDemw

/-- Settles O40: the window is stored as Classify gives it (`sameAnalysis_storeWindow`), and its peak and bit are those
of R204 to R206. -/
theorem demwResult : Obligations.DemwResult := by
  intro b s hp hs seg n signed surv
  obtain ⟨u, hu⟩ := runOf_of_succeeds hs
  obtain ⟨hmag, habove, hlog, hbin, hbit, hband⟩ := sameAnalysis_storeWindow hp (runDemw_fits hu) (runDemw_analysis hu)
  obtain ⟨hcnt, hflags⟩ := runDemw_noband hu
  have hn : pow2gt (s.window b).length = n := by rw [window_length]
  rw [hn] at hmag habove hlog
  have hsurv (k : Nat) : surv k ↔ k ∈ s.survivors (pow2gt (s.window b).length) := by
    rw [mem_survivors, survives_iff, hn]
    rfl
  have hsome : (∃ k, surv k) ↔ s.survivors (pow2gt (s.window b).length) ≠ [] := by
    simp only [hsurv, ne_eq, List.eq_nil_iff_forall_not_mem, not_forall, not_not]
  refine ⟨u.succeed, exec_of_ok hu, hmag, hlog, fun h => ?_, fun h => ?_, ?_, hcnt, hflags, habove,
    congrArg State.succeed (runDemw_frame hu)⟩
  · obtain ⟨hmem, hmax⟩ := classify_peak_of_survivors num s _ (hsome.mp h)
    simp only [succeed_peakNoband, succeed_peakBin, succeed_magAt, hband, hbin, hsurv]
    refine ⟨by rw [← Bool.not_eq_true, classify_noband_iff]; exact hsome.mp h, hmem, fun k hk => ?_⟩
    have hlt {k : Nat} (hk : k ∈ s.survivors (pow2gt (s.window b).length)) : k < n := ((hsurv k).mpr hk).1
    rw [hmag _ (hlt hk), hmag _ (hlt hmem)]
    exact hmax k hk
  · have hnone := not_not.mp (mt hsome.mpr h)
    refine ⟨hband.trans ((classify_noband_iff num s _).mpr hnone), ?_⟩
    rw [succeed_peakBin, ← toNat_eq_zero_iff, hbin]
    exact classify_peak_of_no_survivor num s _ hnone
  · rw [succeed_peakBit, succeed_peakBin, hbit, hbin, classify_bit_eq_false_iff, hn]

/-- Settles O41: nothing survives an empty band, so the peak is 0 and the distances to the carriers are the carriers. -/
theorem noSurvivorBit : Obligations.NoSurvivorBit := by
  intro b s hs hempty
  obtain ⟨u, hu⟩ := runOf_of_succeeds hs
  have hn := pow2gt_pos (s.window b).length
  have hnone := survivors_of_empty_band hempty hn
  have hpeak := classify_peak_of_no_survivor num s _ hnone
  obtain ⟨-, -, hbin, hbit, hband⟩ := runDemw_analysis hu
  obtain ⟨hcnt, hflags⟩ := runDemw_noband hu
  have hnoband : u.peakNoband = true := hband.trans ((classify_noband_iff num s _).mpr hnone)
  rw [hnoband] at hcnt hflags
  have hdec : u.peakBit = false ↔ s.fSpace.toNat < s.fMark.toNat := by
    rw [hbit, storeWindow_peakBit, classify_bit_eq_false_iff, hpeak]
    simp only [Nat.cast_zero, zero_mul, zero_sub, abs_neg, ← Nat.cast_mul, Nat.abs_cast, Nat.cast_lt]
    exact Nat.mul_lt_mul_right hn
  refine ⟨u.succeed, exec_of_ok hu, ?_, ?_, hcnt, ?_⟩
  · rw [succeed_peakBin, hbin, storeWindow_peakBin, hpeak]
    rfl
  · rw [succeed_flags, hflags]
    exact Bool.or_true _
  · have hword : u.succeed.readReg .peakInfo = bitAt u.peakBit 0 ||| bitAt u.peakNoband 1 := rfl
    rw [hword, hnoband]
    split
    · next h => rw [hdec.mpr h]; decide
    · next h => rw [Bool.not_eq_false _ |>.mp (mt hdec.mp h)]; decide


/-! ### DEMOD (44_demodulator R211, R213, R214) -/

theorem windows_getElem? (num : Config.Numerics) (s : State) (b : Bank) {w : Nat}
    (hw : w < windowCount (s.waveLen b).toNat s.sps) :
    (s.windows num b)[w]? = some (s.classify num (s.symbolWindow b w)) := by
  rw [State.windows, List.getElem?_map, List.getElem?_range hw, Option.map_some]

/-- The samples after the last whole window, if any, are one window more (44_demodulator R211). -/
theorem windowCount_mul_add {sps r : Nat} (hr : r < sps) (q : Nat) :
    windowCount (sps * q + r) sps = q + if r = 0 then 0 else 1 := by
  rw [windowCount, Nat.add_assoc, Nat.mul_add_div (by omega)]
  split
  · rw [Nat.div_eq_of_lt (by omega)]
  · rw [Nat.div_eq_of_lt_le (k := 1) (by omega) (by omega)]

theorem windowCount_mul_self {sps : Nat} (h : 0 < sps) (n : Nat) : windowCount (sps * n) sps = n :=
  windowCount_mul_add h n

/-- There is a last window, and it is short, exactly when SPS does not divide the length (44_demodulator R214). -/
theorem last_window_short_iff {len sps : Nat} (h : 0 < sps) :
    (1 ≤ windowCount len sps ∧ min sps (len - (windowCount len sps - 1) * sps) < sps) ↔ len % sps ≠ 0 := by
  have hmod := Nat.mod_lt len h
  have hcount := windowCount_mul_add hmod (len / sps)
  have hlen := Nat.div_add_mod len sps
  rw [hlen] at hcount
  rw [hcount]
  generalize len % sps = r at *
  generalize len / sps = q at *
  split
  · next h0 =>
    cases q with
    | zero => simp [h0]
    | succ q =>
      rw [Nat.mul_add_one, Nat.mul_comm] at hlen
      rw [Nat.add_zero, Nat.add_sub_cancel]
      omega
  · rw [Nat.add_sub_cancel, Nat.mul_comm]
    omega

theorem lastShort_windows (num : Config.Numerics) (s : State) (b : Bank) :
    lastShort s.sps (s.windows num b).getLast? = decide (1 ≤ windowCount (s.waveLen b).toNat s.sps ∧
      (s.symbolWindow b (windowCount (s.waveLen b).toNat s.sps - 1)).length < s.sps) := by
  rw [windows_getLast?]
  split
  · next h => simp [lastShort, h]
  · next h => simp [lastShort, Nat.one_le_iff_ne_zero, h]

@[simp] theorem storeLast_symAt (r : Option Window) (s : State) (k : Nat) : (s.storeLast r).symAt k = s.symAt k := by
  cases r <;> rfl

@[simp] theorem storeLast_symLen (r : Option Window) (s : State) : (s.storeLast r).symLen = s.symLen := by
  cases r <;> rfl

section RunDemod

variable {num : Config.Numerics} {b : Bank} {s u : State} (hu : runDemod num b s = .ok u)
include hu

theorem runDemod_sps_pos : 0 < s.sps := by
  obtain ⟨-, hdur, -⟩ := runDemod_ok.mp hu
  exact sps_pos hdur

/-- The symbols written: one for each window. -/
theorem runDemod_symAt {w : Nat} (hw : w < windowCount (s.waveLen b).toNat s.sps) :
    u.symAt w = symbolOf (s.classify num (s.symbolWindow b w)).bit := by
  obtain ⟨-, -, -, -, -, rfl⟩ := runDemod_ok.mp hu
  refine (storeLast_symAt ..).trans ?_
  rw [symAt_storeSymbols, List.getElem?_map, windows_getElem? num s b hw, Option.map_some, Option.getD_some]

theorem runDemod_symAt_above {k : Nat} (hk : windowCount (s.waveLen b).toNat s.sps ≤ k) : u.symAt k = s.symAt k := by
  obtain ⟨-, -, -, -, -, rfl⟩ := runDemod_ok.mp hu
  refine (storeLast_symAt ..).trans ?_
  rw [symAt_storeSymbols, List.getElem?_eq_none (by simpa using hk), Option.getD_none]

/-- The number of symbols and the number of windows without survivor fit their registers. -/
theorem runDemod_counts (hp : s.params.SizesOk) : u.symLen.toNat = windowCount (s.waveLen b).toNat s.sps ∧
    u.nobandCnt.toNat = (s.windows num b).countP fun r => r.noband := by
  obtain ⟨-, -, -, -, hfit, rfl⟩ := runDemod_ok.mp hu
  obtain ⟨-, ⟨-, hdepth⟩, -⟩ := hp
  have hcount : ((s.windows num b).countP fun r => r.noband) ≤ windowCount (s.waveLen b).toNat s.sps :=
    List.countP_le_length.trans_eq (windows_length num s b)
  constructor
  · refine (congrArg BitVec.toNat (storeLast_symLen ..)).trans ?_
    rw [storeSymbols_symLen, List.length_map, windows_length, ofNat_toNat (by omega)]
  · exact ofNat_toNat (by omega)

theorem runDemod_flags : u.flags = (s.flags.noteNoband ((s.windows num b).any fun r => r.noband)).noteShortwin
    (lastShort s.sps (s.windows num b).getLast?) := by
  obtain ⟨-, -, -, -, -, rfl⟩ := runDemod_ok.mp hu
  rfl

/-- SHORTWIN is set when SPS does not divide the length, and never cleared (44_demodulator R214). -/
theorem runDemod_shortwin :
    u.flags.shortwin = (s.flags.shortwin || decide ((s.waveLen b).toNat % s.sps ≠ 0)) := by
  rw [runDemod_flags hu, noteShortwin_shortwin, noteNoband_shortwin, lastShort_windows, symbolWindow_length,
    decide_eq_decide.mpr (last_window_short_iff (runDemod_sps_pos hu))]

/-- With no window the last window's results stay as they were. -/
theorem runDemod_analysis_empty (h : windowCount (s.waveLen b).toNat s.sps = 0) : SameAnalysis u s := by
  obtain ⟨-, -, -, -, -, rfl⟩ := runDemod_ok.mp hu
  rw [windows_getLast?, if_pos h]
  exact ⟨fun _ => rfl, rfl, rfl, rfl, rfl⟩

/-- The results DEMOD leaves are the last window's. -/
theorem runDemod_analysis_last (h : 1 ≤ windowCount (s.waveLen b).toNat s.sps) : SameAnalysis u
    (s.storeWindow (s.classify num (s.symbolWindow b (windowCount (s.waveLen b).toNat s.sps - 1)))) := by
  obtain ⟨-, -, -, -, -, rfl⟩ := runDemod_ok.mp hu
  rw [windows_getLast?, if_neg (by omega)]
  exact ⟨fun _ => rfl, rfl, rfl, rfl, rfl⟩

theorem runDemod_fits {w : Nat} (hw : w < windowCount (s.waveLen b).toNat s.sps) :
    WindowFits s.params (s.classify num (s.symbolWindow b w)) := by
  obtain ⟨hcar, hdur, hmax, -⟩ := runDemod_ok.mp hu
  exact windows_fit hcar hdur hmax (List.mem_of_getElem? (windows_getElem? num s b hw))

/-- DEMOD writes no register but the results of 44_demodulator R213, and no buffer but SYMBUF and MAG. -/
theorem runDemod_frame :
    u = { s with mem := { s.mem with symBuf := u.mem.symBuf, mag := u.mem.mag }, symLen := u.symLen,
                 log2n := u.log2n, peakBin := u.peakBin, peakBit := u.peakBit, peakNoband := u.peakNoband,
                 nobandCnt := u.nobandCnt, flags := u.flags } := by
  obtain ⟨-, -, -, -, -, rfl⟩ := runDemod_ok.mp hu
  cases (s.windows num b).getLast? <;> rfl

end RunDemod

/-- Settles O42: the symbols and counts are read off the windows, and the other results are the last window's
(`runDemod_analysis_last`, `sameAnalysis_storeWindow`). -/
theorem demodResult : Obligations.DemodResult := by
  intro b s hp hs len nwin win
  obtain ⟨u, hu⟩ := runOf_of_succeeds hs
  obtain ⟨hlen, hcnt⟩ := runDemod_counts hu hp
  have hwindows : s.windows num b = (List.range nwin).map fun w => s.classify num (win w) := rfl
  refine ⟨u.succeed, exec_of_ok hu, hlen, fun w hw => runDemod_symAt hu hw, fun k hk => runDemod_symAt_above hu hk,
    ?_, ?_, fun h => ?_, fun h => ?_, congrArg State.succeed (runDemod_frame hu)⟩
  · rw [succeed_nobandCnt, hcnt, hwindows, List.countP_map, List.countP_eq_length_filter]
    rfl
  · have hany : ((s.windows num b).any fun r => r.noband) = decide (0 < u.nobandCnt.toNat) := by
      rw [hcnt, Bool.eq_iff_iff, decide_eq_true_iff, List.countP_pos_iff, List.any_eq_true]
    rw [succeed_flags, runDemod_flags hu, hany, lastShort_windows]
    rfl
  · obtain ⟨hmag, hlog, hbin, hbit, hband⟩ := runDemod_analysis_empty hu h
    exact ⟨hmag, hlog, hbin, hbit, hband⟩
  · exact sameAnalysis_storeWindow hp (runDemod_fits hu (Nat.sub_one_lt_of_lt h)) (t := u) (runDemod_analysis_last hu h)

/-- Settles O43: DEMOD by `runDemod_shortwin`; DEMW, failed or not, is not a command that sets SHORTWIN. -/
theorem shortWindowFlag : Obligations.ShortWindowFlag := by
  refine fun b s => ⟨fun hs => ?_, ?_⟩
  · obtain ⟨u, hu⟩ := runOf_of_succeeds hs
    exact ⟨u.succeed, exec_of_ok hu, (runDemod_shortwin hu :)⟩
  · obtain ⟨u, hu, -⟩ := exec_answers (.demw b) s
    obtain ⟨-, -, -, -, -, -, hshort, -⟩ := flagsSticky _ s u hu
    exact ⟨u, hu, hshort (by simp)⟩

/-! ### DEMW on a window of DEMOD (44_demodulator R207, R213; 60_exceptions R282) -/

/-- `s` with WIN_OFF and WIN_LEN naming the window of `len` samples at `off`. -/
def atWindow (s : State) (off len : Nat) : State :=
  { s with winOff := BitVec.ofNat 32 off, winLen := BitVec.ofNat 32 len }

/-- On a window of DEMOD, DEMW passes its checks and classifies the samples DEMOD does. -/
theorem runDemw_atWindow {num : Config.Numerics} {b : Bank} {s u : State} (hu : runDemod num b s = .ok u) {w : Nat}
    (hw : w * s.sps < (s.waveLen b).toNat) :
    let t := atWindow s (w * s.sps) (min s.sps ((s.waveLen b).toNat - w * s.sps))
    t.window b = s.symbolWindow b w ∧ ∃ v, runDemw num b t = .ok v := by
  intro t
  obtain ⟨hcar, -, hmax, hdepth, -⟩ := runDemod_ok.mp hu
  have hpos := runDemod_sps_pos hu
  have hlt := (s.waveLen b).isLt
  have hoff : t.winOff.toNat = w * s.sps := ofNat_toNat (by omega)
  have hlen : t.winLen.toNat = min s.sps ((s.waveLen b).toNat - w * s.sps) := ofNat_toNat (by omega)
  have hne : t.winLen ≠ 0 := fun h => by rw [h, (toNat_eq_zero_iff _).mpr rfl] at hlen; omega
  have hok : t.windowOk b = true :=
    (windowOk_iff t b).mpr ⟨hdepth, hne, by rw [hlen]; exact (min_le_left _ _).trans hmax, by
      change _ ≤ (s.waveLen b).toNat; omega⟩
  refine ⟨?_, _, runDemw_ok.mpr ⟨hcar, hok, rfl⟩⟩
  rw [State.window, hoff, hlen]
  rfl

/-- Settles O44: DEMW classifies the same samples with the same registers (`runDemw_atWindow`), and the last window is
the one whose results DEMOD leaves. -/
theorem demodAgreesWithDemw : Obligations.DemodAgreesWithDemw := by
  intro b s w hp hs hw
  obtain ⟨u, hu⟩ := runOf_of_succeeds hs
  obtain ⟨hwindow, v, hv⟩ := runDemw_atWindow hu hw
  have hpos := runDemod_sps_pos hu
  have hcount : w < windowCount (s.waveLen b).toNat s.sps :=
    Nat.lt_of_mul_lt_mul_right (hw.trans_le (le_windowCount_mul hpos))
  have hv' := runDemw_analysis hv
  rw [hwindow] at hv'
  have herr : v.err = s.err := by rw [runDemw_frame hv]; rfl
  refine ⟨u.succeed, v.succeed, exec_of_ok hu, exec_of_ok hv, herr, ?_, fun hlast => ?_⟩
  · rw [succeed_symAt, runDemod_symAt hu hcount, succeed_peakBit, hv'.peakBit]
    rfl
  · have heq : windowCount (s.waveLen b).toNat s.sps - 1 = w := by
      by_contra hne
      exact hlast.not_gt (windowCount_mul hpos (w + 1) (by omega))
    have hu' := runDemod_analysis_last hu (by omega)
    rw [heq] at hu'
    exact ⟨hu'.peakBin.trans hv'.peakBin.symm, hu'.peakBit.trans hv'.peakBit.symm,
      hu'.peakNoband.trans hv'.peakNoband.symm, hu'.log2n.trans hv'.log2n.symm,
      fun k => (hu'.mag k).trans (hv'.mag k).symm⟩

/-! ### MOD, then DEMOD (44_demodulator R216 (c)) -/

/-- Settles O45: the waveform has SPS samples for each of the n valid symbols, so there are n windows
(`windowCount_mul_self`), none short. -/
theorem modThenDemodCount : Obligations.ModThenDemodCount := by
  intro d s hp hs hmax
  obtain ⟨u, hu⟩ := runOf_of_succeeds hs
  obtain ⟨hcar, hdur, hsym, hfit, -⟩ := runMod_ok.mp hu
  obtain ⟨hwave, -⟩ := runMod_counts hp hu
  have hpos := sps_pos hdur
  obtain ⟨v, hv⟩ : ∃ v, v = u.succeed.accept (encode (.demod d)) := ⟨_, rfl⟩
  have hparams : v.params = s.params := by rw [hv, runMod_frame hu]; rfl
  have hsps : v.sps = s.sps := by rw [hv, runMod_frame hu]; rfl
  have hlen : (v.waveLen d).toNat = s.sps * s.validSymbols.length := by rw [hv]; exact hwave
  have hcount : windowCount (v.waveLen d).toNat v.sps = s.validSymbols.length := by
    rw [hlen, hsps, windowCount_mul_self hpos]
  obtain ⟨t, ht⟩ : ∃ t, runDemod num d v = .ok t := by
    refine ⟨_, runDemod_ok.mpr ⟨?_, ?_, by rwa [hsps, hparams], by rwa [hlen, hparams], ?_, rfl⟩⟩
    · rw [hv, runMod_frame hu]; exact hcar
    · rw [hv, runMod_frame hu]; exact hdur
    · rw [hcount, hparams]
      exact (validSymbols_le s).trans hsym
  refine ⟨u.succeed, t.succeed, exec_of_ok hu, hv ▸ exec_of_ok ht, ?_, ?_, ?_⟩
  · rw [succeed_err, runDemod_frame ht, hv]
    rfl
  · exact (runDemod_counts ht (hparams ▸ hp)).1.trans hcount
  · rw [succeed_flags, runDemod_shortwin ht, hlen, hsps, Nat.mul_mod_right, hv, accept_flags, succeed_flags,
      runMod_flags hu]
    simp

end Sys2Proof.Proofs

/-! SUPPORT. The source's scenario (44_demodulator R216 (b)) under any NUM: rounding moves each sample by at most one
unit and each magnitude by at most nine, and the magnitudes that the decision compares are much farther apart. -/

namespace Sys2Proof.Proofs

open Sys2Proof Sys2Proof.Machine

/-! ### Windows near a known one -/

/-- `seg` is `ref` up to one unit in each sample. -/
def NearWindow (seg ref : List Sample) : Prop := List.Forall₂ (fun v r => |v.toInt - r.toInt| ≤ 1) seg ref

theorem nearWindow_getD {seg ref : List Sample} (h : NearWindow seg ref) (i : Nat) :
    |(seg.getD i 0).toInt - (ref.getD i 0).toInt| ≤ 1 := by
  have hlen := h.length_eq
  by_cases hi : i < seg.length
  · rw [List.getD_eq_getElem _ _ hi, List.getD_eq_getElem _ _ (hlen ▸ hi)]
    exact h.get hi (hlen ▸ hi)
  · rw [List.getD_eq_default _ _ (by omega), List.getD_eq_default _ _ (by omega)]
    simp

/-- One unit in each sample moves a magnitude by at most the length: the triangle inequality. -/
theorem magnitude_near {seg ref : List Sample} {n k : ℕ} {x y : ℝ} (h : NearWindow seg ref)
    (hx : Config.IsMagnitude seg n k x) (hy : Config.IsMagnitude ref n k y) : |x - y| ≤ seg.length := by
  rw [norm_spectrumPoint hx rfl, norm_spectrumPoint hy rfl, ← h.length_eq]
  refine (abs_norm_sub_norm_le _ _).trans ?_
  rw [← Finset.sum_sub_distrib]
  refine (norm_sum_le_of_le _ (n := fun _ => 1) fun i _ => ?_).trans_eq (by simp)
  rw [← sub_mul, norm_mul, Complex.norm_exp_ofReal_mul_I, mul_one, ← Int.cast_sub, Complex.norm_intCast]
  exact_mod_cast nearWindow_getD h i

/-- MAGRAW of a window of eight samples near a known one is within nine of the known magnitude (00_scope R6 (b),
(d)). -/
theorem mag_near_of_nearWindow (num : Config.Numerics) {seg ref : List Sample} {k : ℕ} {y : ℝ} (h : NearWindow seg ref)
    (hlen : ref.length = 8) (hk : k < 16) (hy : Config.IsMagnitude ref 16 k y) :
    |((num.mag seg k).toNat : ℝ) / 2 ^ 32 - y| ≤ 9 := by
  have hseg : seg.length = 8 := h.length_eq.trans hlen
  have hn : pow2gt seg.length = 16 := by rw [hseg]; rfl
  obtain ⟨x, hx⟩ : ∃ x, Config.IsMagnitude seg 16 k x := ⟨_, rfl⟩
  have hmag := mag_near num (by omega) (by rw [hseg]; decide) (hn ▸ hk) (hn ▸ hx)
  have heps : (num.epsMag : ℝ) ≤ 1 := by exact_mod_cast num.epsMag_bounds.2.trans (by norm_num)
  have hxy := magnitude_near h hx hy
  rw [hseg] at hxy
  calc _ ≤ |((num.mag seg k).toNat : ℝ) / 2 ^ 32 - x| + |x - y| := abs_sub_le _ _ _
    _ ≤ 1 + (8 : ℕ) := add_le_add (hmag.trans heps) hxy
    _ = 9 := by norm_num

/-- Known magnitudes more than eighteen apart order the bins of every window near the known one. -/
theorem mag_lt_of_nearWindow (num : Config.Numerics) {seg ref : List Sample} {j k : ℕ} {y z : ℝ}
    (h : NearWindow seg ref) (hlen : ref.length = 8) (hj : j < 16) (hk : k < 16) (hy : Config.IsMagnitude ref 16 j y)
    (hz : Config.IsMagnitude ref 16 k z) (hyz : y + 18 < z) : (num.mag seg j).toNat < (num.mag seg k).toNat := by
  obtain ⟨-, hj'⟩ := abs_le.mp (mag_near_of_nearWindow num h hlen hj hy)
  obtain ⟨hk', -⟩ := abs_le.mp (mag_near_of_nearWindow num h hlen hk hz)
  have hlt : ((num.mag seg j).toNat : ℝ) < (num.mag seg k).toNat := by
    rw [← div_lt_div_iff_of_pos_right (show (0 : ℝ) < 2 ^ 32 by norm_num)]
    linarith
  exact_mod_cast hlt

/-- Under any NUM the samples of a symbol are its rounded tone, clipped, up to one unit (42_modulator R174). -/
theorem symbolWave_near (num : Config.Numerics) {s : State} (hs : s.srate ≠ 0) {c : Byte} {ms : List ℤ}
    (hms : RoundedTone s.ampl.toNat (s.carrier c) s.srate.toNat ms) (hlen : ms.length = s.sps) :
    NearWindow (s.symbolWave num c) (ms.map fun m => toSample (clip m)) := by
  rw [NearWindow, State.symbolWave, ← hlen, List.forall₂_map_left_iff, List.forall₂_map_right_iff]
  refine hms.imp fun n m hm => ?_
  have hnear := scaledSine_near num s.ampl.toNat (s.carrier c * n) (toNat_pos_of_ne hs)
  have hsmall := ampl_mul_epsSin_lt num s.ampl
  obtain ⟨hlo, hhi⟩ := clip_bounds m
  rw [quantise_toInt, toSample_toInt (by omega) hhi]
  exact clip_close (isRne_close (rne_single num _ _ _) hm (by linarith))

/-! ### The magnitudes of the two symbols -/

/-- The window of a mark symbol of configuration A (42_modulator R175). -/
def markWindow : List Sample := [0, 32487, 8481, -30273, -16384, 25996, 23170, -19947]

/-- A magnitude as the modulus of a polynomial in the bin's root of unity. -/
theorem magnitude_eq_norm_pow {seg : List Sample} {n k : ℕ} {x : ℝ} (h : Config.IsMagnitude seg n k x) {ω : ℂ}
    (hω : Complex.exp ((2 * Real.pi * k / n : ℝ) * Complex.I) = ω) :
    x = ‖∑ i ∈ Finset.range seg.length, ((seg.getD i 0).toInt : ℂ) * ω ^ i‖ := by
  rw [norm_spectrumPoint h rfl]
  congr 1
  refine Finset.sum_congr rfl fun i _ => ?_
  rw [← hω, ← Complex.exp_nat_mul]
  congr 2
  push_cast
  ring

/-- A bin of the mark window as a polynomial in its root of unity. -/
theorem sum_markWindow (ω : ℂ) : ∑ i ∈ Finset.range markWindow.length, ((markWindow.getD i 0).toInt : ℂ) * ω ^ i =
    32487 * ω + 8481 * ω ^ 2 + -(30273 * ω ^ 3) + -(16384 * ω ^ 4) + 25996 * ω ^ 5 + 23170 * ω ^ 6 +
      -(19947 * ω ^ 7) := by
  simp [markWindow, Finset.sum_range_succ]

/-- Bin 2 turns by half after four samples, which then take away from the first four. -/
theorem magnitude_markWindow_two {x : ℝ} (h : Config.IsMagnitude markWindow 16 2 x) : x ≤ 47890 := by
  obtain ⟨ω, hω⟩ : ∃ ω, Complex.exp ((2 * Real.pi * (2 : ℕ) / (16 : ℕ) : ℝ) * Complex.I) = ω := ⟨_, rfl⟩
  have hnorm : ‖ω‖ = 1 := by rw [← hω, Complex.norm_exp_ofReal_mul_I]
  have hhalf : ω ^ 4 = -1 := by
    rw [← hω, ← Complex.exp_nat_mul, ← Complex.exp_pi_mul_I]
    congr 1
    push_cast
    ring
  have hsum : ∑ i ∈ Finset.range markWindow.length, ((markWindow.getD i 0).toInt : ℂ) * ω ^ i =
      16384 + 6491 * ω + -14689 * ω ^ 2 + -10326 * ω ^ 3 := by
    rw [sum_markWindow]
    linear_combination (-16384 + 25996 * ω + 23170 * ω ^ 2 - 19947 * ω ^ 3) * hhalf
  rw [magnitude_eq_norm_pow h hω, hsum]
  exact norm_add₄_le.trans_eq (by norm_num [hnorm])

/-- Bin 4 turns by a quarter with each sample; its imaginary part is the alternating sum of the odd samples. -/
theorem magnitude_markWindow_four {x : ℝ} (h : Config.IsMagnitude markWindow 16 4 x) : 108703 ≤ x := by
  have hω : Complex.exp ((2 * Real.pi * (4 : ℕ) / (16 : ℕ) : ℝ) * Complex.I) = Complex.I := by
    have hangle : ((2 * Real.pi * (4 : ℕ) / (16 : ℕ) : ℝ) : ℂ) = Real.pi / 2 := by push_cast; ring
    rw [hangle, Complex.exp_pi_div_two_mul_I]
  have hsum : ∑ i ∈ Finset.range markWindow.length, ((markWindow.getD i 0).toInt : ℂ) * Complex.I ^ i =
      -48035 + 108703 * Complex.I := by
    rw [sum_markWindow]
    linear_combination (48035 - 76216 * Complex.I - 39554 * Complex.I ^ 2 + 45943 * Complex.I ^ 3 +
      23170 * Complex.I ^ 4 - 19947 * Complex.I ^ 5) * Complex.I_sq
  rw [magnitude_eq_norm_pow h hω, hsum]
  refine le_trans ?_ (Complex.abs_im_le_norm _)
  simp

/-- The bins of a space symbol that the band of the scenario holds (43_analyzer R195). -/
theorem magnitude_exampleWindow {k : ℕ} (hk : k < 9) {x : ℝ} (h : Config.IsMagnitude exampleWindow 16 k x) :
    |x - (exampleSpectrum.getD k 0).toNat / 2 ^ 32| ≤ 1 := by
  have hrne := isRne_abs_le (isRne_exampleSpectrum hk h)
  have hscale : x - (exampleSpectrum.getD k 0).toNat / 2 ^ 32 =
      (x * 2 ^ 32 - ((exampleSpectrum.getD k 0).toNat : ℤ)) / 2 ^ 32 := by
    push_cast
    ring
  rw [hscale, abs_div, abs_of_pos (show (0 : ℝ) < 2 ^ 32 by norm_num), div_le_iff₀ (by norm_num)]
  exact hrne.trans (by norm_num)

/-- In a space symbol bin 2 is above bins 3 and 4, whatever the NUM. -/
theorem mag_space (num : Config.Numerics) {seg : List Sample} (h : NearWindow seg exampleWindow) {k : ℕ}
    (hk : k = 3 ∨ k = 4) : (num.mag seg k).toNat < (num.mag seg 2).toNat := by
  have hk9 : k < 9 := by omega
  obtain ⟨y, hy⟩ : ∃ y, Config.IsMagnitude exampleWindow 16 k y := ⟨_, rfl⟩
  obtain ⟨z, hz⟩ : ∃ z, Config.IsMagnitude exampleWindow 16 2 z := ⟨_, rfl⟩
  obtain ⟨-, hy'⟩ := abs_le.mp (magnitude_exampleWindow hk9 hy)
  obtain ⟨hz', -⟩ := abs_le.mp (magnitude_exampleWindow (by decide) hz)
  refine mag_lt_of_nearWindow num h rfl (by omega) (by decide) hy hz ?_
  have htwo : (exampleSpectrum.getD 2 0).toNat = 0x0001FFFCA80F18F4 := rfl
  have hother : (exampleSpectrum.getD k 0).toNat ≤ 0x000116FA9025F2EA := by rcases hk with rfl | rfl <;> decide
  rw [htwo] at hz'
  generalize (exampleSpectrum.getD k 0).toNat = m at hy' hother
  have hm : (m : ℝ) ≤ 0x000116FA9025F2EA := by exact_mod_cast hother
  norm_num at hz'
  linarith

/-- In a mark symbol bin 2 is below bin 4, whatever the NUM. -/
theorem mag_mark (num : Config.Numerics) {seg : List Sample} (h : NearWindow seg markWindow) :
    (num.mag seg 2).toNat < (num.mag seg 4).toNat := by
  obtain ⟨y, hy⟩ : ∃ y, Config.IsMagnitude markWindow 16 2 y := ⟨_, rfl⟩
  obtain ⟨z, hz⟩ : ∃ z, Config.IsMagnitude markWindow 16 4 z := ⟨_, rfl⟩
  have hy' := magnitude_markWindow_two hy
  have hz' := magnitude_markWindow_four hz
  exact mag_lt_of_nearWindow num h rfl (by decide) (by decide) hy hz (by linarith)


/-! ### The registers of the scenario (95_test_vectors SV1) -/

/-- The parameters and the operand registers of the scenario. -/
def Scenario (s : State) : Prop :=
  s.params.SizesOk ∧ 64 ≤ s.params.waveDepth ∧ 4 ≤ s.params.log2nMax ∧ s.srate = 9600 ∧ s.symdurNum = 1 ∧
  s.symdurDen = 1200 ∧ s.fSpace = 1200 ∧ s.fMark = 2200 ∧ s.ampl = 32767 ∧ s.bandLo = 1000 ∧ s.bandHi = 2500 ∧
  s.level = 0

section Registers

variable {s : State} (h : Scenario s)
include h

theorem scenario_sps : s.sps = 8 := by
  obtain ⟨-, -, -, hsrate, hnum, hden, -⟩ := h
  rw [State.sps, hsrate, hnum, hden]
  rfl

theorem scenario_carriersSet : s.carriersSet = true := by
  obtain ⟨-, -, -, hsrate, -, -, hspace, hmark, -⟩ := h
  rw [carriersSet_iff, hsrate, hspace, hmark]
  decide

theorem scenario_durationSet : s.durationSet = true := by
  have hsps := scenario_sps h
  obtain ⟨-, -, -, -, -, hden, -⟩ := h
  rw [durationSet_iff, hsps, hden]
  decide

theorem scenario_sps_le_winMax : s.sps ≤ s.params.winMax := by
  rw [scenario_sps h, Config.Params.winMax]
  obtain ⟨-, -, hlog, -⟩ := h
  have hpow : 2 ^ 4 ≤ 2 ^ s.params.log2nMax := Nat.pow_le_pow_right (by decide) hlog
  omega

/-- SYMBUF holds a byte's symbols, whatever the parameters (00_scope R5). -/
theorem scenario_symDepth : 8 ≤ s.params.symDepth := by
  obtain ⟨⟨-, ⟨hsym, -⟩, -⟩, -⟩ := h
  exact hsym

/-- The band 1000 to 2500 Hz holds the bins at 1200, 1800 and 2400 Hz. -/
theorem scenario_survivors : s.survivors 16 = [2, 3, 4] := by
  obtain ⟨-, -, -, hsrate, -, -, -, -, -, hlo, hhi, -⟩ := h
  have hsurv (k : Nat) : s.survives 16 k = decide ((1000 * 16 : Int) ≤ signedBin 16 k * 9600 ∧
      signedBin 16 k * 9600 ≤ (2500 * 16 : Int)) := by
    rw [State.survives, hsrate, hlo, hhi]
    rfl
  rw [State.survivors, funext hsurv]
  decide

/-- Of these bins only 1200 Hz is nearer to the space carrier. -/
theorem scenario_decide01 {k : Nat} (hk : k ∈ [2, 3, 4]) : s.decide01 16 k = decide (k ≠ 2) := by
  obtain ⟨-, -, -, hsrate, -, -, hspace, hmark, -⟩ := h
  simp only [State.decide01, hsrate, hspace, hmark]
  revert k
  decide

end Registers

/-! ### The decision on each symbol -/

/-- The window of eight samples that a valid symbol is rounded to. -/
def tonedWindow (c : Byte) : List Sample := if c = 0x31 then markWindow else exampleWindow

theorem tonedWindow_length (c : Byte) : (tonedWindow c).length = 8 := by
  unfold tonedWindow
  split <;> rfl

/-- What MOD writes for a valid symbol, whatever the NUM. -/
theorem symbolWave_nearWindow (num : Config.Numerics) {s : State} (h : Scenario s) {c : Byte}
    (hc : c = 0x30 ∨ c = 0x31) : NearWindow (s.symbolWave num c) (tonedWindow c) := by
  have hsps := scenario_sps h
  obtain ⟨-, -, -, hsrate, -, -, hspace, hmark, hampl, -⟩ := h
  have hne : s.srate ≠ 0 := by rw [hsrate]; decide
  rcases hc with rfl | rfl
  · have hr : Config.IsRne ((32767 : ℕ) * Real.sin (Real.pi / 4)) (23170 : ℕ) :=
      isRne_sin_pi_div_four (by decide) (by norm_num) (by norm_num)
    have htone : RoundedTone s.ampl.toNat (s.carrier 0x30) s.srate.toNat
        [0, 23170, 32767, 23170, 0, -23170, -32767, -23170] := by
      rw [State.carrier, hsrate, hspace, hampl]
      exact roundedTone_space hr
    exact symbolWave_near num hne htone hsps.symm
  · have htone : RoundedTone s.ampl.toNat (s.carrier 0x31) s.srate.toNat
        [0, 32487, 8481, -30273, -16384, 25996, 23170, -19947] := by
      rw [State.carrier, hsrate, hmark, hampl]
      exact roundedTone_mark
    exact symbolWave_near num hne htone hsps.symm

/-- Classify decides the symbol from any window near its tone: bin 2 is the peak of a space symbol and not of a mark
symbol (`mag_space`, `mag_mark`). -/
theorem classify_nearWindow (num : Config.Numerics) {s : State} (h : Scenario s) {c : Byte} (hc : c = 0x30 ∨ c = 0x31)
    {seg : List Sample} (hseg : NearWindow seg (tonedWindow c)) : symbolOf (s.classify num seg).bit = c := by
  have hn : pow2gt seg.length = 16 := by rw [hseg.length_eq, tonedWindow_length]; rfl
  have hsurv := scenario_survivors h
  obtain ⟨hpeak, hmax⟩ := classify_peak_of_survivors num s seg (by rw [hn, hsurv]; decide)
  rw [hn, hsurv] at hpeak hmax
  have hbit : (s.classify num seg).bit = decide ((s.classify num seg).peak ≠ 2) := by
    rw [← scenario_decide01 h hpeak, ← hn]
    rfl
  generalize (s.classify num seg).peak = p at *
  rw [hbit]
  rcases hc with rfl | rfl
  · have htwo : p = 2 := by
      by_contra hne
      exact (hmax 2 (by decide)).1.not_gt (mag_space num hseg (by simpa [hne] using hpeak))
    rw [htwo]
    rfl
  · have htwo : p ≠ 2 := by
      rintro rfl
      exact (hmax 4 (by decide)).1.not_gt (mag_mark num hseg)
    rw [decide_eq_true htwo]
    rfl

/-! ### The stages of the pipeline -/

/-- The symbols of the byte 0x41, bit 7 first. -/
def sourceSymbols : List Byte := [0x30, 0x31, 0x30, 0x30, 0x30, 0x30, 0x30, 0x31]

theorem sourceSymbols_valid {j : Nat} {c : Byte} (hj : sourceSymbols[j]? = some c) : c = 0x30 ∨ c = 0x31 := by
  have hall : ∀ c ∈ sourceSymbols, c = 0x30 ∨ c = 0x31 := by decide
  exact hall c (List.mem_of_getElem? hj)

/-- SYMBUF holds the symbols of the byte. -/
def HoldsSymbols (s : State) : Prop := s.symLen = 8 ∧ (List.range 8).map s.symAt = sourceSymbols

/-- WAVE[b] holds a waveform of the symbols, each sample up to one unit. -/
def HoldsWave (b : Bank) (s : State) : Prop :=
  s.waveLen b = 64 ∧ ∀ j c, sourceSymbols[j]? = some c → NearWindow (s.segment b (j * 8) 8) (tonedWindow c)

/-- A list is its entries in order. -/
theorem map_range_eq {α : Type} {f : Nat → α} {l : List α} (h : ∀ j c, l[j]? = some c → f j = c) :
    (List.range l.length).map f = l :=
  List.ext_getElem (by simp) fun i _ hi => by simpa using h i _ (List.getElem?_eq_getElem hi)

/-- B2S writes the symbols of the byte. -/
theorem runB2s_scenario {s : State} (h : Scenario s) (hlen : s.byteLen = 1) (hbyte : s.byteAt 0 = 0x41) :
    ∃ u, runB2s s = .ok u ∧ u.err = s.err ∧ Scenario u ∧ HoldsSymbols u := by
  have hsym := scenario_symDepth h
  obtain ⟨⟨-, -, ⟨hdepth, -⟩, -⟩, -⟩ := id h
  have hlen1 : s.byteLen.toNat = 1 := by rw [hlen]; rfl
  have hvs : ((List.range s.byteLen.toNat).flatMap fun i => symbolsOfByte (s.byteAt i)) = sourceSymbols := by
    rw [hlen1]
    simp only [List.range_one, List.flatMap_singleton, hbyte]
    decide
  refine ⟨_, runB2s_ok.mpr ⟨by omega, by omega, rfl⟩, rfl, h, ?_⟩
  rw [hvs]
  exact ⟨rfl, map_range_eq (l := sourceSymbols) fun j c hj => by rw [symAt_storeSymbols, hj, Option.getD_some]⟩

/-- Each symbol's samples after MOD are that symbol's wave. -/
theorem runMod_segment {num : Config.Numerics} {d : Bank} {s u : State} (hu : runMod num d s = .ok u) {j : Nat}
    {c : Byte} (hj : s.validSymbols[j]? = some c) : u.segment d (j * s.sps) s.sps = s.symbolWave num c :=
  List.map_congr_left fun n hn => BitVec.eq_of_toInt_eq <|
    (runMod_sample hu hj (List.mem_range.mp hn)).trans (quantise_toInt num 0 [s.carrierTone c n]).symm

/-- MOD turns the symbols into their waveform. -/
theorem runMod_scenario (num : Config.Numerics) {s : State} (h : Scenario s) (hsyms : HoldsSymbols s) :
    ∃ u, runMod num .wave0 s = .ok u ∧ u.err = s.err ∧ Scenario u ∧ HoldsWave .wave0 u := by
  obtain ⟨hlen, hsym⟩ := hsyms
  have hsps := scenario_sps h
  have hvalid : s.validSymbols = sourceSymbols := by
    rw [State.validSymbols, hlen]
    exact (congrArg (List.filter isSymbol) hsym).trans (by decide)
  obtain ⟨hp, hdepth, -⟩ := id h
  obtain ⟨u, hu⟩ : ∃ u, runMod num .wave0 s = .ok u := by
    refine ⟨_, runMod_ok.mpr ⟨scenario_carriersSet h, scenario_durationSet h, ?_, ?_, rfl⟩⟩
    · rw [hlen]; exact scenario_symDepth h
    · rw [hsps, hvalid]; exact hdepth
  have hframe := runMod_frame hu
  refine ⟨u, hu, by rw [hframe], by rw [hframe]; exact h, ?_, fun j c hj => ?_⟩
  · refine BitVec.eq_of_toNat_eq ((runMod_counts hp hu).1.trans ?_)
    rw [hsps, hvalid]
    rfl
  · have hwave := runMod_segment hu (hvalid ▸ hj)
    rw [hsps] at hwave
    rw [hwave]
    exact symbolWave_nearWindow num h (sourceSymbols_valid hj)

/-- NOISE at level 0 copies the waveform. -/
theorem runNoise_scenario (num : Config.Numerics) {s : State} (h : Scenario s) (hw : HoldsWave .wave0 s) :
    ∃ u, runNoise num .wave0 .wave1 s = .ok u ∧ u.err = s.err ∧ Scenario u ∧ HoldsWave .wave1 u := by
  obtain ⟨hlen, hwave⟩ := hw
  obtain ⟨-, hdepth, -, -, -, -, -, -, -, -, -, hlevel⟩ := id h
  have hcfg : s.noiseCfgOk = true := by simp [State.noiseCfgOk, hlevel]
  refine ⟨_, runNoise_ok.mpr ⟨hcfg, by rw [hlen]; exact hdepth, .inl ⟨hlevel, rfl⟩⟩, rfl, h, ?_, fun j c hj => ?_⟩
  · rw [storeWave_waveLen_same, segment_length, hlen]
    rfl
  · have hj8 : j < 8 := (List.getElem?_eq_some_iff.mp hj).1
    have hcopy : (s.storeWave .wave1 (s.segment .wave0 0 (s.waveLen .wave0).toNat)).segment .wave1 (j * 8) 8 =
        s.segment .wave0 (j * 8) 8 := by
      refine List.map_congr_left fun n hn => ?_
      have hn8 := List.mem_range.mp hn
      have hlt : j * 8 + n < (64 : Word).toNat := by change _ < 64; omega
      rw [waveAt_storeWave_same, State.segment, hlen, List.getElem?_map, List.getElem?_range hlt, Option.map_some,
        Option.getD_some, Nat.zero_add]
    rw [hcopy]
    exact hwave j c hj

/-- DEMOD decides each symbol. -/
theorem runDemod_scenario (num : Config.Numerics) {s : State} (h : Scenario s) (hw : HoldsWave .wave1 s) :
    ∃ u, runDemod num .wave1 s = .ok u ∧ u.err = s.err ∧ Scenario u ∧ HoldsSymbols u := by
  obtain ⟨hlen, hwave⟩ := hw
  have hsps := scenario_sps h
  obtain ⟨hp, hdepth, -⟩ := id h
  have hcount : windowCount (s.waveLen .wave1).toNat s.sps = 8 := by rw [hlen, hsps]; rfl
  obtain ⟨u, hu⟩ : ∃ u, runDemod num .wave1 s = .ok u := by
    refine ⟨_, runDemod_ok.mpr ⟨scenario_carriersSet h, scenario_durationSet h, scenario_sps_le_winMax h, ?_, ?_, rfl⟩⟩
    · rw [hlen]; exact hdepth
    · rw [hcount]; exact scenario_symDepth h
  have hframe := runDemod_frame hu
  refine ⟨u, hu, by rw [hframe], by rw [hframe]; exact h, ?_, map_range_eq (l := sourceSymbols) fun j c hj => ?_⟩
  · exact BitVec.eq_of_toNat_eq ((runDemod_counts hu hp).1.trans hcount)
  · have hj8 : j < 8 := (List.getElem?_eq_some_iff.mp hj).1
    have hwindow : s.symbolWindow .wave1 j = s.segment .wave1 (j * 8) 8 := by
      have hshort : min 8 ((64 : Word).toNat - j * 8) = 8 := by change min 8 (64 - j * 8) = 8; omega
      rw [State.symbolWindow, hlen, hsps, hshort]
    rw [runDemod_symAt hu (hcount ▸ hj8), hwindow]
    exact classify_nearWindow num h (sourceSymbols_valid hj) (hwave j c hj)

/-- S2B puts the symbols together again. -/
theorem runS2b_scenario {s : State} (h : Scenario s) (hsyms : HoldsSymbols s) :
    ∃ u, runS2b s = .ok u ∧ u.err = s.err ∧ u.byteLen = 1 ∧ u.byteAt 0 = 0x41 := by
  obtain ⟨hlen, hsym⟩ := hsyms
  have hdepth := scenario_symDepth h
  obtain ⟨⟨-, -, ⟨hbytes, -⟩, -⟩, -⟩ := h
  have hlen8 : s.symLen.toNat = 8 := by rw [hlen]; rfl
  have hchunk : s.chunk 0 = sourceSymbols := by
    simpa only [State.chunk, Nat.mul_zero, Nat.zero_add] using hsym
  have hvalid (i : Nat) (hi : i < 8 * (s.symLen.toNat / 8)) : s.symAt i = 0x30 ∨ s.symAt i = 0x31 := by
    refine sourceSymbols_valid (j := i) ?_
    rw [← hsym, List.getElem?_map, List.getElem?_range (by omega), Option.map_some]
  obtain ⟨u, hu⟩ : ∃ u, runS2b s = .ok u := ⟨_, runS2b_ok.mpr ⟨by omega, hvalid, by omega, rfl⟩⟩
  obtain ⟨hbyte, hcount, -⟩ := runS2b_bytes hu
  rw [hlen8] at hbyte hcount
  obtain ⟨-, -, -, hstore⟩ := runS2b_ok.mp hu
  refine ⟨u, hu, hstore ▸ rfl, BitVec.eq_of_toNat_eq hcount, ?_⟩
  rw [hbyte 0 (by decide), hchunk]
  decide

/-- Settles O60: the five stages in turn; each leaves the registers of the scenario and what the next stage reads. -/
theorem sourceScenario : Obligations.SourceScenario := by
  intro profile s hp hdepth hlog hsrate hnum hden hspace hmark hampl hlo hhi hlevel hlen hbyte run
  have h0 : Scenario s := ⟨hp, hdepth, hlog, hsrate, hnum, hden, hspace, hmark, hampl, hlo, hhi, hlevel⟩
  obtain ⟨u1, hu1, herr1, h1, hsyms1⟩ := runB2s_scenario (s := s.accept (encode .b2s)) h0 hlen hbyte
  obtain ⟨u2, hu2, herr2, h2, hwave2⟩ :=
    runMod_scenario profile (s := u1.succeed.accept (encode (.mod .wave0))) h1 hsyms1
  obtain ⟨u3, hu3, herr3, h3, hwave3⟩ :=
    runNoise_scenario profile (s := u2.succeed.accept (encode (.noise .wave0 .wave1))) h2 hwave2
  obtain ⟨u4, hu4, herr4, h4, hsyms4⟩ :=
    runDemod_scenario profile (s := u3.succeed.accept (encode (.demod .wave1))) h3 hwave3
  obtain ⟨u5, hu5, herr5, hlen5, hbyte5⟩ := runS2b_scenario (s := u4.succeed.accept (encode .s2b)) h4 hsyms4
  exact ⟨u1.succeed, u2.succeed, u3.succeed, u4.succeed, u5.succeed, execUnder_of_ok hu1, execUnder_of_ok hu2,
    execUnder_of_ok hu3, execUnder_of_ok hu4, execUnder_of_ok hu5, herr1, herr2, herr3, herr4, herr5, hwave2.1,
    hsyms4.1, hsyms4.2, hlen5, hbyte5⟩

end Sys2Proof.Proofs

/-! SUPPORT. NOISE (45_noise): what it leaves at every level, the terms of a sample by the numbers of their draws, the
generator, and what follows for DEMOD of the noisy bank and for the distance from the ideal sample. -/

namespace Sys2Proof.Proofs

open Sys2Proof Sys2Proof.Machine

/-! ### What NOISE leaves (45_noise R227, R240, R242) -/

/-- The samples a successful NOISE writes, at every level and length. -/
def noiseOutput (num : Config.Numerics) (b : Bank) (s : State) : List Sample :=
  if s.level = 0 then s.segment b 0 (s.waveLen b).toNat
  else s.noisy num b s.noiseRow (drawNoise s.noiseRow (s.waveLen b).toNat s.rngState)

/-- The generator state a successful NOISE leaves. -/
def noiseRng (b : Bank) (s : State) : BitVec 64 :=
  if s.level = 0 ∨ s.waveLen b = 0 then s.rngState
  else (drawNoise s.noiseRow (s.waveLen b).toNat s.rngState).rng

@[simp] theorem noiseOutput_length (num : Config.Numerics) (b : Bank) (s : State) :
    (noiseOutput num b s).length = (s.waveLen b).toNat := by
  unfold noiseOutput
  split
  · exact segment_length ..
  · exact noisy_length ..

section RunNoise

variable {num : Config.Numerics} {b d : Bank} {s u : State} (hu : runNoise num b d s = .ok u)
include hu

/-- The three branches of a successful NOISE are one: on an empty waveform the output is empty. -/
theorem runNoise_eq : u = { s.storeWave d (noiseOutput num b s) with rngState := noiseRng b s } := by
  obtain ⟨-, -, ⟨hl, rfl⟩ | ⟨hl, hw, rfl⟩ | ⟨hl, hw, rfl⟩⟩ := runNoise_ok.mp hu
  · rw [noiseOutput, noiseRng, if_pos hl, if_pos (.inl hl), ← storeWave_rngState]
  · have hnil : noiseOutput num b s = [] := List.eq_nil_of_length_eq_zero (by rw [noiseOutput_length, hw])
    rw [hnil, noiseRng, if_pos (.inr ((toNat_eq_zero_iff _).mp hw)), ← storeWave_rngState]
  · have hw' : s.waveLen b ≠ 0 := fun h => hw ((toNat_eq_zero_iff _).mpr h)
    rw [noiseOutput, noiseRng, if_neg hl, if_neg (not_or.mpr ⟨hl, hw'⟩)]

/-- The new length is the source's. -/
theorem runNoise_waveLen : u.waveLen d = s.waveLen b := by
  rw [runNoise_eq hu]
  change (s.storeWave d _).waveLen d = _
  rw [storeWave_waveLen_same, noiseOutput_length, BitVec.ofNat_toNat, BitVec.setWidth_eq]

theorem runNoise_waveAt (k : Nat) : u.waveAt d k = (noiseOutput num b s)[k]?.getD (s.waveAt d k) := by
  rw [runNoise_eq hu]
  exact waveAt_storeWave_same ..

/-- Entries at and above the new length keep their values. -/
theorem runNoise_above {k : Nat} (hk : (s.waveLen b).toNat ≤ k) : u.waveAt d k = s.waveAt d k := by
  rw [runNoise_waveAt hu, List.getElem?_eq_none (by rwa [noiseOutput_length]), Option.getD_none]

/-- The bank that is not the destination keeps its length and its samples. -/
theorem runNoise_other {c : Bank} (hc : c ≠ d) : u.waveLen c = s.waveLen c ∧ ∀ k, u.waveAt c k = s.waveAt c k := by
  rw [runNoise_eq hu]
  exact ⟨storeWave_waveLen_other hc _ s, waveAt_storeWave_other hc _ s⟩

/-- NOISE writes no register but WAVE_LEN and RNG_STATE, and no buffer but the waveform banks. -/
theorem runNoise_frame :
    u = { s with mem := { s.mem with wave0 := u.mem.wave0, wave1 := u.mem.wave1 },
                 waveLen0 := u.waveLen0, waveLen1 := u.waveLen1, rngState := u.rngState } := by
  rw [runNoise_eq hu]
  cases d <;> rfl

/-- At level 0 and on an empty waveform no word is drawn. -/
theorem runNoise_rngState_kept (h : s.level = 0 ∨ s.waveLen b = 0) : u.rngState = s.rngState := by
  rw [runNoise_eq hu, noiseRng, if_pos h]

/-- The number of draws of 45_noise R242. -/
theorem runNoise_rngState (hl : s.level ≠ 0) (hw : s.waveLen b ≠ 0) : u.rngState = genAfter s.rngState
    (1 + (s.waveLen b).toNat + 2 * s.noiseRow.impN.toNat + s.noiseRow.bandN.toNat) := by
  rw [runNoise_eq hu, noiseRng, if_neg (not_or.mpr ⟨hl, hw⟩), drawNoise_eq]

/-- At level 0 the samples are the source's. -/
theorem runNoise_copy (hl : s.level = 0) {i : Nat} (hi : i < (s.waveLen b).toNat) : u.waveAt d i = s.waveAt b i := by
  rw [runNoise_waveAt hu, noiseOutput, if_pos hl, State.segment, List.getElem?_map, List.getElem?_range hi,
    Option.map_some, Option.getD_some, Nat.zero_add]

end RunNoise

/-- Settles O46: the copy is `runNoise_copy`; in place the copied entries and those above the length are all of the
bank. -/
theorem noiseLevelZero : Obligations.NoiseLevelZero := by
  intro b d s hs hl
  obtain ⟨u, hu⟩ := runOf_of_succeeds hs
  have hframe := runNoise_frame hu
  have hrng := runNoise_rngState_kept hu (.inl hl)
  rw [hrng] at hframe
  refine ⟨u.succeed, exec_of_ok hu, fun i hi => (runNoise_copy hu hl hi :), (runNoise_waveLen hu :), hrng,
    fun i hi => (runNoise_above hu hi :), fun c hc => (runNoise_other hu hc :), ?_, congrArg State.succeed hframe⟩
  rintro rfl c k
  by_cases hc : c = b
  · subst hc
    rcases Nat.lt_or_ge k (s.waveLen c).toNat with hk | hk
    · exact runNoise_copy hu hl hk
    · exact runNoise_above hu hk
  · exact (runNoise_other hu hc).2 k

/-! ### The empty waveform (45_noise R240) -/

theorem fill_nil {w : Nat} (b : Buf w) : b.fill [] = b := by
  simp [Buf.fill, Buf.numbered]

theorem setWave_wave (m : Memory) (b : Bank) : m.setWave b (m.wave b) = m := by cases b <;> rfl

/-- NOISE on an empty waveform writes no entry. -/
theorem runNoise_mem_of_empty {num : Config.Numerics} {b d : Bank} {s u : State} (hu : runNoise num b d s = .ok u)
    (hw : s.waveLen b = 0) : u.mem = s.mem := by
  have hnil : noiseOutput num b s = [] := List.eq_nil_of_length_eq_zero (by rw [noiseOutput_length, hw]; rfl)
  rw [runNoise_eq hu, hnil]
  change (s.storeWave d []).mem = _
  rw [storeWave_mem, fill_nil, setWave_wave]

/-- Settles O48: no entry is written (`runNoise_mem_of_empty`) and no word drawn. -/
theorem noiseEmptyWaveform : Obligations.NoiseEmptyWaveform := by
  intro b d s hs _ hw
  obtain ⟨u, hu⟩ := runOf_of_succeeds hs
  have hframe := runNoise_frame hu
  rw [runNoise_mem_of_empty hu hw, runNoise_rngState_kept hu (.inr hw)] at hframe
  exact ⟨u.succeed, exec_of_ok hu, (runNoise_waveLen hu).trans hw, fun c hc => (runNoise_other hu hc).1,
    congrArg State.succeed hframe⟩

/-! ### The terms of a sample (45_noise R233 to R238) -/

/-- The part of the sum without a sine, by the numbers of its draws. -/
theorem steadyAt_drawNoise (num : Config.Numerics) (s : State) (b : Bank) (row : Config.NoiseRow) (g : BitVec 64)
    {i : Nat} (hi : i < (s.waveLen b).toNat) :
    (s.steadyAt num b row (drawNoise row (s.waveLen b).toNat g) i : ℝ) =
      (s.waveAt b i).toInt + row.sigma.toNat * (num.gauss (wordAt g (1 + i))).toInt / 4096 +
        ((∑ j ∈ Finset.range row.impN.toNat,
          if (wordAt g (1 + (s.waveLen b).toNat + 2 * j)).toNat % (s.waveLen b).toNat = i
          then spike row (wordAt g (1 + (s.waveLen b).toNat + 2 * j + 1)) else 0 : ℤ) : ℝ) := by
  have hgauss : ((drawNoise row (s.waveLen b).toNat g).gauss.getD i 0) = wordAt g (1 + i) := by
    rw [drawNoise_eq, List.getD_eq_getElem?_getD, List.getElem?_map, List.getElem?_range hi, Option.map_some,
      Option.getD_some]
  rw [State.steadyAt, hgauss, drawNoise_eq, impulseAt_eq, white, numGauss]
  simp only [Rat.cast_add, Rat.cast_div, Rat.cast_intCast, Rat.cast_ofNat, Rat.cast_mul, Int.cast_mul,
    Rat.cast_natCast, Int.cast_natCast]
  rfl

/-- The tones of the sum, by the numbers of their draws. -/
theorem tonesAt_drawNoise (num : Config.Numerics) (s : State) (row : Config.NoiseRow) (len : Nat) (g : BitVec 64)
    (i : Nat) :
    ((s.tonesAt row (drawNoise row len g) i).map fun t => (t.amp : ℝ) * num.sin t.p t.q).sum =
      row.hum.toNat * num.sin (humHertz (wordAt g 0) * i) s.srate.toNat +
        ∑ j ∈ Finset.range row.bandN.toNat, row.bandA.toNat * num.sin
          (toneHertz s.bandLo.toNat s.bandHi.toNat row.bandN.toNat j * i * 65536 +
            (wordAt g (1 + len + 2 * row.impN.toNat + j)).toNat % 65536 * s.srate.toNat) (s.srate.toNat * 65536) := by
  rw [State.tonesAt, List.map_cons, List.sum_cons, drawNoise_eq, bandTones_eq, sum_tones]
  rfl

/-- Settles O47: the sum that is rounded has its terms by the numbers of their draws (`steadyAt_drawNoise`,
`tonesAt_drawNoise`). -/
theorem noiseResult : Obligations.NoiseResult := by
  intro b d s hs hl hw len row gen word fh pos spikeOf phase tone
  obtain ⟨u, hu⟩ := runOf_of_succeeds hs
  have hframe := runNoise_frame hu
  refine ⟨u.succeed, exec_of_ok hu, fun i hi => ⟨_, ?_, runNoise_sample hu hl hi⟩, (runNoise_waveLen hu :),
    (runNoise_rngState hu hl hw :), fun i hi => (runNoise_above hu hi :), fun c hc => (runNoise_other hu hc :),
    congrArg State.succeed hframe⟩
  have hrne := num.rne_spec (s.steadyAt num b row (drawNoise row len s.rngState) i)
    (s.tonesAt row (drawNoise row len s.rngState) i)
  rw [steadyAt_drawNoise num s b row s.rngState hi, tonesAt_drawNoise, ← add_assoc,
    add_right_comm _ _ ((row.hum.toNat : ℝ) * _)] at hrne
  exact hrne

/-- Settles O49: RNG_STATE, the copy and the rounded sum are functions of the registers and the sample named. -/
theorem noiseDeterminedBySeed : Obligations.NoiseDeterminedBySeed := by
  intro b b' d d' s s' hs hs' hparams hsrate hlevel hlo hhi hrng hlen
  obtain ⟨u, hu⟩ := runOf_of_succeeds hs
  obtain ⟨u', hu'⟩ := runOf_of_succeeds hs'
  have hrow : s.noiseRow = s'.noiseRow := by rw [State.noiseRow, State.noiseRow, hparams, hlevel]
  have hrng' : noiseRng b s = noiseRng b' s' := by rw [noiseRng, noiseRng, hlevel, hlen, hrng, hrow]
  refine ⟨_, _, exec_of_ok hu, exec_of_ok hu', ?_, ?_, fun i hi hin => ?_⟩
  · exact (runNoise_waveLen hu).trans (hlen.trans (runNoise_waveLen hu').symm)
  · rw [succeed_rngState, succeed_rngState, runNoise_eq hu, runNoise_eq hu']
    exact hrng'
  · have hi' : i < (s'.waveLen b').toNat := hlen ▸ hi
    rw [succeed_waveAt, succeed_waveAt]
    by_cases hl : s.level = 0
    · rw [runNoise_copy hu hl hi, runNoise_copy hu' (hlevel ▸ hl) hi', hin]
    · refine BitVec.eq_of_toInt_eq ?_
      rw [runNoise_sample hu hl hi, runNoise_sample hu' (hlevel ▸ hl) hi', hrow, hrng, hlen]
      simp only [State.steadyAt, State.tonesAt, hin, hlen, hsrate, hlo, hhi]

/-! ### The generator (45_noise R242) -/

/-- No command but NOISE draws. -/
theorem runOf_rngState {i : Instr} {s u : State} (hi : ∀ b d, i ≠ .noise b d) (hu : runOf i s = .ok u) :
    u.rngState = s.rngState := by
  cases i with
  | nop => cases hu; rfl
  | b2s => obtain ⟨-, -, rfl⟩ := runB2s_ok.mp hu; rfl
  | s2b => obtain ⟨-, -, -, rfl⟩ := runS2b_ok.mp hu; rfl
  | mod d => rw [runMod_frame hu]
  | anlz b => rw [runAnlz_frame hu]
  | demw b => rw [runDemw_frame hu]
  | demod b => rw [runDemod_frame hu]
  | noise b d => exact absurd rfl (hi b d)

/-- A NOISE that gives its updates meets no condition of 60_exceptions. -/
theorem succeeds_of_runNoise {num : Config.Numerics} {b d : Bank} {s u : State} (hu : runNoise num b d s = .ok u) :
    Succeeds (.noise b d) s := by
  obtain ⟨hcfg, hfit, -⟩ := runNoise_ok.mp hu
  exact ⟨(noiseCfgOk_iff b d s).mp hcfg, hfit.not_gt, by simp [badSymFails], id⟩

/-- Settles O54: a NOISE that gave updates succeeded, so the draws are those of its level and length. -/
theorem generatorAdvance : Obligations.GeneratorAdvance := by
  intro i s t h
  obtain ⟨c, hc, rfl⟩ | ⟨u, hu, rfl⟩ := exec_next.mp h
  · refine ⟨fun _ => rfl, fun b d _ => ⟨fun hdraw => ?_, fun _ => rfl⟩⟩
    obtain ⟨u, hu⟩ := runOf_of_succeeds hdraw.1
    rw [hc] at hu
    cases hu
  · refine ⟨fun hi => (runOf_rngState hi hu :), ?_⟩
    rintro b d rfl
    refine ⟨fun ⟨_, hl, hw⟩ => (runNoise_rngState hu hl hw :), fun hnot => (runNoise_rngState_kept hu ?_ :)⟩
    by_contra hkeep
    exact hnot ⟨succeeds_of_runNoise hu, not_or.mp hkeep⟩

/-! ### NOISE, then DEMOD, then S2B (45_noise R239) -/

/-- DEMOD succeeds on the noisy bank where it does on the source: the length is the source's, and no register it checks
is written. -/
theorem runDemod_after_runNoise {num : Config.Numerics} {b d : Bank} {s u v : State} {w w' : Word}
    (hu : runNoise num b d (s.accept w) = .ok u) (hv : runDemod num b s = .ok v) :
    ∃ v', runDemod num d (u.succeed.accept w') = .ok v' := by
  obtain ⟨hcar, hdur, hmax, hdepth, hfit, -⟩ := runDemod_ok.mp hv
  have hlen : (u.succeed.accept w').waveLen d = s.waveLen b := (runNoise_waveLen hu :)
  refine ⟨_, runDemod_ok.mpr ⟨?_, ?_, ?_, ?_, ?_, rfl⟩⟩
  · rw [runNoise_frame hu]; exact hcar
  · rw [runNoise_frame hu]; exact hdur
  · rw [runNoise_frame hu]; exact hmax
  · rw [hlen, runNoise_frame hu]; exact hdepth
  · rw [hlen, runNoise_frame hu]; exact hfit

/-- S2B succeeds after DEMOD when its bytes fit: every symbol DEMOD writes is valid (44_demodulator R215). -/
theorem runS2b_after_runDemod {num : Config.Numerics} {b : Bank} {s u : State} (w : Word) (hp : s.params.SizesOk)
    (hu : runDemod num b s = .ok u) (hbytes : windowCount (s.waveLen b).toNat s.sps / 8 ≤ s.params.byteDepth) :
    ∃ v, runS2b (u.succeed.accept w) = .ok v := by
  obtain ⟨-, -, -, -, hfit, -⟩ := runDemod_ok.mp hu
  have hlen : (u.succeed.accept w).symLen.toNat = windowCount (s.waveLen b).toNat s.sps := (runDemod_counts hu hp).1
  have hparams : (u.succeed.accept w).params = s.params := by rw [runDemod_frame hu]; rfl
  refine ⟨_, runS2b_ok.mpr ⟨by rwa [hlen, hparams], fun i hi => ?_, by rwa [hlen, hparams], rfl⟩⟩
  rw [accept_symAt, succeed_symAt, runDemod_symAt hu (by omega)]
  exact symbolOf_valid _

/-- Settles O50: each command's success carries over to the next (`runDemod_after_runNoise`, `runS2b_after_runDemod`),
and none of them writes ERR, which acceptance cleared. -/
theorem noisyPipelineCompletes : Obligations.NoisyPipelineCompletes := by
  intro b d s hp hs hdem hbytes
  obtain ⟨_, hdem⟩ := runOf_of_succeeds hdem
  obtain ⟨t, ht⟩ := runOf_of_succeeds (i := .noise b d) (s := s.accept (encode (.noise b d))) hs
  obtain ⟨u, hu⟩ := runDemod_after_runNoise (w' := encode (.demod d)) ht hdem
  have hlen : (t.succeed.accept (encode (.demod d))).waveLen d = s.waveLen b := (runNoise_waveLen ht :)
  have hsps : (t.succeed.accept (encode (.demod d))).sps = s.sps := by rw [runNoise_frame ht]; rfl
  have hparams : (t.succeed.accept (encode (.demod d))).params = s.params := by rw [runNoise_frame ht]; rfl
  obtain ⟨hcount, -⟩ := runDemod_counts hu (hparams ▸ hp)
  obtain ⟨v, hv⟩ := runS2b_after_runDemod (encode .s2b) (hparams ▸ hp) hu (by rwa [hlen, hsps, hparams])
  obtain ⟨-, hbyteLen, -⟩ := runS2b_bytes hv
  rw [hlen, hsps] at hcount
  refine ⟨t.succeed, u.succeed, v.succeed, exec_of_ok ht, exec_of_ok hu, exec_of_ok hv, ?_, ?_, ?_, hcount, hbyteLen⟩
  · rw [runNoise_frame ht]; rfl
  · rw [runDemod_frame hu]; rfl
  · obtain ⟨-, -, -, rfl⟩ := runS2b_ok.mp hv; rfl

/-! ### Tolerance under any NUM (45_noise R245 (g)) -/

/-- A sum of scaled sines is within Σ amp × EPS_SIN of the exact one (00_scope R6 (a)). -/
theorem sum_tones_near (num : Config.Numerics) {ts : List Config.Tone} (h : ∀ t ∈ ts, 0 < t.q) :
    |(ts.map fun t => (t.amp : ℝ) * num.sin t.p t.q).sum -
        (ts.map fun t => (t.amp : ℝ) * Real.sin (2 * Real.pi * t.p / t.q)).sum| ≤
      (ts.map fun t => t.amp).sum * (num.epsSin : ℝ) := by
  induction ts with
  | nil => simp
  | cons t ts ih =>
    obtain ⟨ht, hts⟩ := List.forall_mem_cons.mp h
    simp only [List.map_cons, List.sum_cons, Nat.cast_add, add_mul, add_sub_add_comm]
    exact (abs_add_le _ _).trans (add_le_add (scaledSine_near num t.amp t.p ht) (ih hts))

/-- The amplitudes of the tones of a sample: the hum's and those of the band tones. -/
theorem sum_amp_tonesAt (s : State) (row : Config.NoiseRow) (len : Nat) (g : BitVec 64) (i : Nat) :
    ((s.tonesAt row (drawNoise row len g) i).map fun t => t.amp).sum =
      row.hum.toNat + row.bandN.toNat * row.bandA.toNat := by
  rw [State.tonesAt, drawNoise_eq, bandTones_eq]
  simp [humTone, Function.comp_def]

/-- The sines of NOISE have a denominator, as EPS_SIN asks. -/
theorem tonesAt_q_pos {s : State} (hs : s.srate ≠ 0) (row : Config.NoiseRow) (r : NoiseDraws) (i : Nat) :
    ∀ t ∈ s.tonesAt row r i, 0 < t.q := by
  have hq : 0 < s.srate.toNat := toNat_pos_of_ne hs
  intro t ht
  obtain rfl | ht := List.mem_cons.mp ht
  · exact hq
  · obtain ⟨j, hj, rfl⟩ := List.mem_mapIdx.mp ht
    exact Nat.mul_pos hq (by decide)

/-- The largest of the reference table is its top row's, 4000 + 8 × 8000 (45_noise R230). -/
theorem referenceNtab_amplitudes : ∀ row ∈ Config.referenceNtab,
    row.hum.toNat + row.bandN.toNat * row.bandA.toNat ≤ 68000 := by decide

/-- Settles O57: the two sums differ in their tones alone (`sum_tones_near`, `sum_amp_tonesAt`), and no row of the
reference table has amplitudes above 68000. -/
theorem noiseTolerance : Obligations.NoiseTolerance := by
  constructor
  · intro b d s i m hs hl hi row r sum bound vStar
    obtain ⟨u, hu⟩ := runOf_of_succeeds hs
    obtain ⟨hcfg, -⟩ := hs
    have hsrate : s.srate ≠ 0 := fun h => hcfg (.inr (.inl ⟨toNat_pos_of_ne hl, h⟩))
    have hnear : |sum num.sin - vStar| ≤ bound := by
      have h := sum_tones_near num (tonesAt_q_pos hsrate row r i)
      rw [sum_amp_tonesAt] at h
      push_cast at h
      rwa [← add_sub_add_left_eq_sub _ _ (s.steadyAt num b row r i : ℝ)] at h
    refine ⟨hnear, fun hsmall hm => ⟨u.succeed, exec_of_ok hu, ?_⟩⟩
    rw [succeed_waveAt, runNoise_sample hu hl hi]
    exact clip_close (isRne_close (num.rne_spec _ _) hm (hnear.trans_lt (by linarith)))
  · intro row hrow
    have hamp : ((row.hum.toNat + row.bandN.toNat * row.bandA.toNat : ℕ) : ℝ) ≤ 68000 := by
      exact_mod_cast referenceNtab_amplitudes row hrow
    calc _ ≤ (68000 : ℝ) * (1 / 2 ^ 18) :=
        mul_le_mul hamp (epsSin_le num) (by exact_mod_cast num.epsSin_bounds.1) (by norm_num)
      _ < 0.26 := by norm_num

end Sys2Proof.Proofs

/-! SUPPORT. When a command fails and with which code (60_exceptions R262 to R268), and what lowers the interrupt line
(60_exceptions R275). -/

namespace Sys2Proof.Proofs

open Sys2Proof Sys2Proof.Machine

/-! ### The checks of the runs against the rows of the tables (60_exceptions R264 to R266)

Each right side is the condition the run tests; the other rows are the run's tests as they stand. -/

theorem cfgFails_mod_iff (d : Bank) (s : State) :
    cfgFails (.mod d) s ↔ (!(s.carriersSet && s.durationSet)) = true := by
  rw [Bool.not_eq_true', ← Bool.not_eq_true, Bool.and_eq_true, carriersSet_iff, durationSet_iff]
  tauto

theorem cfgFails_demw_iff (b : Bank) (s : State) : cfgFails (.demw b) s ↔ (!s.carriersSet) = true := by
  rw [Bool.not_eq_true', ← Bool.not_eq_true, carriersSet_iff]
  tauto

theorem cfgFails_demod_iff (b : Bank) (s : State) : cfgFails (.demod b) s ↔
    (!(s.carriersSet && s.durationSet && decide (s.sps ≤ s.params.winMax))) = true := by
  rw [Bool.not_eq_true', ← Bool.not_eq_true, Bool.and_eq_true, Bool.and_eq_true, carriersSet_iff, durationSet_iff,
    decide_eq_true_eq, ← Nat.not_lt]
  tauto

theorem cfgFails_noise_iff (b d : Bank) (s : State) : cfgFails (.noise b d) s ↔ (!s.noiseCfgOk) = true := by
  rw [Bool.not_eq_true', ← Bool.not_eq_true, noiseCfgOk_iff b d, not_not]

/-- The window check of ANLZ; DEMW's row of R265 is the same. -/
theorem rangeFails_anlz_iff (b : Bank) (s : State) : rangeFails (.anlz b) s ↔ (!s.windowOk b) = true := by
  rw [Bool.not_eq_true', ← Bool.not_eq_true, windowOk_iff]
  simp only [rangeFails, ← Nat.not_le]
  tauto

theorem badSymFails_s2b_iff (s : State) : badSymFails .s2b s ↔
    (!((List.range (8 * (s.symLen.toNat / 8))).all fun i => isSymbol (s.symAt i))) = true := by
  rw [Bool.not_eq_true', ← Bool.not_eq_true, allSymbols_iff]
  simp [badSymFails]

/-! ### The first condition that holds gives the code (60_exceptions R268) -/

theorem runOf_of_cfgFails {i : Instr} {s : State} (h : cfgFails i s) : runOf i s = .error .cfg := by
  cases i with
  | nop | b2s | s2b | anlz => exact h.elim
  | mod d => exact if_pos ((cfgFails_mod_iff d s).mp h)
  | demw b => exact if_pos ((cfgFails_demw_iff b s).mp h)
  | demod b => exact if_pos ((cfgFails_demod_iff b s).mp h)
  | noise b d => exact if_pos ((cfgFails_noise_iff b d s).mp h)

theorem runOf_of_rangeFails {i : Instr} {s : State} (hcfg : ¬cfgFails i s) (h : rangeFails i s) :
    runOf i s = .error .range := by
  cases i with
  | nop => exact h.elim
  | b2s | s2b => exact if_pos h
  | mod d => exact (if_neg (mt (cfgFails_mod_iff d s).mpr hcfg)).trans (if_pos h)
  | anlz b => exact if_pos ((rangeFails_anlz_iff b s).mp h)
  | demw b => exact (if_neg (mt (cfgFails_demw_iff b s).mpr hcfg)).trans (if_pos ((rangeFails_anlz_iff b s).mp h))
  | demod b => exact (if_neg (mt (cfgFails_demod_iff b s).mpr hcfg)).trans (if_pos h)
  | noise b d => exact (if_neg (mt (cfgFails_noise_iff b d s).mpr hcfg)).trans (if_pos h)

/-- S2B is the only command that looks for invalid symbols. -/
theorem runOf_of_badSymFails {i : Instr} {s : State} (hrange : ¬rangeFails i s) (h : badSymFails i s) :
    runOf i s = .error .badSym := by
  obtain rfl : i = .s2b := h.1
  exact (if_neg hrange).trans (if_pos ((badSymFails_s2b_iff s).mp h))

theorem runOf_of_ovfFails {i : Instr} {s : State} (hcfg : ¬cfgFails i s) (hrange : ¬rangeFails i s)
    (hsym : ¬badSymFails i s) (h : ovfFails i s) : runOf i s = .error .ovf := by
  cases i with
  | nop | anlz | demw | noise => exact h.elim
  | b2s => exact (if_neg hrange).trans (if_pos h)
  | s2b => exact (if_neg hrange).trans ((if_neg (mt (badSymFails_s2b_iff s).mpr hsym)).trans (if_pos h))
  | mod d => exact (if_neg (mt (cfgFails_mod_iff d s).mpr hcfg)).trans ((if_neg hrange).trans (if_pos h))
  | demod b => exact (if_neg (mt (cfgFails_demod_iff b s).mpr hcfg)).trans ((if_neg hrange).trans (if_pos h))

/-- A command that no condition stops keeps ERR and leaves ERRCODE 0, BUSY 0 and DONE 1 (40_command R133). -/
theorem exec_status_fields_of_succeeds {i : Instr} {s : State} (h : Succeeds i s) :
    ∃ t, exec i s = .next t ∧ t.err = s.err ∧ t.errCode = 0 ∧ t.busy = false ∧ t.fin = true := by
  obtain ⟨u, hu⟩ := runOf_of_succeeds h
  obtain ⟨-, -, -, -, -, -, herr, -⟩ := runOf_kept hu
  exact ⟨u.succeed, exec_of_ok hu, herr, rfl, rfl, rfl⟩

/-- Settles O13: each condition of the tables, when it is the first to hold, is the one its run stops at. -/
theorem failureTables : Obligations.FailureTables := by
  refine ⟨fun s hd => complete_none hd, fun i s => ⟨complete_some, fun hcfg => ?_, fun ⟨hcfg, hrange⟩ => ?_,
    fun ⟨_, hrange, hsym⟩ => ?_, fun ⟨hcfg, hrange, hsym, hovf⟩ => ?_, exec_status_fields_of_succeeds⟩⟩
  · exact exec_of_error (runOf_of_cfgFails hcfg)
  · exact exec_of_error (runOf_of_rangeFails hcfg hrange)
  · exact exec_of_error (runOf_of_badSymFails hrange hsym)
  · exact exec_of_error (runOf_of_ovfFails hcfg hrange hsym hovf)

/-! ### What lowers irq (60_exceptions R275) -/

/-- A write to STATUS, busy or idle, is the acknowledgement. -/
theorem hostWrite_status (s : State) (v : Word) : s.hostWrite (busAddr 0x01C) v = s.ackStatus v := by
  rw [hostWrite_reg (r := .status) rfl, Reg.writableBusy, Bool.not_true, Bool.and_false]
  rfl

/-- A write to CTRL, busy or idle, reaches the register. -/
theorem hostWrite_ctrl (s : State) (v : Word) : s.hostWrite (busAddr 0x014) v = s.writeCtrl v := by
  rw [hostWrite_reg (r := .ctrl) rfl, Reg.writableBusy, Bool.not_true, Bool.and_false]
  rfl

theorem ackStatus_irq {s : State} {v : Word} (h1 : bitOf v 1 = true) (h2 : bitOf v 2 = true) :
    (s.ackStatus v).irq = false := by
  simp [State.irq, h1, h2]

theorem resetAgain_irq (s : State) : s.resetAgain.irq = false := rfl

/-- With both enable bits 0 the write lowers irq, whether it resets or stores them. -/
theorem writeCtrl_irq {s : State} {v : Word} (h1 : bitOf v 1 = false) (h2 : bitOf v 2 = false) :
    (s.writeCtrl v).irq = false := by
  unfold State.writeCtrl
  split
  · exact resetAgain_irq s
  · simp [State.irq, h1, h2]

/-- Settles O17: irq falls with the bits it is made of, and a write to STATUS is `State.ackStatus`. -/
theorem interruptCleared : Obligations.InterruptCleared := by
  intro s v
  rw [hostWrite_status, hostWrite_ctrl]
  refine ⟨ackStatus_irq, fun hb => ?_, writeCtrl_irq, resetAgain_irq s, fun (h : bitOf v 2 = true) => ?_,
    fun (h : bitOf v 2 = false) => ?_, rfl, rfl⟩
  · rw [hostWrite_cmd_idle hb]
    exact accept_irq v s
  · simp [h]
  · simp [h]

end Sys2Proof.Proofs

/-! SUPPORT. A write to CTRL, with the soft reset and without it (10_state R27, 70_reset R291). -/

namespace Sys2Proof.Proofs

open Sys2Proof Sys2Proof.Machine

theorem writeCtrl_of_srst (s : State) {v : Word} (h : bitOf v 0 = true) : s.writeCtrl v = s.resetAgain := if_pos h

theorem writeCtrl_of_not_srst (s : State) {v : Word} (h : bitOf v 0 = false) :
    s.writeCtrl v = { s with ieDone := bitOf v 1, ieErr := bitOf v 2 } := if_neg (ne_true_of_eq_false h)

/-- To store one bit of a word is to clear the bit wherever the word has a 0. -/
theorem bitAt_bitOf (v : Word) {i : Nat} (hi : i < 32) : bitAt (bitOf v i) i = bitAt true i &&& v :=
  calc bitAt (bitOf v i) i = bitAt (true && !bitOf (~~~v) i) i := by simp [bitOf, hi]
    _ = bitAt true i &&& v := by rw [bitAt_ack true _ hi, BitVec.not_not]

/-- CTRL reads back bits 1 and 2 of the word whose enables were stored (10_state R27). -/
theorem ctrlWord_of_enables (s : State) (v : Word) :
    State.ctrlWord { s with ieDone := bitOf v 1, ieErr := bitOf v 2 } = v &&& 6 :=
  calc bitAt (bitOf v 1) 1 ||| bitAt (bitOf v 2) 2
    _ = (bitAt true 1 ||| bitAt true 2) &&& v := by
      rw [bitAt_bitOf v (by decide), bitAt_bitOf v (by decide), BitVec.and_or_distrib_right]
    _ = v &&& 6 := BitVec.and_comm _ _

/-- Settles O26: the write reaches CTRL busy or idle (`hostWrite_ctrl`); with bit 0 it is the reset (`JustReset`), without
it the two enables are stored. -/
theorem softReset : Obligations.SoftReset := by
  intro s v
  rw [hostWrite_ctrl]
  refine ⟨fun (h : bitOf v 0 = true) => ?_, fun (h : bitOf v 0 = false) => ?_⟩
  · rw [writeCtrl_of_srst s h]
    exact ⟨rfl, rfl, justReset_readReg (justReset_resetAgain s) .ctrl (by decide)⟩
  · rw [writeCtrl_of_not_srst s h]
    exact ⟨rfl, ctrlWord_of_enables s v⟩

end Sys2Proof.Proofs
